-- ==== Sys2Proof/Word.lean ====
section
/-! DEFINITION. The word types of the model: bytes, register words, port data, addresses and the
64-bit encodings of binary64 values (20_memory.md R100, R103; 10_state.md R34). -/

namespace Sys2Proof

/-- A byte of a buffer memory (20_memory.md R100). -/
abbrev Byte := BitVec 8

/-- The contents of a 32-bit register, and a command word (10_state.md R34, 30_encoding.md R140). -/
abbrev Word := BitVec 32

/-- The data of one host access, at most 8 bytes (20_memory.md R110). -/
abbrev DWord := BitVec 64

/-- An address of the block's space of 2^21 bytes (20_memory.md R100). -/
abbrev Addr := BitVec 21

/-- The IEEE 754 binary64 encoding of a sample-domain value (20_memory.md R103). -/
abbrev F64 := BitVec 64

/-- A complex sample: real (in-phase) and imaginary (quadrature) part (20_memory.md R103). -/
structure Cx where
  /-- in-phase (real) part -/
  re : F64
  /-- quadrature (imaginary) part -/
  im : F64
deriving DecidableEq, Repr, Inhabited

end Sys2Proof
end

