-- ==== Sys2Proof/Config.lean ====
section
/-! DEFINITION. What the implementation fixes (00_scope.md R7), the bases of the address map
(20_memory.md R104), and the free values the spec leaves open: opaque constants, so that no proof
can see what they are (93_implementation_defined.md U1, U2, U4, U5, U6). -/

namespace Sys2Proof.Config

/-! ## Capacities (00_scope.md R7) and bases (20_memory.md R104) -/

/-- `IQ_CAP`, complex samples. -/
abbrev iqCap : Nat := 65536
/-- `TXBIT_CAP`, bits. -/
abbrev txbitCap : Nat := 131072
/-- `RXBIT_CAP`, bits. -/
abbrev rxbitCap : Nat := 131072
/-- `PDU_IN_CAP`, bytes. -/
abbrev pduInCap : Nat := 1024
/-- `PDU_OUT_CAP`, bytes. -/
abbrev pduOutCap : Nat := 256
/-- `COEF_CAP`, binary64 values. -/
abbrev coefCap : Nat := 1024

/-- `PDU_IN_BASE`. -/
abbrev pduInBase : Nat := 0x001000
/-- `PDU_OUT_BASE`. -/
abbrev pduOutBase : Nat := 0x001400
/-- `COEF_BASE`. -/
abbrev coefBase : Nat := 0x002000
/-- `TXBIT_BASE`. -/
abbrev txbitBase : Nat := 0x004000
/-- `RXBIT_BASE`. -/
abbrev rxbitBase : Nat := 0x008000
/-- `IQ_BASE`. -/
abbrev iqBase : Nat := 0x100000

/-! ## TRANSC: the functions whose accuracy the spec leaves open (00_scope.md R12, U5; log 9)

Each is a fixed total function of its operands about which nothing else is known. -/

/-- The complementary error function (00_scope.md R13). -/
opaque erfc : F64 → F64
/-- The square root of a non-square (00_scope.md R7); the spec takes it of 2 and of ln 2 only. -/
opaque sqrt : F64 → F64
/-- The decimal logarithm (43_demodulator.md R312). -/
opaque log10 : F64 → F64
/-- The cosine (00_scope.md R13 `expj`). -/
opaque cos : F64 → F64
/-- The sine (00_scope.md R13 `expj`). -/
opaque sin : F64 → F64
/-- `atan2 b a`, the angle of `a + j·b`, where `b` is not a zero (00_scope.md R13; log 10). -/
opaque atan2 : F64 → F64 → F64

/-- `TrackFn`, the residual-frequency tracking transform (43_demodulator.md R318, U6; log 11):
sample `n` of its result, given the gains `(BW, α, β)`, the samples `y` and `(sps, fs, Rs)`. -/
opaque trackSample : F64 × F64 × F64 → List Cx → Nat × Nat × Nat → Nat → Cx

/-! ## Draws (93_implementation_defined.md U1, U2, U4; log 8, 14) -/

/-- Free byte number `k`: what a host read returns for bits that are not determined. -/
opaque freeByte : Nat → Byte
/-- Free register word number `k`: what a host read of a register in the running command's output
footprint returns. -/
opaque freeWord : Nat → Word
/-- Free sign and fraction number `k` of a NaN that an operation produced. -/
opaque nanChoice : Nat → BitVec 53

end Sys2Proof.Config
end

