-- ==== Sys2Proof/Machine/Float64.lean ====
section
/-! DEFINITION. IEEE 754 binary64 arithmetic on encodings, computed exactly over the integers and
rounded once, to nearest, ties to even (00_scope.md R12, 60_exceptions.md R405), and the complex
functions of 00_scope.md R13. Inside a computation a NaN is the one encoding `fnan`; the free sign
and payload of a NaN that leaves the core are chosen where it is stored (log 8). -/

namespace Sys2Proof.Machine

/-! ## Integers -/

/-- `round_half_even(a/b)` (00_scope.md R13). -/
def roundHalfEven (a b : Nat) : Nat :=
  let q := a / b
  let r := a % b
  if b < 2 * r then q + 1
  else if 2 * r < b then q
  else q + q % 2

/-! ## Encodings -/

/-- What an encoding stands for: NaN, an infinity, or `(-1)^neg · m · 2^e`. -/
inductive Unpacked where
  | nan
  | inf (neg : Bool)
  | fin (neg : Bool) (m : Nat) (e : Int)
deriving DecidableEq, Repr

/-- The sign bit. -/
def fsign (x : F64) : Bool := x.msb

/-- The biased exponent, bits 62:52. -/
def fexp (x : F64) : Nat := x.toNat / 4503599627370496 % 2048

/-- The fraction, bits 51:0. -/
def ffrac (x : F64) : Nat := x.toNat % 4503599627370496

/-- The value of an encoding. -/
def funpack (x : F64) : Unpacked :=
  if fexp x = 2047 then
    if ffrac x = 0 then .inf (fsign x) else .nan
  else if fexp x = 0 then .fin (fsign x) (ffrac x) (-1074)
  else .fin (fsign x) (ffrac x + 4503599627370496) ((fexp x : Int) - 1075)

/-- Some NaN (20_memory.md R103). -/
def fisNaN (x : F64) : Bool := decide (fexp x = 2047) && decide (ffrac x ≠ 0)

/-- A zero of either sign. -/
def fisZero (x : F64) : Bool := decide (fexp x = 0) && decide (ffrac x = 0)

/-- The NaN that stands for every NaN inside a computation (log 8). -/
def fnan : F64 := 0x7FF8000000000000

/-- The value with magnitude bits `mag` and the given sign. -/
def fsigned (neg : Bool) (mag : Nat) : F64 :=
  BitVec.ofNat 64 (mag + if neg then 9223372036854775808 else 0)

/-- The infinity of the given sign. -/
def finf (neg : Bool) : F64 := fsigned neg 0x7FF0000000000000

/-- The zero of the given sign. -/
def fzero (neg : Bool) : F64 := fsigned neg 0

/-- Whether `d · 2^k ≤ n`. -/
def scaledLe (d : Nat) (k : Int) (n : Nat) : Bool :=
  if 0 ≤ k then decide (d <<< k.toNat ≤ n) else decide (d ≤ n <<< (-k).toNat)

/-- `⌊log2 (n / d)⌋` for positive `n` and `d`. -/
def floorLog2 (n d : Nat) : Int :=
  let est : Int := (Nat.log2 n : Int) - (Nat.log2 d : Int)
  if scaledLe d est n then est else est - 1

/-- Rounding to nearest, ties to even, of `(-1)^neg · (n / d) · 2^e` with `d > 0`
(00_scope.md R12, 60_exceptions.md R405). -/
def fround (neg : Bool) (n d : Nat) (e : Int) : F64 :=
  if n = 0 then fzero neg
  else
    let u : Int := max (floorLog2 n d + e - 52) (-1074)
    let sh : Int := e - u
    let q : Nat :=
      if 0 ≤ sh then roundHalfEven (n <<< sh.toNat) d else roundHalfEven n (d <<< (-sh).toNat)
    let bits : Nat := (u + 1074).toNat * 4503599627370496 + q
    if 0x7FF0000000000000 ≤ bits then finf neg else fsigned neg bits

/-! ## Operations -/

/-- `m · 2^e` as an integer multiple of `2^e0`, for `e0 ≤ e`, with its sign. -/
def alignTo (e0 : Int) (neg : Bool) (m : Nat) (e : Int) : Int :=
  if neg then -((m <<< (e - e0).toNat : Nat) : Int) else ((m <<< (e - e0).toNat : Nat) : Int)

/-- Negation: the sign bit is flipped; exact. -/
def fneg (x : F64) : F64 := x ^^^ 0x8000000000000000

/-- Addition. An exact zero sum is −0 only if both operands are negative. -/
def fadd (x y : F64) : F64 :=
  match funpack x, funpack y with
  | .nan, _ => fnan
  | _, .nan => fnan
  | .inf a, .inf b => if a = b then finf a else fnan
  | .inf a, .fin _ _ _ => finf a
  | .fin _ _ _, .inf b => finf b
  | .fin a m e, .fin b n f =>
    let e0 := min e f
    let z := alignTo e0 a m e + alignTo e0 b n f
    if z = 0 then fzero (a && b) else fround (decide (z < 0)) z.natAbs 1 e0

/-- Subtraction. -/
def fsub (x y : F64) : F64 := fadd x (fneg y)

/-- Multiplication. -/
def fmul (x y : F64) : F64 :=
  match funpack x, funpack y with
  | .nan, _ => fnan
  | _, .nan => fnan
  | .inf a, .inf b => finf (a != b)
  | .inf a, .fin b n _ => if n = 0 then fnan else finf (a != b)
  | .fin a m _, .inf b => if m = 0 then fnan else finf (a != b)
  | .fin a m e, .fin b n f => fround (a != b) (m * n) 1 (e + f)

/-- Division. -/
def fdiv (x y : F64) : F64 :=
  match funpack x, funpack y with
  | .nan, _ => fnan
  | _, .nan => fnan
  | .inf _, .inf _ => fnan
  | .inf a, .fin b _ _ => finf (a != b)
  | .fin a _ _, .inf b => fzero (a != b)
  | .fin a m e, .fin b n f =>
    if n = 0 then (if m = 0 then fnan else finf (a != b)) else fround (a != b) m n (e - f)

/-- `x < y`; false when either is a NaN (00_scope.md R12). -/
def flt (x y : F64) : Bool :=
  match funpack x, funpack y with
  | .nan, _ => false
  | _, .nan => false
  | .inf a, .inf b => a && !b
  | .inf a, .fin _ _ _ => a
  | .fin _ _ _, .inf b => !b
  | .fin a m e, .fin b n f =>
    let e0 := min e f
    decide (alignTo e0 a m e < alignTo e0 b n f)

/-- A natural number, rounded to nearest. -/
def fofNat (n : Nat) : F64 := fround false n 1 0

/-- An integer, rounded to nearest. -/
def fofInt (i : Int) : F64 := if i < 0 then fround true i.natAbs 1 0 else fround false i.natAbs 1 0

/-! ## Constants (41_pulse_shaper.md R263; 43_demodulator.md R312) -/

/-- `+0`, where every sum starts (00_scope.md R12). -/
def f0 : F64 := 0x0000000000000000
/-- 0.5. -/
def fhalf : F64 := 0x3FE0000000000000
/-- 1. -/
def f1 : F64 := 0x3FF0000000000000
/-- 2. -/
def f2 : F64 := 0x4000000000000000
/-- 10. -/
def f10 : F64 := 0x4024000000000000
/-- The binary64 value nearest to π. -/
def fpi : F64 := 0x400921FB54442D18
/-- The binary64 value nearest to ln 2. -/
def fln2 : F64 := 0x3FE62E42FEFA39EF
/-- `RSSI_EPS`: the binary64 value nearest to 1e-12 (00_scope.md R7). -/
def frssiEps : F64 := fround false 1 1000000000000 0
/-- `2·π`. -/
def ftwoPi : F64 := fmul f2 fpi

/-! ## Complex numbers (00_scope.md R13) -/

/-- `0 + j·0`, where every complex sum starts. -/
def cx0 : Cx := { re := f0, im := f0 }

/-- Componentwise addition. -/
def cadd (z w : Cx) : Cx := { re := fadd z.re w.re, im := fadd z.im w.im }

/-- `mul(z1, z2)`: four rounded products, then one rounded difference and one rounded sum. -/
def cmul (z w : Cx) : Cx :=
  { re := fsub (fmul z.re w.re) (fmul z.im w.im), im := fadd (fmul z.re w.im) (fmul z.im w.re) }

/-- `conj(z)`. -/
def conj (z : Cx) : Cx := { re := z.re, im := fneg z.im }

/-- `expj(θ) = cos θ + j·sin θ`. -/
def expj (t : F64) : Cx := { re := Config.cos t, im := Config.sin t }

/-- `arg(z)`: 0 for a zero of either sign in both parts; for a zero imaginary part the signed-zero
conventions of IEEE 754 (log 10); else `atan2` of accuracy TRANSC. -/
def arg (z : Cx) : F64 :=
  if fisZero z.re && fisZero z.im then f0
  else if fisZero z.im && !fisNaN z.re then
    if fsign z.re then (if fsign z.im then fneg fpi else fpi) else z.im
  else Config.atan2 z.im z.re

/-! ## Sequences (00_scope.md R10, R13) -/

/-- A sum from `+0` in increasing index (00_scope.md R12). -/
def fsum (l : List F64) : F64 := l.foldl fadd f0

/-- One value of the full convolution: `Σ h[i]·u[n−i]` over the indices inside both sequences, in
increasing `i`. -/
def convAt (u h : List F64) (n : Nat) : F64 :=
  fsum (((List.range h.length).filter fun i => decide (i ≤ n) && decide (n - i < u.length)).map
    fun i => fmul (h.getD i f0) (u.getD (n - i) f0))

/-- `conv(u, h)`, the full linear convolution; empty when `u` is. -/
def conv (u h : List F64) : List F64 :=
  if u.isEmpty || h.isEmpty then []
  else (List.range (u.length + h.length - 1)).map (convAt u h)

end Sys2Proof.Machine
end

