-- ==== Sys2Proof/Syntax.lean ====
section
/-! DEFINITION. Syntax: the seven commands (30_encoding.md R143), the command-word format CMD32
(R140), the register names (10_state.md R34), host accesses (20_memory.md R110) and the statements
of a host program (30_encoding.md R149, R150). -/

namespace Sys2Proof

/-- The commands, one constructor per row of the opcode table (30_encoding.md R143). No command has
an operand field (R140): operands are configuration registers. -/
inductive Instr where
  | modulate
  | demodulate
  | whiten
  | crc24
  | assemble
  | aaDetect
  | genPulse
deriving DecidableEq, Repr, Inhabited

/-- The fields of the one command-word format CMD32 (30_encoding.md R140). -/
structure Cmd32 where
  /-- bits 7:0 -/
  opcode : BitVec 8
  /-- bits 31:8, which must be 0 -/
  rsvd : BitVec 24
deriving DecidableEq, Repr

/-- The named registers of the register window (10_state.md R34). -/
inductive Reg where
  | cmd | status | ctrl | phycfg | sampleRate | modIndex | bt | span | accessAddr | crcInit
  | txFoff | txNbits | iqNsamp | iqOff | opOff | opLen | crcNbytes
  | resFlags | resTiming | resSyncPos | resAa | resHdr | resPduLen | resNbits | resCrc | resCrcRx
  | resSps | resCoefLen | resRssiLo | resRssiHi | resFreqLo | resFreqHi
deriving DecidableEq, Repr

/-- The width of a host access (20_memory.md R110, 30_encoding.md R149). -/
inductive Width where
  | w8 | w16 | w32 | w64
deriving DecidableEq, Repr

/-- One access of the host on the port (20_memory.md R100, R110). A write uses the low bytes of
`data`, as many as its width says (30_encoding.md R149). -/
inductive HostAccess where
  | read (addr : Addr) (width : Width)
  | write (addr : Addr) (width : Width) (data : DWord)
deriving DecidableEq, Repr

/-- The statements of a host program: the basic ones (30_encoding.md R149) and the
pseudo-statements (R150). Numbers that stand for addresses are already resolved. -/
inductive Stmt where
  /-- `wr8`, `wr16`, `wr32`, `wr64` -/
  | wr (width : Width) (addr : Addr) (data : DWord)
  /-- `rd8`, `rd16`, `rd32`, `rd64`, optionally naming the value -/
  | rd (width : Width) (addr : Addr) (name : Option String)
  /-- `cmd M` -/
  | cmd (i : Instr)
  /-- `wait` -/
  | wait
  /-- `run M` -/
  | run (i : Instr)
  /-- `clr` -/
  | clr
  /-- `wrf64 a, r` with `r` the rational `(-1)^neg · num / den` -/
  | wrf64 (addr : Addr) (neg : Bool) (num den : Nat)
  /-- `wrbytes a, b0 b1 ... bk` -/
  | wrbytes (addr : Addr) (bytes : List Byte)
  /-- `fill a, n, v` -/
  | fill (addr : Addr) (n : Nat) (v : Byte)
  /-- `wrbits a, c0 c1 ... cn` -/
  | wrbits (addr : Addr) (bits : List Bool)
deriving DecidableEq, Repr

end Sys2Proof
end

