-- ==== Sys2Proof/Machine/State.lean ====
section
/-! DEFINITION. The state of the block (10_state.md), as plain data; the reasons a step can stop;
and the state after reset (10_state.md R61, 70_reset_and_hazards.md R450). -/

namespace Sys2Proof.Machine

/-- The control point `STATUS.STAGE` (10_state.md R32). The values 13 to 15 are never read. -/
inductive Stage where
  | idle | start | freqSync | demod | filter | timingSync | bitDecision | packetSync | dewhiten
  | parse | crcCheck | done | exec
deriving DecidableEq, Repr

/-- The error codes of `STATUS.ERR_CODE` (60_exceptions.md R401). The values 8 to 15 are never
produced. -/
inductive ErrCode where
  | ok | illegalCmd | badPhy | badRate | badParam | badChannel | emptyInput | length
deriving DecidableEq, Repr

/-- `STATUS` but for `BUSY`, which is the presence of a running command (10_state.md R37). -/
structure Status where
  /-- `DONE`, bit 1 -/
  done : Bool
  /-- `ERR`, bit 2 -/
  err : Bool
  /-- `CMD_OVR`, bit 3 -/
  cmdOvr : Bool
  /-- `ERR_CODE`, bits 11:8 -/
  errCode : ErrCode
  /-- `STAGE`, bits 19:16 -/
  stage : Stage
  /-- `LAST_OP`, bits 31:24 -/
  lastOp : Byte
deriving DecidableEq, Repr

/-- `PHYCFG` (10_state.md R39). -/
structure PhyCfg where
  /-- bits 1:0 -/
  phyMode : BitVec 2
  /-- bits 13:8 -/
  channel : BitVec 6
  /-- bit 16 -/
  whitenEn : Bool
  /-- bit 17 -/
  mfEn : Bool
  /-- bit 18 -/
  trackEn : Bool
deriving DecidableEq, Repr

/-- The fourteen configuration registers that the snapshot copies (10_state.md R39 to R50, R52). -/
structure CfgRegs where
  /-- `PHYCFG` (R39) -/
  phycfg : PhyCfg
  /-- `SAMPLE_RATE` (R40) -/
  sampleRate : Word
  /-- `MOD_INDEX`, UQ16.16 (R41) -/
  modIndex : Word
  /-- `BT`, UQ16.16 (R42) -/
  bt : Word
  /-- `SPAN`, bits 7:0 (R43) -/
  span : Byte
  /-- `ACCESS_ADDR` (R44) -/
  accessAddr : Word
  /-- `CRC_INIT.INIT`, bits 23:0 (R45) -/
  crcInit : BitVec 24
  /-- `TX_FOFF`, s32 (R46) -/
  txFoff : Word
  /-- `TX_NBITS` (R47) -/
  txNbits : Word
  /-- `IQ_NSAMP` (R48) -/
  iqNsamp : Word
  /-- `IQ_OFF` (R49) -/
  iqOff : Word
  /-- `OP_OFF` (R50) -/
  opOff : Word
  /-- `OP_LEN` (R50) -/
  opLen : Word
  /-- `CRC_NBYTES` (R50) -/
  crcNbytes : Word
deriving DecidableEq, Repr

/-- `RES_FLAGS` (10_state.md R53). -/
structure ResFlags where
  /-- `SUCCESS`, bit 0 -/
  success : Bool
  /-- `CRC_VALID`, bit 1 -/
  crcValid : Bool
  /-- `SYNC_FOUND`, bit 2 -/
  syncFound : Bool
  /-- `HDR_VALID`, bit 3 -/
  hdrValid : Bool
  /-- `EXIT_STAGE`, bits 11:8; `idle` (0) until a command has written it -/
  exitStage : Stage
deriving DecidableEq, Repr

/-- The result registers (10_state.md R53 to R55). -/
structure Results where
  /-- `RES_FLAGS` -/
  flags : ResFlags
  /-- `RES_TIMING` -/
  timing : Word
  /-- `RES_SYNC_POS` -/
  syncPos : Word
  /-- `RES_AA` -/
  aa : Word
  /-- `RES_HDR.HDR0` -/
  hdr0 : Byte
  /-- `RES_HDR.HDR1` -/
  hdr1 : Byte
  /-- `RES_PDU_LEN` -/
  pduLen : Word
  /-- `RES_NBITS` -/
  nbits : Word
  /-- `RES_CRC`, bits 23:0 -/
  crc : BitVec 24
  /-- `RES_CRC_RX`, bits 23:0 -/
  crcRx : BitVec 24
  /-- `RES_SPS` -/
  sps : Word
  /-- `RES_COEF_LEN` -/
  coefLen : Word
  /-- `RES_RSSI_HI:RES_RSSI_LO` -/
  rssi : F64
  /-- `RES_FREQ_HI:RES_FREQ_LO` -/
  freq : F64
deriving DecidableEq, Repr

/-- The six buffer memories in one address space (10_state.md R57, 20_memory.md R104), with the
record of what has been written since reset (10_state.md R62). Both lists have strictly rising
addresses and no entry equal to what an unlisted address reads as, the byte 0; a bit that
`written` does not mark is 0 in `data` and is never looked at (log 6). -/
structure Memory where
  /-- the bytes -/
  data : List Host.Cell
  /-- per byte, the mask of the bits written since reset -/
  written : List Host.Cell
deriving DecidableEq, Repr

/-- The working state of a running DEMODULATE (10_state.md R60): what its stages have computed so
far. Each part is empty until its stage has run. -/
structure Work where
  /-- the input samples (43_demodulator.md R310) -/
  x : List Cx
  /-- `rssi` (R312) -/
  rssi : F64
  /-- `fhat` (R314) -/
  fhat : F64
  /-- the compensated samples (R316, R318) -/
  y : List Cx
  /-- the discriminator output (R320) -/
  d : List F64
  /-- the filter output (R322) -/
  z : List F64
  /-- `pstar` (R324) -/
  pstar : Nat
  /-- one sample per symbol (R324) -/
  r : List F64
  /-- the decided bits `c` (R327) -/
  bits : List Bool
  /-- the sync position `pos` (R330) -/
  pos : Nat
  /-- the dewhitened bits (R334) -/
  w : List Bool
deriving DecidableEq, Repr

/-- The working state as acceptance creates it (10_state.md R60). -/
def Work.empty : Work :=
  { x := [], rssi := 0, fhat := 0, y := [], d := [], z := [], pstar := 0, r := [], bits := [],
    pos := 0, w := [] }

/-- A command between acceptance and completion (10_state.md R51, R52, R60). -/
structure Running where
  /-- the accepted command word -/
  word : Word
  /-- the snapshot `cfg` -/
  cfg : CfgRegs
  /-- the working state -/
  work : Work
deriving DecidableEq, Repr

/-- What the outside does to the block next, or how far the core gets while the host is silent
(log 3). -/
inductive Input where
  /-- one access of the host on the port (20_memory.md R120) -/
  | access (a : HostAccess)
  /-- the core finishes the stage it is in (10_state.md R33) -/
  | stage
  /-- the core completes the running command (70_reset_and_hazards.md R470, R471) -/
  | run
  /-- the reset input is asserted and released (70_reset_and_hazards.md R450) -/
  | reset
deriving DecidableEq, Repr

/-- The answer of the port to a host access (20_memory.md R110, 60_exceptions.md R407). -/
structure Response where
  /-- the access was a bus error -/
  busError : Bool
  /-- the data of a read; 0 for a write and for a bus error -/
  data : DWord
deriving DecidableEq, Repr

/-- Everything the block holds (10_state.md R30), and three fields of the model's own. -/
structure State where
  /-- `STATUS` (R37) -/
  status : Status
  /-- `CTRL.IRQ_EN` (R38) -/
  irqEn : Bool
  /-- the configuration registers (R39 to R50) -/
  regs : CfgRegs
  /-- the result registers (R53 to R55) -/
  res : Results
  /-- the buffer memories (R57) -/
  mem : Memory
  /-- the running command with its snapshot and working state (R52, R60); `BUSY` is its presence -/
  running : Option Running
  /-- the model's own: what happens next outside the core (log 3) -/
  inputs : List Input
  /-- the model's own: the answer to the last host access (log 17) -/
  response : Option Response
  /-- the model's own: how many free values have been taken (log 14) -/
  draws : Nat
deriving DecidableEq, Repr

/-- The model faults of 60_exceptions.md R406. Both are safe: the model stops where the spec gives
no result. -/
inductive Fault where
  /-- `UNINIT_READ` (10_state.md R62): raised by a command that reads the bit or byte at `addr`
  although nothing has written it since reset. Safe. -/
  | uninitRead (cmd : Instr) (addr : Nat)
  /-- `FOOTPRINT_WRITE` (70_reset_and_hazards.md R462): raised by a host write to `addr`, in the
  footprint of the running command. Safe. -/
  | footprintWrite (cmd : Instr) (addr : Nat)
deriving DecidableEq, Repr

/-- The refusals of the model. -/
inductive Refusal where
  /-- Raised by an arm of `exec` whose instruction has no meaning yet; no arm does. Safe. -/
  | notModelled (mnemonic : String)
deriving DecidableEq, Repr

/-! ## Reset (10_state.md R61, 70_reset_and_hazards.md R450) -/

/-- `STATUS` after reset: every field 0. -/
def Status.reset : Status :=
  { done := false, err := false, cmdOvr := false, errCode := .ok, stage := .idle, lastOp := 0 }

/-- The configuration registers after reset. -/
def CfgRegs.reset : CfgRegs :=
  { phycfg := { phyMode := 0, channel := 37, whitenEn := true, mfEn := true, trackEn := false }
    sampleRate := 8000000
    modIndex := 0x00008000
    bt := 0x00008000
    span := 3
    accessAddr := 0x8E89BED6
    crcInit := 0x555555
    txFoff := 0
    txNbits := 0
    iqNsamp := 0
    iqOff := 0
    opOff := 0
    opLen := 0
    crcNbytes := 0 }

/-- The result registers after reset: all 0. -/
def Results.reset : Results :=
  { flags :=
      { success := false, crcValid := false, syncFound := false, hdrValid := false,
        exitStage := .idle }
    timing := 0
    syncPos := 0
    aa := 0
    hdr0 := 0
    hdr1 := 0
    pduLen := 0
    nbits := 0
    crc := 0
    crcRx := 0
    sps := 0
    coefLen := 0
    rssi := 0
    freq := 0 }

/-- The buffer memories after reset: nothing has been written (10_state.md R62). -/
def Memory.unwritten : Memory := { data := [], written := [] }

/-- The machine right after reset. The model's own fields start empty (log 1). -/
def State.reset : State :=
  { status := Status.reset
    irqEn := false
    regs := CfgRegs.reset
    res := Results.reset
    mem := Memory.unwritten
    running := none
    inputs := []
    response := none
    draws := 0 }

end Sys2Proof.Machine
end

