-- ==== Sys2Proof/Machine/Operands.lean ====
section
/-! DEFINITION. Operand decoding of the commands from the snapshot (30_encoding.md R146, R148;
41_pulse_shaper.md R261, R262) and the checks of every command in the order of 60_exceptions.md R403
(30_encoding.md R147). -/

namespace Sys2Proof.Machine

/-! ## Operands -/

/-- The symbol rate `Rs` (30_encoding.md R146). A command uses it only after the PHY check, which
refuses the modes 2 and 3. For these R146 gives no rate; that it is 2000000 there, which only the packet
scan can see, is a DESIGN CHOICE, unsafe (log 28). -/
def PhyCfg.symbolRate (p : PhyCfg) : Nat := if p.phyMode = 0 then 1000000 else 2000000

/-- The preamble length `Lpre` (30_encoding.md R146). A command uses it only after the PHY check. That
it is 16 for the modes 2 and 3, which only the packet scan can see, is a DESIGN CHOICE, unsafe
(log 28). -/
def PhyCfg.preambleLen (p : PhyCfg) : Nat := if p.phyMode = 0 then 8 else 16

/-- The sync-pattern length `Lp = Lpre + 32` (30_encoding.md R146; log 28 for the modes 2 and 3). -/
def PhyCfg.syncLen (p : PhyCfg) : Nat := p.preambleLen + 32

/-- `sps = round_half_even(fs / Rs)` (41_pulse_shaper.md R261). -/
def CfgRegs.sps (c : CfgRegs) : Nat := roundHalfEven c.sampleRate.toNat c.phycfg.symbolRate

/-- The pulse length `L = S·sps + 1` (41_pulse_shaper.md R262). -/
def CfgRegs.pulseLen (c : CfgRegs) : Nat := c.span.toNat * c.sps + 1

/-- `N_out = Nb·sps + L − 1` (42_modulator.md R283). -/
def CfgRegs.modulatedLen (c : CfgRegs) : Nat := c.txNbits.toNat * c.sps + c.pulseLen - 1

/-- A UQ16.16 register value, exact in binary64 (30_encoding.md R148). -/
def ofUQ16 (w : Word) : F64 := fdiv (fofNat w.toNat) (fofNat 65536)

/-- `h` (30_encoding.md R148). -/
def CfgRegs.h (c : CfgRegs) : F64 := ofUQ16 c.modIndex

/-- `B` (30_encoding.md R148). -/
def CfgRegs.b (c : CfgRegs) : F64 := ofUQ16 c.bt

/-- `fs` as a binary64 value (30_encoding.md R148). -/
def CfgRegs.fs (c : CfgRegs) : F64 := fofNat c.sampleRate.toNat

/-- `f_off = sext_32(TX_FOFF)` as a binary64 value (30_encoding.md R148). -/
def CfgRegs.fOff (c : CfgRegs) : F64 := fofInt c.txFoff.toInt

/-! ## Checks (30_encoding.md R147) -/

/-- PHY: `PHY_MODE >= 2`. -/
def CfgRegs.badPhy (c : CfgRegs) : Bool := decide (2 ≤ c.phycfg.phyMode.toNat)

/-- RATE: `sps = 0`. -/
def CfgRegs.badRate (c : CfgRegs) : Bool := decide (c.sps = 0)

/-- PARAM (Gaussian): `S = 0`, `BT = 0` or `L > COEF_CAP`. -/
def CfgRegs.badPulse (c : CfgRegs) : Bool :=
  decide (c.span = 0) || decide (c.bt = 0) || decide (Config.coefCap < c.pulseLen)

/-- PARAM (boxcar): `sps > COEF_CAP`. -/
def CfgRegs.badBoxcar (c : CfgRegs) : Bool := decide (Config.coefCap < c.sps)

/-- CHANNEL: `CHANNEL > 39`. -/
def CfgRegs.badChannel (c : CfgRegs) : Bool := decide (39 < c.phycfg.channel.toNat)

/-- LENGTH of WHITEN and AA_DETECT: `OP_OFF + OP_LEN > TXBIT_CAP`. -/
def CfgRegs.badOpRange (c : CfgRegs) : Bool :=
  decide (Config.txbitCap < c.opOff.toNat + c.opLen.toNat)

/-- The first failing check of MODULATE. -/
def modulateCheck (c : CfgRegs) : ErrCode :=
  if c.badPhy then .badPhy
  else if c.badRate then .badRate
  else if c.badPulse then .badParam
  else if c.txNbits = 0 then .emptyInput
  else if Config.txbitCap < c.txNbits.toNat
      ∨ Config.iqCap < c.iqOff.toNat + c.modulatedLen then .length
  else .ok

/-- The first failing check of DEMODULATE. -/
def demodulateCheck (c : CfgRegs) : ErrCode :=
  if c.badPhy then .badPhy
  else if c.badRate then .badRate
  else if (if c.phycfg.mfEn then c.badPulse else c.badBoxcar) then .badParam
  else if c.phycfg.whitenEn && c.badChannel then .badChannel
  else if Config.iqCap < c.iqOff.toNat + c.iqNsamp.toNat then .length
  else .ok

/-- The first failing check of WHITEN. -/
def whitenCheck (c : CfgRegs) : ErrCode :=
  if c.badChannel then .badChannel
  else if c.badOpRange then .length
  else .ok

/-- The one check of CRC24. -/
def crc24Check (c : CfgRegs) : ErrCode :=
  if Config.pduInCap < c.crcNbytes.toNat then .length else .ok

/-- The checks of ASSEMBLE that need no byte of `PDU_IN`. -/
def assembleCheck (c : CfgRegs) : ErrCode :=
  if c.badPhy then .badPhy
  else if c.phycfg.whitenEn && c.badChannel then .badChannel
  else .ok

/-- The length of the stream ASSEMBLE builds for a header that announces `len` payload bytes
(40_framing.md R230). -/
def CfgRegs.streamLen (c : CfgRegs) (len : Byte) : Nat :=
  c.phycfg.preambleLen + 32 + 8 * (5 + len.toNat)

/-- The LENGTH check of ASSEMBLE, on the byte `PDU_IN[1]`. -/
def assembleLenCheck (c : CfgRegs) (len : Byte) : ErrCode :=
  if Config.txbitCap < c.streamLen len then .length else .ok

/-- The first failing check of AA_DETECT. -/
def aaDetectCheck (c : CfgRegs) : ErrCode :=
  if c.badPhy then .badPhy
  else if c.badOpRange then .length
  else .ok

/-- The first failing check of GEN_PULSE. -/
def genPulseCheck (c : CfgRegs) : ErrCode :=
  if c.badPhy then .badPhy
  else if c.badRate then .badRate
  else if c.badPulse then .badParam
  else .ok

end Sys2Proof.Machine
end

