-- ==== Sys2Proof/WellFormed.lean ====
section
/-! DEFINITION. Well-formedness: of a command word's fields (30_encoding.md R140, R142, R143, R145)
and of a host program's statements (R149, R150). An `Instr` has no fields, so every one is
well-formed. -/

namespace Sys2Proof

/-- An instruction has no operand that could be ill-formed (30_encoding.md R140). -/
def Instr.wf : Instr → Bool
  | .modulate | .demodulate | .whiten | .crc24 | .assemble | .aaDetect | .genPulse => true

/-- A command word is legal: the reserved bits are 0 (30_encoding.md R142) and the opcode is one of
the seven (R143, R145). -/
def Cmd32.wf (c : Cmd32) : Bool :=
  c.rsvd == 0 && decide (1 ≤ c.opcode.toNat) && decide (c.opcode.toNat ≤ 7)

/-- A statement is well-formed: `wrbytes` and `wrbits` name at least one value, and `wrf64` a real
number (30_encoding.md R150). -/
def Stmt.wf : Stmt → Bool
  | .wrbytes _ bytes => !bytes.isEmpty
  | .wrbits _ bits => !bits.isEmpty
  | .wrf64 _ _ _ den => den != 0
  | .wr _ _ _ => true
  | .rd _ _ _ => true
  | .cmd i => i.wf
  | .wait => true
  | .run i => i.wf
  | .clr => true
  | .fill _ _ _ => true

end Sys2Proof
end

