-- ==== Sys2Proof/Decode.lean ====
section
/-! DEFINITION. The decoder of command words, total on any 32-bit word (30_encoding.md R140 to R145),
and after it the encoder. -/

namespace Sys2Proof

/-- Why a word is no command: both are answered with ILLEGAL_CMD (60_exceptions.md R401). -/
inductive DecodeError where
  /-- bits 31:8 are not all 0 (30_encoding.md R142) -/
  | reservedBits
  /-- OPCODE is 0x00 or 0x08 to 0xFF (30_encoding.md R145) -/
  | illegalOpcode
deriving DecidableEq, Repr

/-- What a command word decodes to (30_encoding.md R144). -/
inductive Decoded where
  | instr (i : Instr)
  | illegal (e : DecodeError)
deriving DecidableEq, Repr

/-- The fields of a command word (30_encoding.md R140). -/
def Cmd32.ofWord (w : Word) : Cmd32 :=
  { opcode := w.extractLsb' 0 8, rsvd := w.extractLsb' 8 24 }

/-- The word with the given fields (30_encoding.md R140). -/
def Cmd32.toWord (c : Cmd32) : Word := c.rsvd ++ c.opcode

/-- The opcode map (30_encoding.md R143). -/
def decodeOpcode (op : Byte) : Option Instr :=
  if op = 0x01 then some .modulate
  else if op = 0x02 then some .demodulate
  else if op = 0x03 then some .whiten
  else if op = 0x04 then some .crc24
  else if op = 0x05 then some .assemble
  else if op = 0x06 then some .aaDetect
  else if op = 0x07 then some .genPulse
  else none

/-- Decoding of a command word (30_encoding.md R144): reserved bits first (R142), then the opcode
(R143, R145). -/
def decode (w : Word) : Decoded :=
  if (Cmd32.ofWord w).rsvd ≠ 0 then .illegal .reservedBits
  else
    match decodeOpcode (Cmd32.ofWord w).opcode with
    | some i => .instr i
    | none => .illegal .illegalOpcode

/-- The command a decoded word stands for, if it is one. -/
def Decoded.instr? : Decoded → Option Instr
  | .instr i => some i
  | .illegal _ => none

/-- The instruction read from an instruction of `nbits` bits with value `w`, bits above `nbits`
being 0; the instruction is one 32-bit word (30_encoding.md R141). -/
def decodeTableWord (nbits w : Nat) : Option Instr :=
  if w % 2 ^ nbits < 2 ^ 32 then (decode (BitVec.ofNat 32 (w % 2 ^ nbits))).instr? else none

/-! ## The encoder -/

/-- The opcode of a command (30_encoding.md R143). -/
def Instr.opcode : Instr → Byte
  | .modulate => 0x01
  | .demodulate => 0x02
  | .whiten => 0x03
  | .crc24 => 0x04
  | .assemble => 0x05
  | .aaDetect => 0x06
  | .genPulse => 0x07

/-- The command word of a command: its opcode, reserved bits 0 (30_encoding.md R140, R143). -/
def encode (i : Instr) : Word := Cmd32.toWord { opcode := i.opcode, rsvd := 0 }

end Sys2Proof
end

