-- ==== Sys2Proof/Machine/Ops.lean ====
section
/-! DEFINITION. The named operations over memory and registers: reads and writes of bits, bytes and
binary64 values (00_scope.md R11, 10_state.md R62), free values, the snapshot (10_state.md R52),
acceptance (R51), completion (R56) and the refusal of a command (60_exceptions.md R404). -/

namespace Sys2Proof.Machine

/-! ## Cells: a sparse list of bytes in canonical form, an unlisted address reading as 0 -/

/-- What an address that is not listed reads as (log 6). -/
def unlistedByte : Byte := 0

/-- The byte a list of cells holds at an address. -/
def getCell : List Host.Cell → Nat → Byte
  | [], _ => unlistedByte
  | (b, v) :: l, a => if b = a then v else getCell l a

/-- Stores a byte, keeping the canonical form. -/
def setCell : List Host.Cell → Nat → Byte → List Host.Cell
  | [], a, v => if v = unlistedByte then [] else [(a, v)]
  | (b, u) :: l, a, v =>
    if b < a then (b, u) :: setCell l a v
    else if b = a then (if v = unlistedByte then l else (a, v) :: l)
    else if v = unlistedByte then (b, u) :: l
    else (a, v) :: (b, u) :: l

/-- Addresses rise strictly from at least `lo`, and no cell holds what an unlisted address reads
as. -/
def cellsWf : Nat → List Host.Cell → Bool
  | _, [] => true
  | lo, (a, v) :: l => decide (lo ≤ a) && decide (v ≠ unlistedByte) && cellsWf (a + 1) l

/-! ## Bytes and bits of memory (00_scope.md R11, 20_memory.md R102) -/

/-- The byte at an address; bits not written since reset are 0 here and stand for no value. -/
def Memory.byte (m : Memory) (a : Nat) : Byte := getCell m.data a

/-- The mask of the bits of a byte written since reset (10_state.md R62). -/
def Memory.mask (m : Memory) (a : Nat) : Byte := getCell m.written a

/-- `MemWrite(a, 1, v)`: stores a byte and marks all its bits (10_state.md R62). -/
def Memory.setByte (m : Memory) (a : Nat) (v : Byte) : Memory :=
  { data := setCell m.data a v, written := setCell m.written a 0xFF }

/-- The byte with bit `k` set to `b` and the others kept. -/
def putBit (v : Byte) (k : Nat) (b : Bool) : Byte :=
  if b then v ||| (1#8 <<< k) else v &&& ~~~(1#8 <<< k)

/-- `BitWrite(base, i, b)`: writes one bit, keeps the other seven, and marks only its own
(00_scope.md R11, 10_state.md R62). -/
def Memory.setBit (m : Memory) (base i : Nat) (b : Bool) : Memory :=
  { data := setCell m.data (base + i / 8) (putBit (m.byte (base + i / 8)) (i % 8) b)
    written := setCell m.written (base + i / 8) (putBit (m.mask (base + i / 8)) (i % 8) true) }

/-- The bit `BitRead(base, i)` looks at. -/
def Memory.bit (m : Memory) (base i : Nat) : Bool := (m.byte (base + i / 8)).getLsbD (i % 8)

/-- Whether that bit has been written since reset. -/
def Memory.bitWritten (m : Memory) (base i : Nat) : Bool :=
  (m.mask (base + i / 8)).getLsbD (i % 8)

/-- The memory is canonical: both lists are, and no bit that has not been written is listed. -/
def Memory.wf (m : Memory) : Bool :=
  cellsWf 0 m.data && cellsWf 0 m.written
    && m.data.all fun c => decide (c.2 &&& ~~~(getCell m.written c.1) = 0)

/-- `n` bits from bit `i` on, or the byte address of the first one not written since reset
(10_state.md R62). -/
def Memory.readBits (m : Memory) (base : Nat) : Nat → Nat → Except Nat (List Bool)
  | _, 0 => .ok []
  | i, n + 1 =>
    if m.bitWritten base i then
      match m.readBits base (i + 1) n with
      | .ok l => .ok (m.bit base i :: l)
      | .error a => .error a
    else .error (base + i / 8)

/-- `n` bytes from address `a` on, or the address of the first one not written since reset. -/
def Memory.readBytes (m : Memory) : Nat → Nat → Except Nat (List Byte)
  | _, 0 => .ok []
  | a, n + 1 =>
    if m.mask a = 0xFF then
      match m.readBytes (a + 1) n with
      | .ok l => .ok (m.byte a :: l)
      | .error e => .error e
    else .error a

/-- Bits written one after the other from bit `i` on. -/
def Memory.writeBits (m : Memory) (base : Nat) : Nat → List Bool → Memory
  | _, [] => m
  | i, b :: l => (m.setBit base i b).writeBits base (i + 1) l

/-- Bytes written one after the other from address `a` on. -/
def Memory.writeBytes (m : Memory) : Nat → List Byte → Memory
  | _, [] => m
  | a, v :: l => (m.setByte a v).writeBytes (a + 1) l

/-! ## Bits, bytes and wider values (20_memory.md R101, R102; 40_framing.md R220) -/

/-- `Σ b[k]·2^k`: bits, the first least significant. -/
def natOfBits : List Bool → Nat
  | [] => 0
  | b :: l => b.toNat + 2 * natOfBits l

/-- The bits of a byte, bit 0 first. -/
def bitsOfByte (v : Byte) : List Bool := (List.range 8).map v.getLsbD

/-- `bitsOf(bytes)` (40_framing.md R220). -/
def bitsOf (l : List Byte) : List Bool := l.flatMap bitsOfByte

/-- `bytesOf(c)`: a trailing partial byte is dropped (40_framing.md R220). -/
def bytesOf : List Bool → List Byte
  | b0 :: b1 :: b2 :: b3 :: b4 :: b5 :: b6 :: b7 :: l =>
    BitVec.ofNat 8 (natOfBits [b0, b1, b2, b3, b4, b5, b6, b7]) :: bytesOf l
  | _ => []

/-- The eight bytes of a 64-bit value, least significant first (20_memory.md R101). -/
def bytesOfDWord (v : DWord) : List Byte := (List.range 8).map fun k => v.extractLsb' (8 * k) 8

/-- The 64-bit value of bytes, least significant first (20_memory.md R101). -/
def dwordOfBytes (l : List Byte) : DWord := BitVec.ofNat 64 (natOfBits (bitsOf l))

/-- Complex samples from their bytes, 16 each, real part first (20_memory.md R103). -/
def samplesOf : List Byte → List Cx
  | a0 :: a1 :: a2 :: a3 :: a4 :: a5 :: a6 :: a7 ::
    b0 :: b1 :: b2 :: b3 :: b4 :: b5 :: b6 :: b7 :: l =>
    { re := dwordOfBytes [a0, a1, a2, a3, a4, a5, a6, a7]
      im := dwordOfBytes [b0, b1, b2, b3, b4, b5, b6, b7] } :: samplesOf l
  | _ => []

/-- The two parts of each sample in memory order (20_memory.md R103). -/
def partsOf (l : List Cx) : List F64 := l.flatMap fun z => [z.re, z.im]

/-! ## Free values (93_implementation_defined.md U4; log 8) -/

/-- Free NaN encoding number `k`: any sign, any non-zero fraction. -/
def freeNaN (k : Nat) : F64 :=
  let f := (Config.nanChoice k).setWidth 52
  BitVec.ofBool (Config.nanChoice k).msb ++ 0x7FF#11 ++ (if f = 0 then 1#52 else f)

/-- The encoding stored for a computed value: a NaN is stored with a free sign and payload. -/
def storedF64 (k : Nat) (v : F64) : F64 := if fisNaN v then freeNaN k else v

/-- The bytes `F64Write` stores for computed values, free value `k` belonging to the first. -/
def storedBytes : Nat → List F64 → List Byte
  | _, [] => []
  | k, v :: l => bytesOfDWord (storedF64 k v) ++ storedBytes (k + 1) l

/-- `F64Write` of computed values one after the other from address `a` on, one free value set aside
for each. -/
def State.writeF64s (s : State) (a : Nat) (l : List F64) : State :=
  { s with mem := s.mem.writeBytes a (storedBytes s.draws l), draws := s.draws + l.length }

/-! ## The command lifecycle (10_state.md R51, R52, R56; 60_exceptions.md R404) -/

/-- The configuration a command reads: its snapshot (10_state.md R52). With no command running it is
what acceptance would copy now (log 18). -/
def State.cfg (s : State) : CfgRegs :=
  match s.running with
  | some r => r.cfg
  | none => s.regs

/-- The working state of the running command (10_state.md R60). -/
def State.work (s : State) : Work :=
  match s.running with
  | some r => r.work
  | none => Work.empty

/-- The accepted command word. -/
def State.commandWord (s : State) : Word :=
  match s.running with
  | some r => r.word
  | none => encode .demodulate

/-- `STAGE` at acceptance of a word (10_state.md R51). -/
def firstStage (w : Word) : Stage := if w = 0x00000002 then .start else .exec

/-- Acceptance of a command word (10_state.md R51), up to the running of the command. -/
def State.accept (s : State) (w : Word) : State :=
  { s with
    status :=
      { s.status with
        done := false
        err := false
        lastOp := w.extractLsb' 0 8
        stage := firstStage w }
    running := some { word := w, cfg := s.regs, work := Work.empty } }

/-- `complete(code)` (10_state.md R56); the snapshot and the working state are discarded (R60). -/
def State.complete (s : State) (code : ErrCode) : State :=
  { s with
    status :=
      { s.status with
        errCode := code
        err := decide (code ≠ .ok)
        stage := .done
        done := true }
    running := none }

/-- `refuse(code)`: the block's "trap entry", taken by every command that fails a check; nothing but
`STATUS` is written (60_exceptions.md R404). -/
def State.refuse (s : State) (code : ErrCode) : State := s.complete code

/-- A demodulator stage ends: `STAGE <- ` its successor, with what has been computed so far
(10_state.md R33, R60). -/
def State.advance (s : State) (k : Work) (next : Stage) : State :=
  { s with
    status := { s.status with stage := next }
    running := some { word := s.commandWord, cfg := s.cfg, work := k } }

/-- What a command does once its checks are known: the refusal if one failed, else its body
(30_encoding.md R144). -/
def State.guarded (s : State) (code : ErrCode) (body : Host.Outcome State Fault Refusal) :
    Host.Outcome State Fault Refusal :=
  if code = .ok then body else .next (s.refuse code)

/-- What a body does with operands read from memory: `UNINIT_READ` if one has not been written since
reset (10_state.md R62), else the rest. -/
def withRead {α : Type} (i : Instr) (r : Except Nat α)
    (body : α → Host.Outcome State Fault Refusal) : Host.Outcome State Fault Refusal :=
  match r with
  | .ok v => body v
  | .error a => .fault (.uninitRead i a)

/-- A command word is requested (10_state.md R51, 60_exceptions.md R408): dropped with `CMD_OVR`
while a command runs; else accepted, an illegal word completing at once (30_encoding.md R142, R145;
log 5). -/
def State.request (s : State) (w : Word) : State :=
  if s.running.isSome then { s with status := { s.status with cmdOvr := true } }
  else
    match decode w with
    | .instr _ => s.accept w
    | .illegal _ => (s.accept w).refuse .illegalCmd

/-- Reset (70_reset_and_hazards.md R450): everything the block holds takes its reset value; the list
of inputs and the count of free values are the model's and go on (log 19). -/
def State.applyReset (s : State) : State :=
  { State.reset with inputs := s.inputs, draws := s.draws }

end Sys2Proof.Machine
end

