-- ==== Sys2Proof/Machine/Framing.lean ====
section
/-! DEFINITION. Framing (40_framing.md): the whitening LFSR, CRC-24, the patterns, and the commands
WHITEN (R205), CRC24 (R215) and ASSEMBLE (R230). -/

namespace Sys2Proof.Machine

/-! ## Whitening (40_framing.md R200 to R204) -/

/-- The seed `(ch & 0x3F) | 0x40` (R201). -/
def lfsrSeed (ch : BitVec 6) : BitVec 7 := 1#1 ++ ch

/-- One LFSR step: towards bit 6, `s[6] ^ s[3]` into bit 0 (R202). -/
def lfsrStep (s : BitVec 7) : BitVec 7 :=
  (s <<< 1) ||| (BitVec.ofBool (s.getLsbD 6 ^^ s.getLsbD 3)).setWidth 7

/-- `n` outputs from a state: each is bit 0 before the shift (R202). -/
def lfsrOutputs : BitVec 7 → Nat → List Bool
  | _, 0 => []
  | s, n + 1 => s.getLsbD 0 :: lfsrOutputs (lfsrStep s) n

/-- `whiteningSequence(ch, n)` (R202). -/
def whiteningSequence (ch : BitVec 6) (n : Nat) : List Bool := lfsrOutputs (lfsrSeed ch) n

/-- `applyWhitening(c, ch)` (R203). -/
def applyWhitening (c : List Bool) (ch : BitVec 6) : List Bool :=
  List.zipWith (fun a b => a ^^ b) c (whiteningSequence ch c.length)

/-! ## CRC-24 (40_framing.md R210 to R214) -/

/-- The polynomial (R210). -/
def crcPoly : BitVec 24 := 0x00065B

/-- One CRC step with input bit `b` (R212). -/
def crcStep (r : BitVec 24) (b : Bool) : BitVec 24 :=
  if r.getLsbD 23 ^^ b then (r <<< 1) ^^^ crcPoly else r <<< 1

/-- `reverse24(v)` (00_scope.md R13). -/
def reverse24 (v : BitVec 24) : BitVec 24 :=
  BitVec.ofNat 24 (natOfBits ((List.range 24).map fun i => v.getLsbD (23 - i)))

/-- The register after the given input bits (R211, R212). -/
def crcRegister (init : BitVec 24) (bits : List Bool) : BitVec 24 := bits.foldl crcStep init

/-- `crc24(bytes, init)` (R213). -/
def crc24 (bytes : List Byte) (init : BitVec 24) : BitVec 24 :=
  reverse24 (crcRegister init (bitsOf bytes))

/-- The three CRC bytes in transmission order (R214). -/
def crcBytes (c : BitVec 24) : List Byte :=
  [c.extractLsb' 0 8, c.extractLsb' 8 8, c.extractLsb' 16 8]

/-- The received CRC value of three bytes (R214). -/
def crcOfBytes (b0 b1 b2 : Byte) : BitVec 24 := b2 ++ b1 ++ b0

/-! ## Patterns (40_framing.md R218, R219, R221) -/

/-- `aaBits(aa)` (R218). -/
def aaBits (aa : Word) : List Bool := (List.range 32).map aa.getLsbD

/-- `preamble(aa, phy)[i] = (aa[0] + i) mod 2` (R219). -/
def preamble (aa : Word) (p : PhyCfg) : List Bool :=
  (List.range p.preambleLen).map fun i => decide (((aa.getLsbD 0).toNat + i) % 2 = 1)

/-- The sync pattern `P(aa, phy)` (R221). -/
def syncPattern (aa : Word) (p : PhyCfg) : List Bool := preamble aa p ++ aaBits aa

/-! ## Packet assembly (40_framing.md R225, R226) -/

/-- The header, payload and CRC bits of a packet, whitened or not (R226, R230). -/
def packetTail (c : CfgRegs) (pdu : List Byte) : List Bool :=
  let tail := bitsOf (pdu ++ crcBytes (crc24 pdu c.crcInit))
  if c.phycfg.whitenEn then applyWhitening tail c.phycfg.channel else tail

/-- The whole stream of a packet (R225, R230). -/
def packetStream (c : CfgRegs) (pdu : List Byte) : List Bool :=
  preamble c.accessAddr c.phycfg ++ aaBits c.accessAddr ++ packetTail c pdu

/-! ## The commands -/

/-- WHITEN (40_framing.md R205). -/
def execWhiten (s : State) : Host.Outcome State Fault Refusal :=
  s.guarded (whitenCheck s.cfg) <|
    withRead .whiten (s.mem.readBits Config.txbitBase s.cfg.opOff.toNat s.cfg.opLen.toNat) fun c =>
      .next (State.complete
        { s with
          mem := s.mem.writeBits Config.txbitBase s.cfg.opOff.toNat
            (applyWhitening c s.cfg.phycfg.channel) } .ok)

/-- CRC24 (40_framing.md R215). -/
def execCrc24 (s : State) : Host.Outcome State Fault Refusal :=
  s.guarded (crc24Check s.cfg) <|
    withRead .crc24 (s.mem.readBytes Config.pduInBase s.cfg.crcNbytes.toNat) fun bytes =>
      .next (State.complete { s with res := { s.res with crc := crc24 bytes s.cfg.crcInit } } .ok)

/-- The body of ASSEMBLE once the length byte and the PDU have been read (40_framing.md R230). -/
def assembled (s : State) (pdu : List Byte) : State :=
  let stream := packetStream s.cfg pdu
  { s with
    mem := s.mem.writeBits Config.txbitBase 0 stream
    regs := { s.regs with txNbits := BitVec.ofNat 32 stream.length }
    res := { s.res with crc := crc24 pdu s.cfg.crcInit } }

/-- ASSEMBLE (40_framing.md R230). The LENGTH check reads `PDU_IN[1]`, after the earlier checks have
passed (30_encoding.md R147, 60_exceptions.md R403). -/
def execAssemble (s : State) : Host.Outcome State Fault Refusal :=
  s.guarded (assembleCheck s.cfg) <|
    withRead .assemble (s.mem.readBytes (Config.pduInBase + 1) 1) fun lenByte =>
      s.guarded (assembleLenCheck s.cfg (lenByte.headD 0)) <|
        withRead .assemble (s.mem.readBytes Config.pduInBase (2 + (lenByte.headD 0).toNat))
          fun pdu => .next ((assembled s pdu).complete .ok)

end Sys2Proof.Machine
end

