-- ==== Sys2Proof/Machine/Pulse.lean ====
section
/-! DEFINITION. The Gaussian pulse shaper (41_pulse_shaper.md) and GEN_PULSE (R268). -/

namespace Sys2Proof.Machine

/-- The Gaussian tail function `Q(x) = ½·erfc(x / sqrt 2)` (00_scope.md R13, 41_pulse_shaper.md
R263). -/
def qFunc (x : F64) : F64 := fmul fhalf (Config.erfc (fdiv x (Config.sqrt f2)))

/-- `a = (2·π·B) / sqrt(ln 2)` (41_pulse_shaper.md R263). -/
def pulseSlope (b : F64) : F64 := fdiv (fmul ftwoPi b) (Config.sqrt fln2)

/-- `t_i = (i − (L−1)/2) / sps`, the numerator exact (41_pulse_shaper.md R262, R263). -/
def pulseTime (sps len i : Nat) : F64 :=
  fdiv (fdiv (fofInt (2 * (i : Int) - ((len : Int) - 1))) f2) (fofNat sps)

/-- `g_i` (41_pulse_shaper.md R263). -/
def rawPulse (b : F64) (sps len i : Nat) : F64 :=
  let t := pulseTime sps len i
  fsub (qFunc (fmul (pulseSlope b) (fsub t fhalf))) (qFunc (fmul (pulseSlope b) (fadd t fhalf)))

/-- The normalized frequency pulse `p_i = g_i / G` (41_pulse_shaper.md R264). -/
def pulse (b : F64) (sps len : Nat) : List F64 :=
  let g := (List.range len).map (rawPulse b sps len)
  let total := fsum g
  g.map fun v => fdiv v total

/-- The pulse of a configuration (41_pulse_shaper.md R260 to R264, R269). -/
def CfgRegs.pulse (c : CfgRegs) : List F64 := Machine.pulse c.b c.sps c.pulseLen

/-- The demodulator's filter (41_pulse_shaper.md R266). -/
def CfgRegs.filter (c : CfgRegs) : List F64 :=
  if c.phycfg.mfEn then c.pulse else List.replicate c.sps (fdiv f1 (fofNat c.sps))

/-- The body of GEN_PULSE (41_pulse_shaper.md R268). -/
def pulseGenerated (s : State) : State :=
  let t := s.writeF64s Config.coefBase s.cfg.pulse
  { t with
    res :=
      { t.res with
        coefLen := BitVec.ofNat 32 s.cfg.pulseLen
        sps := BitVec.ofNat 32 s.cfg.sps } }

/-- GEN_PULSE (41_pulse_shaper.md R268). -/
def execGenPulse (s : State) : Host.Outcome State Fault Refusal :=
  s.guarded (genPulseCheck s.cfg) (.next ((pulseGenerated s).complete .ok))

end Sys2Proof.Machine
end

