-- ==== Sys2Proof/Machine/Demodulator.lean ====
section
/-! DEFINITION. The GFSK demodulator (43_demodulator.md), stage by stage as `STATUS.STAGE` names them
(10_state.md R32), DEMODULATE (R310) and the access-address detector AA_DETECT (R345). -/

namespace Sys2Proof.Machine

/-! ## Front end (43_demodulator.md R312 to R318) -/

/-- RSSI (R312). -/
def rssiOf (x : List Cx) : F64 :=
  let acc := fsum (x.map fun z => fadd (fmul z.re z.re) (fmul z.im z.im))
  let mean := if x.length = 0 then f0 else fdiv acc (fofNat x.length)
  fmul f10 (Config.log10 (fadd mean frssiEps))

/-- The lag products `mul(x[n], conj(x[n−1]))` for `n ≥ 1` (R314, R320). -/
def lagProducts (x : List Cx) : List Cx := List.zipWith (fun a b => cmul b (conj a)) x x.tail

/-- The carrier estimate `fhat` (R314). -/
def carrierEstimate (c : CfgRegs) (x : List Cx) : F64 :=
  fdiv (fmul (arg ((lagProducts x).foldl cadd cx0)) c.fs) ftwoPi

/-- Compensation (R316). -/
def compensate (c : CfgRegs) (fhat : F64) (x : List Cx) : List Cx :=
  x.mapIdx fun n z =>
    cmul z (expj (fdiv (fmul (fmul (fneg ftwoPi) fhat) (fofNat n)) c.fs))

/-- `BW = 0.01·Rs` (R318). -/
def trackBw (c : CfgRegs) : F64 := fmul (fround false 1 100 0) (fofNat c.phycfg.symbolRate)

/-- `α = 2·π·BW/fs` (R318). -/
def trackAlpha (c : CfgRegs) : F64 := fdiv (fmul ftwoPi (trackBw c)) c.fs

/-- `β = α²/2` (R318). -/
def trackBeta (c : CfgRegs) : F64 := fdiv (fmul (trackAlpha c) (trackAlpha c)) f2

/-- `TrackFn(y, sps, fs, Rs)`: an open function that keeps the length (R318; log 11). -/
def trackFn (c : CfgRegs) (y : List Cx) : List Cx :=
  (List.range y.length).map
    (Config.trackSample (trackBw c, trackAlpha c, trackBeta c) y
      (c.sps, c.sampleRate.toNat, c.phycfg.symbolRate))

/-! ## Discriminator, timing, decision (43_demodulator.md R320 to R327) -/

/-- The FM discriminator (R320). -/
def discriminate (y : List Cx) : List F64 := (lagProducts y).map arg

/-- The samples of one candidate phase: `z[p + k·sps]` for `0 ≤ k < K` (R324). -/
def phaseSamples (z : List F64) (sps p : Nat) : List F64 :=
  (List.range (z.length / sps)).map fun k => z.getD (p + k * sps) f0

/-- The energy `E[p]` (R324). -/
def phaseEnergy (z : List F64) (sps p : Nat) : F64 :=
  fsum ((phaseSamples z sps p).map fun v => fmul v v)

/-- `pstar`: the first phase of greatest energy (R324). -/
def bestPhase (z : List F64) (sps : Nat) : Nat :=
  (List.range sps).foldl
    (fun best p => if flt (phaseEnergy z sps best) (phaseEnergy z sps p) then p else best) 0

/-- Bit decision: 1 for a sample greater than 0 (R327). -/
def decideBit (r : F64) : Bool := flt f0 r

/-! ## Packet synchronization (43_demodulator.md R330, R331; 41_pulse_shaper.md R267) -/

/-- `nrz(b) = 2·b − 1` (00_scope.md R10). -/
def nrz (b : Bool) : Int := if b then 1 else -1

/-- The correlation of the first bits of `c` with a pattern (R330). -/
def correlation (c pattern : List Bool) : Int :=
  (List.zipWith (fun a b => nrz a * nrz b) c pattern).sum

/-- The threshold test `5·corr >= 4·Lp` at the start of `c` (R330). -/
def isHit (c pattern : List Bool) : Bool :=
  decide (4 * (pattern.length : Int) ≤ 5 * correlation c pattern)

/-- `SYNC(c)`: the leftmost hit over full overlaps (R330). -/
def findSync (c pattern : List Bool) : Option Nat :=
  (List.range (c.length + 1 - pattern.length)).find? fun i => isHit (c.drop i) pattern

/-- `RES_AA`: the 32 bits at the access-address position (R331). -/
def receivedAa (p : PhyCfg) (c : List Bool) (pos : Nat) : Word :=
  BitVec.ofNat 32 (natOfBits ((c.drop (pos + p.preambleLen)).take 32))

/-! ## The stages, as functions of the snapshot and the working state -/

/-- S_START (R312): the working state begins with the samples and their RSSI. -/
def startWork (x : List Cx) : Work := { Work.empty with x := x, rssi := rssiOf x }

/-- S_FREQ_SYNC (R314, R316, R318). -/
def freqSyncWork (c : CfgRegs) (k : Work) : Work :=
  let fhat := carrierEstimate c k.x
  let y := compensate c fhat k.x
  { k with fhat := fhat, y := if c.phycfg.trackEn then trackFn c y else y }

/-- S_DEMOD (R320). -/
def demodWork (k : Work) : Work := { k with d := discriminate k.y }

/-- S_FILTER (R322). -/
def filterWork (c : CfgRegs) (k : Work) : Work := { k with z := conv k.d c.filter }

/-- S_TIMING_SYNC (R324). -/
def timingWork (c : CfgRegs) (k : Work) : Work :=
  let p := bestPhase k.z c.sps
  { k with pstar := p, r := phaseSamples k.z c.sps p }

/-- S_BIT_DECISION (R327). -/
def decisionWork (k : Work) : Work := { k with bits := k.r.map decideBit }

/-- The bits written to `RXBIT`: the decided bits, the last byte filled up with zeros (R327). -/
def paddedBits (c : List Bool) : List Bool :=
  c ++ List.replicate (8 * ((c.length + 7) / 8) - c.length) false

/-- S_DEWHITEN (R334). -/
def dewhitenWork (c : CfgRegs) (k : Work) : Work :=
  let rest := k.bits.drop (k.pos + c.phycfg.syncLen)
  { k with w := if c.phycfg.whitenEn then applyWhitening rest c.phycfg.channel else rest }

/-! ## Exits (43_demodulator.md R331, R333, R335, R337, R340, R341) -/

/-- What an exit reports besides the values every exit reports. -/
structure DemodExit where
  flags : ResFlags
  syncPos : Nat
  aa : Word
  hdr0 : Byte
  hdr1 : Byte
  pdu : List Byte
  crc : BitVec 24
  crcRx : BitVec 24
deriving DecidableEq, Repr

/-- The exit at S_PACKET_SYNC: no hit (R331). -/
def exitNoSync : DemodExit :=
  { flags :=
      { success := false, crcValid := false, syncFound := false, hdrValid := false,
        exitStage := .packetSync }
    syncPos := 0
    aa := 0
    hdr0 := 0
    hdr1 := 0
    pdu := []
    crc := 0
    crcRx := 0 }

/-- The exit at S_PARSE with fewer than 16 bits after the pattern (R333). -/
def exitShort (c : CfgRegs) (k : Work) : DemodExit :=
  { flags :=
      { success := false, crcValid := false, syncFound := true, hdrValid := false,
        exitStage := .parse }
    syncPos := k.pos
    aa := receivedAa c.phycfg k.bits k.pos
    hdr0 := 0
    hdr1 := 0
    pdu := []
    crc := 0
    crcRx := 0 }

/-- Byte `i` of the dewhitened bits (R333). -/
def Work.byte (k : Work) (i : Nat) : Byte := (bytesOf k.w).getD i 0

/-- The payload length the header announces (R335). -/
def Work.payloadLen (k : Work) : Nat := (k.byte 1).toNat

/-- The exit at S_PARSE with fewer bytes than the header announces: the header alone (R333). -/
def exitTruncated (c : CfgRegs) (k : Work) : DemodExit :=
  { flags :=
      { success := false, crcValid := false, syncFound := true, hdrValid := true,
        exitStage := .parse }
    syncPos := k.pos
    aa := receivedAa c.phycfg k.bits k.pos
    hdr0 := k.byte 0
    hdr1 := k.byte 1
    pdu := [k.byte 0, k.byte 1]
    crc := 0
    crcRx := 0 }

/-- `crc_calc` (R337). -/
def Work.crcCalc (c : CfgRegs) (k : Work) : BitVec 24 :=
  crc24 ((bytesOf k.w).take (2 + k.payloadLen)) c.crcInit

/-- `crc_rx` (R337). -/
def Work.crcReceived (k : Work) : BitVec 24 :=
  crcOfBytes (k.byte (2 + k.payloadLen)) (k.byte (3 + k.payloadLen)) (k.byte (4 + k.payloadLen))

/-- The exit at S_CRC_CHECK: the payload, whatever the verdict (R337). -/
def exitFull (c : CfgRegs) (k : Work) : DemodExit :=
  let valid := decide (Work.crcCalc c k = k.crcReceived)
  { flags :=
      { success := valid, crcValid := valid, syncFound := true, hdrValid := true,
        exitStage := .crcCheck }
    syncPos := k.pos
    aa := receivedAa c.phycfg k.bits k.pos
    hdr0 := k.byte 0
    hdr1 := k.byte 1
    pdu := ((bytesOf k.w).drop 2).take k.payloadLen
    crc := Work.crcCalc c k
    crcRx := k.crcReceived }

/-- Fewer bits after the pattern than a header has (R333). -/
def Work.isShort (k : Work) : Bool := decide (k.w.length < 16)

/-- Fewer bytes than the header announces (R333). -/
def Work.isTruncated (k : Work) : Bool :=
  decide ((bytesOf k.w).length < 2 + k.payloadLen + 3)

/-- The result registers an exit writes; `RES_COEF_LEN` is not among them (R340). Free values `n` and
`n + 1` stand by for a NaN. -/
def exitResults (c : CfgRegs) (k : Work) (e : DemodExit) (n : Nat) (old : Results) : Results :=
  { flags := e.flags
    timing := BitVec.ofNat 32 k.pstar
    syncPos := BitVec.ofNat 32 e.syncPos
    aa := e.aa
    hdr0 := e.hdr0
    hdr1 := e.hdr1
    pduLen := BitVec.ofNat 32 e.pdu.length
    nbits := BitVec.ofNat 32 k.bits.length
    crc := e.crc
    crcRx := e.crcRx
    sps := BitVec.ofNat 32 c.sps
    coefLen := old.coefLen
    rssi := storedF64 n k.rssi
    freq := storedF64 (n + 1) k.fhat }

/-- `results(e)` and `complete(OK)` (R340). -/
def demodExit (s : State) (k : Work) (e : DemodExit) : State :=
  State.complete
    { s with
      mem := s.mem.writeBytes Config.pduOutBase e.pdu
      res := exitResults s.cfg k e s.draws s.res
      draws := s.draws + 2 } .ok

/-! ## DEMODULATE (43_demodulator.md R310, R311) -/

/-- The start of DEMODULATE: its checks, the reading of its samples, and S_START (R310, R312). -/
def demodStart (s : State) : Host.Outcome State Fault Refusal :=
  s.guarded (demodulateCheck s.cfg) <|
    withRead .demodulate
      (s.mem.readBytes (Config.iqBase + 16 * s.cfg.iqOff.toNat) (16 * s.cfg.iqNsamp.toNat))
      fun bytes => .next (s.advance (startWork (samplesOf bytes)) .freqSync)

/-- S_PACKET_SYNC (R330, R331). -/
def demodPacketSync (s : State) : State :=
  match findSync s.work.bits (syncPattern s.cfg.accessAddr s.cfg.phycfg) with
  | none => demodExit s s.work exitNoSync
  | some pos => s.advance { s.work with pos := pos } .dewhiten

/-- S_PARSE (R333). -/
def demodParse (s : State) : State :=
  if s.work.isShort then demodExit s s.work (exitShort s.cfg s.work)
  else if s.work.isTruncated then demodExit s s.work (exitTruncated s.cfg s.work)
  else s.advance s.work .crcCheck

/-- The stage DEMODULATE is in, from its beginning to the next stage or to completion (R310). -/
def demodStage (s : State) : Host.Outcome State Fault Refusal :=
  match s.status.stage with
  | .freqSync => .next (s.advance (freqSyncWork s.cfg s.work) .demod)
  | .demod => .next (s.advance (demodWork s.work) .filter)
  | .filter => .next (s.advance (filterWork s.cfg s.work) .timingSync)
  | .timingSync => .next (s.advance (timingWork s.cfg s.work) .bitDecision)
  | .bitDecision =>
    let k := decisionWork s.work
    .next (State.advance
      { s with mem := s.mem.writeBits Config.rxbitBase 0 (paddedBits k.bits) } k .packetSync)
  | .packetSync => .next (demodPacketSync s)
  | .dewhiten => .next (s.advance (dewhitenWork s.cfg s.work) .parse)
  | .parse => .next (demodParse s)
  | .crcCheck => .next (demodExit s s.work (exitFull s.cfg s.work))
  | .start | .idle | .done | .exec => demodStart s

/-- The remaining stages of DEMODULATE, at most `n` of them, up to its completion. -/
def demodRun : Nat → State → Host.Outcome State Fault Refusal
  | 0, s => .next s
  | n + 1, s =>
    match demodStage s with
    | .next t => if t.running.isSome then demodRun n t else .next t
    | .fault f => .fault f
    | .refused r => .refused r

/-- DEMODULATE (43_demodulator.md R310): from the stage it is in to completion, ten stages at
most. -/
def execDemodulate (s : State) : Host.Outcome State Fault Refusal := demodRun 10 s

/-! ## The whole pipeline as one function of the snapshot and the samples (43_demodulator.md R310) -/

/-- What the stages up to S_BIT_DECISION compute. -/
def frontEnd (c : CfgRegs) (x : List Cx) : Work :=
  decisionWork (timingWork c (filterWork c (demodWork (freqSyncWork c (startWork x)))))

/-- The exit taken after a sync hit, and the working state there (R333 to R337). -/
def backEnd (c : CfgRegs) (k : Work) : Work × DemodExit :=
  let k := dewhitenWork c k
  if k.isShort then (k, exitShort c k)
  else if k.isTruncated then (k, exitTruncated c k)
  else (k, exitFull c k)

/-- The working state and the exit of a DEMODULATE of the samples `x`. -/
def pipeline (c : CfgRegs) (x : List Cx) : Work × DemodExit :=
  let k := frontEnd c x
  match findSync k.bits (syncPattern c.accessAddr c.phycfg) with
  | none => (k, exitNoSync)
  | some pos => backEnd c { k with pos := pos }

/-! ## AA_DETECT (43_demodulator.md R345) -/

/-- The result registers AA_DETECT writes for the examined bits `c`. -/
def aaResults (cfg : CfgRegs) (c : List Bool) (old : Results) : Results :=
  let hit := findSync c (syncPattern cfg.accessAddr cfg.phycfg)
  { old with
    flags :=
      { success := false, crcValid := false, syncFound := hit.isSome, hdrValid := false,
        exitStage := .packetSync }
    syncPos := BitVec.ofNat 32 (hit.getD 0)
    aa := match hit with
      | some pos => receivedAa cfg.phycfg c pos
      | none => 0 }

/-- AA_DETECT (43_demodulator.md R345). -/
def execAaDetect (s : State) : Host.Outcome State Fault Refusal :=
  s.guarded (aaDetectCheck s.cfg) <|
    withRead .aaDetect (s.mem.readBits Config.txbitBase s.cfg.opOff.toNat s.cfg.opLen.toNat) fun c =>
      .next (State.complete { s with res := aaResults s.cfg c s.res } .ok)

end Sys2Proof.Machine
end

