-- ==== Sys2Proof/Machine/Modulator.lean ====
section
/-! DEFINITION. The GFSK modulator (42_modulator.md) and MODULATE (R287). -/

namespace Sys2Proof.Machine

/-- `nrz(b) = 2·b − 1` as a binary64 value (42_modulator.md R281). -/
def nrzF64 (b : Bool) : F64 := if b then f1 else fneg f1

/-- Zero insertion: each symbol followed by `sps − 1` zeros (42_modulator.md R282). -/
def upsample (sps : Nat) (bits : List Bool) : List F64 :=
  bits.flatMap fun b => nrzF64 b :: List.replicate (sps - 1) f0

/-- `cumsum(s)` from a running sum: the phase accumulator after each sample (42_modulator.md
R284). -/
def cumsumFrom : F64 → List F64 → List F64
  | _, [] => []
  | acc, v :: l => fadd acc v :: cumsumFrom (fadd acc v) l

/-- `ψ[n] = (h·π)·acc[n] + (((2·π)·f_off)·n) / fs` (42_modulator.md R285). -/
def CfgRegs.phase (c : CfgRegs) (acc : F64) (n : Nat) : F64 :=
  fadd (fmul (fmul c.h fpi) acc) (fdiv (fmul (fmul ftwoPi c.fOff) (fofNat n)) c.fs)

/-- The waveform of a bit stream (42_modulator.md R281 to R286). -/
def CfgRegs.modulated (c : CfgRegs) (bits : List Bool) : List Cx :=
  (cumsumFrom f0 (conv (upsample c.sps bits) c.pulse)).mapIdx fun n acc => expj (c.phase acc n)

/-- The body of MODULATE once its bits have been read (42_modulator.md R287). -/
def modulated (s : State) (bits : List Bool) : State :=
  let t := s.writeF64s (Config.iqBase + 16 * s.cfg.iqOff.toNat) (partsOf (s.cfg.modulated bits))
  { t with
    regs := { t.regs with iqNsamp := BitVec.ofNat 32 s.cfg.modulatedLen }
    res := { t.res with sps := BitVec.ofNat 32 s.cfg.sps } }

/-- MODULATE (42_modulator.md R287). -/
def execModulate (s : State) : Host.Outcome State Fault Refusal :=
  s.guarded (modulateCheck s.cfg) <|
    withRead .modulate (s.mem.readBits Config.txbitBase 0 s.cfg.txNbits.toNat) fun bits =>
      .next ((modulated s bits).complete .ok)

end Sys2Proof.Machine
end

