-- ==== Sys2Proof/Machine/Dispatch.lean ====
section
/-! DEFINITION. The meaning of every command (30_encoding.md R143, R144), one arm each. -/

namespace Sys2Proof.Machine

def exec (i : Instr) (s : State) : Host.Outcome State Fault Refusal :=
  match i with
  | .modulate => Sys2Proof.Machine.execModulate s
  | .demodulate => Sys2Proof.Machine.execDemodulate s
  | .whiten => Sys2Proof.Machine.execWhiten s
  | .crc24 => Sys2Proof.Machine.execCrc24 s
  | .assemble => Sys2Proof.Machine.execAssemble s
  | .aaDetect => Sys2Proof.Machine.execAaDetect s
  | .genPulse => Sys2Proof.Machine.execGenPulse s

end Sys2Proof.Machine
end

