-- ==== Sys2Proof/Machine/Flags.lean ====
section
/-! DEFINITION. The register views of the flag fields: `STATUS` (10_state.md R37), `PHYCFG` (R39) and
`RES_FLAGS` (R53) as words, the W1C bits, and the interrupt output (60_exceptions.md R410). -/

namespace Sys2Proof.Machine

/-- The encoding of `STAGE` (10_state.md R32). -/
def Stage.code : Stage → BitVec 4
  | .idle => 0
  | .start => 1
  | .freqSync => 2
  | .demod => 3
  | .filter => 4
  | .timingSync => 5
  | .bitDecision => 6
  | .packetSync => 7
  | .dewhiten => 8
  | .parse => 9
  | .crcCheck => 10
  | .done => 11
  | .exec => 12

/-- The number of an error code (60_exceptions.md R401). -/
def ErrCode.code : ErrCode → BitVec 4
  | .ok => 0
  | .illegalCmd => 1
  | .badPhy => 2
  | .badRate => 3
  | .badParam => 4
  | .badChannel => 5
  | .emptyInput => 6
  | .length => 7

/-- The word a read of `STATUS` returns (10_state.md R37): reserved bits 0. -/
def Status.toWord (s : Status) (busy : Bool) : Word :=
  s.lastOp ++ 0#4 ++ s.stage.code ++ 0#4 ++ s.errCode.code ++ 0#4
    ++ BitVec.ofBool s.cmdOvr ++ BitVec.ofBool s.err ++ BitVec.ofBool s.done ++ BitVec.ofBool busy

/-- A host write of `w` to `STATUS`: bits 1, 2 and 3 are cleared where `w` has a 1, nothing else
changes (10_state.md R37). This is also how a completion is acknowledged (60_exceptions.md R411). -/
def Status.w1c (s : Status) (w : Word) : Status :=
  { s with
    done := s.done && !w.getLsbD 1
    err := s.err && !w.getLsbD 2
    cmdOvr := s.cmdOvr && !w.getLsbD 3 }

/-- The word a read of `PHYCFG` returns (10_state.md R39): reserved bits 0. -/
def PhyCfg.toWord (p : PhyCfg) : Word :=
  0#13 ++ BitVec.ofBool p.trackEn ++ BitVec.ofBool p.mfEn ++ BitVec.ofBool p.whitenEn ++ 0#2
    ++ p.channel ++ 0#6 ++ p.phyMode

/-- The fields a host write of `w` to `PHYCFG` stores (10_state.md R35, R39). -/
def PhyCfg.ofWord (w : Word) : PhyCfg :=
  { phyMode := w.extractLsb' 0 2
    channel := w.extractLsb' 8 6
    whitenEn := w.getLsbD 16
    mfEn := w.getLsbD 17
    trackEn := w.getLsbD 18 }

/-- The word a read of `RES_FLAGS` returns (10_state.md R53): reserved bits 0. -/
def ResFlags.toWord (f : ResFlags) : Word :=
  0#20 ++ f.exitStage.code ++ 0#4 ++ BitVec.ofBool f.hdrValid ++ BitVec.ofBool f.syncFound
    ++ BitVec.ofBool f.crcValid ++ BitVec.ofBool f.success

/-- `STATUS.BUSY` (10_state.md R37): 1 from acceptance to completion. -/
def State.busy (s : State) : Bool := s.running.isSome

/-- The interrupt output: `irq = CTRL.IRQ_EN & STATUS.DONE` (60_exceptions.md R410). -/
def State.irq (s : State) : Bool := s.irqEn && s.status.done

end Sys2Proof.Machine
end

