-- ==== Sys2Proof/Machine/HostPort.lean ====
section
/-! DEFINITION. The host port: the address map (20_memory.md R104), admitted accesses (R110), the
register map (10_state.md R34 to R36), the footprints of a running command
(70_reset_and_hazards.md R461), and what a host read and a host write do (20_memory.md R112, R120,
R122; 10_state.md R62; 70_reset_and_hazards.md R462, R463; 60_exceptions.md R407). -/

namespace Sys2Proof.Machine

/-! ## The address map (20_memory.md R104) and admitted accesses (R110) -/

/-- The buffer windows: first address and size in bytes. -/
def bufferWindows : List (Nat × Nat) :=
  [ (Config.pduInBase, Config.pduInCap)
  , (Config.pduOutBase, Config.pduOutCap)
  , (Config.coefBase, 8 * Config.coefCap)
  , (Config.txbitBase, Config.txbitCap / 8)
  , (Config.rxbitBase, Config.rxbitCap / 8)
  , (Config.iqBase, 16 * Config.iqCap) ]

/-- The `n` bytes from `a` on lie in one buffer window. -/
def inBuffer (a n : Nat) : Bool :=
  bufferWindows.any fun w => decide (w.1 ≤ a) && decide (a + n ≤ w.1 + w.2)

/-- The address lies in the register window. -/
def inRegWindow (a : Nat) : Bool := decide (a < 0x100)

/-- The number of bytes of an access (20_memory.md R110). -/
def Width.bytes : Width → Nat
  | .w8 => 1
  | .w16 => 2
  | .w32 => 4
  | .w64 => 8

/-- An access that is no bus error (20_memory.md R110): 4 bytes at a multiple of 4 in the register
window; 1, 2, 4 or 8 naturally aligned bytes inside a buffer. -/
def admitted (a : Nat) (w : Width) : Bool :=
  if inRegWindow a then decide (w = .w32) && decide (a % 4 = 0)
  else decide (a % Width.bytes w = 0) && inBuffer a (Width.bytes w)

/-! ## The register map (10_state.md R34) -/

/-- The offset of a register. -/
def Reg.offset : Reg → Nat
  | .cmd => 0x000
  | .status => 0x004
  | .ctrl => 0x008
  | .phycfg => 0x00C
  | .sampleRate => 0x010
  | .modIndex => 0x014
  | .bt => 0x018
  | .span => 0x01C
  | .accessAddr => 0x020
  | .crcInit => 0x024
  | .txFoff => 0x028
  | .txNbits => 0x02C
  | .iqNsamp => 0x030
  | .iqOff => 0x034
  | .opOff => 0x038
  | .opLen => 0x03C
  | .crcNbytes => 0x040
  | .resFlags => 0x080
  | .resTiming => 0x084
  | .resSyncPos => 0x088
  | .resAa => 0x08C
  | .resHdr => 0x090
  | .resPduLen => 0x094
  | .resNbits => 0x098
  | .resCrc => 0x09C
  | .resCrcRx => 0x0A0
  | .resSps => 0x0A4
  | .resCoefLen => 0x0A8
  | .resRssiLo => 0x0B0
  | .resRssiHi => 0x0B4
  | .resFreqLo => 0x0B8
  | .resFreqHi => 0x0BC

/-- Every register, in the order of the map. -/
def allRegs : List Reg :=
  [ .cmd, .status, .ctrl, .phycfg, .sampleRate, .modIndex, .bt, .span, .accessAddr, .crcInit
  , .txFoff, .txNbits, .iqNsamp, .iqOff, .opOff, .opLen, .crcNbytes
  , .resFlags, .resTiming, .resSyncPos, .resAa, .resHdr, .resPduLen, .resNbits, .resCrc, .resCrcRx
  , .resSps, .resCoefLen, .resRssiLo, .resRssiHi, .resFreqLo, .resFreqHi ]

/-- The register at an offset; none at a reserved offset (10_state.md R35). -/
def regAt (off : Nat) : Option Reg := allRegs.find? fun r => decide (Reg.offset r = off)

/-- The value a host read of a register finds there (10_state.md R34 to R55): reserved bits 0, `CMD`
reads 0 (R35, R36). -/
def State.reg (s : State) : Reg → Word
  | .cmd => 0
  | .status => s.status.toWord s.busy
  | .ctrl => (BitVec.ofBool s.irqEn).setWidth 32
  | .phycfg => s.regs.phycfg.toWord
  | .sampleRate => s.regs.sampleRate
  | .modIndex => s.regs.modIndex
  | .bt => s.regs.bt
  | .span => s.regs.span.setWidth 32
  | .accessAddr => s.regs.accessAddr
  | .crcInit => s.regs.crcInit.setWidth 32
  | .txFoff => s.regs.txFoff
  | .txNbits => s.regs.txNbits
  | .iqNsamp => s.regs.iqNsamp
  | .iqOff => s.regs.iqOff
  | .opOff => s.regs.opOff
  | .opLen => s.regs.opLen
  | .crcNbytes => s.regs.crcNbytes
  | .resFlags => s.res.flags.toWord
  | .resTiming => s.res.timing
  | .resSyncPos => s.res.syncPos
  | .resAa => s.res.aa
  | .resHdr => (s.res.hdr1 ++ s.res.hdr0).setWidth 32
  | .resPduLen => s.res.pduLen
  | .resNbits => s.res.nbits
  | .resCrc => s.res.crc.setWidth 32
  | .resCrcRx => s.res.crcRx.setWidth 32
  | .resSps => s.res.sps
  | .resCoefLen => s.res.coefLen
  | .resRssiLo => s.res.rssi.extractLsb' 0 32
  | .resRssiHi => s.res.rssi.extractLsb' 32 32
  | .resFreqLo => s.res.freq.extractLsb' 0 32
  | .resFreqHi => s.res.freq.extractLsb' 32 32

/-- What a host write of `w` to a register does (10_state.md R34 to R50): a write to a read-only
register or field is ignored (R35). -/
def State.setReg (s : State) (r : Reg) (w : Word) : State :=
  match r with
  | .cmd => s.request w
  | .status => { s with status := s.status.w1c w }
  | .ctrl => { s with irqEn := w.getLsbD 0 }
  | .phycfg => { s with regs := { s.regs with phycfg := PhyCfg.ofWord w } }
  | .sampleRate => { s with regs := { s.regs with sampleRate := w } }
  | .modIndex => { s with regs := { s.regs with modIndex := w } }
  | .bt => { s with regs := { s.regs with bt := w } }
  | .span => { s with regs := { s.regs with span := w.extractLsb' 0 8 } }
  | .accessAddr => { s with regs := { s.regs with accessAddr := w } }
  | .crcInit => { s with regs := { s.regs with crcInit := w.extractLsb' 0 24 } }
  | .txFoff => { s with regs := { s.regs with txFoff := w } }
  | .txNbits => { s with regs := { s.regs with txNbits := w } }
  | .iqNsamp => { s with regs := { s.regs with iqNsamp := w } }
  | .iqOff => { s with regs := { s.regs with iqOff := w } }
  | .opOff => { s with regs := { s.regs with opOff := w } }
  | .opLen => { s with regs := { s.regs with opLen := w } }
  | .crcNbytes => { s with regs := { s.regs with crcNbytes := w } }
  | .resFlags | .resTiming | .resSyncPos | .resAa | .resHdr | .resPduLen | .resNbits | .resCrc
  | .resCrcRx | .resSps | .resCoefLen | .resRssiLo | .resRssiHi | .resFreqLo | .resFreqHi => s

/-! ## Footprints (70_reset_and_hazards.md R461) -/

/-- `count` bits from bit `first` on of the buffer at `base`. -/
structure BitSpan where
  base : Nat
  first : Nat
  count : Nat
deriving DecidableEq, Repr

/-- The span holds bit `k` of the byte at `a`. -/
def BitSpan.covers (sp : BitSpan) (a k : Nat) : Bool :=
  decide (sp.base ≤ a) && decide (sp.first ≤ 8 * (a - sp.base) + k)
    && decide (8 * (a - sp.base) + k < sp.first + sp.count)

/-- The bits of the byte at `a` that one of the spans holds. -/
def spansMask (l : List BitSpan) (a : Nat) : Byte :=
  BitVec.ofNat 8 (natOfBits ((List.range 8).map fun k => l.any fun sp => sp.covers a k))

/-- The code a command completes with, from its checks; for ASSEMBLE with the byte `PDU_IN[1]` as it
stands in memory (30_encoding.md R147; log 23). -/
def checkOf (i : Instr) (c : CfgRegs) (m : Memory) : ErrCode :=
  match i with
  | .modulate => modulateCheck c
  | .demodulate => demodulateCheck c
  | .whiten => whitenCheck c
  | .crc24 => crc24Check c
  | .assemble =>
    if assembleCheck c = .ok then assembleLenCheck c (m.byte (Config.pduInBase + 1))
    else assembleCheck c
  | .aaDetect => aaDetectCheck c
  | .genPulse => genPulseCheck c

/-- The number `K` of symbols DEMODULATE decides (43_demodulator.md R322, R324). -/
def CfgRegs.symbolCount (c : CfgRegs) : Nat :=
  let m := c.iqNsamp.toNat
  let filterLen := if c.phycfg.mfEn then c.pulseLen else c.sps
  (if m ≤ 1 then 0 else (m - 1) + filterLen - 1) / c.sps

/-- The number of bytes DEMODULATE writes to `PDU_OUT`: it follows from the samples, which no host
write can change while it runs (43_demodulator.md R340; log 26). -/
def demodPduLen (c : CfgRegs) (m : Memory) : Nat :=
  match m.readBytes (Config.iqBase + 16 * c.iqOff.toNat) (16 * c.iqNsamp.toNat) with
  | .ok bytes => (pipeline c (samplesOf bytes)).2.pdu.length
  | .error _ => 0

/-- The input footprint of a command that passes its checks. -/
def inputSpans (i : Instr) (c : CfgRegs) (m : Memory) : List BitSpan :=
  match i with
  | .modulate => [⟨Config.txbitBase, 0, c.txNbits.toNat⟩]
  | .demodulate => [⟨Config.iqBase, 128 * c.iqOff.toNat, 128 * c.iqNsamp.toNat⟩]
  | .whiten => [⟨Config.txbitBase, c.opOff.toNat, c.opLen.toNat⟩]
  | .crc24 => [⟨Config.pduInBase, 0, 8 * c.crcNbytes.toNat⟩]
  | .assemble => [⟨Config.pduInBase, 0, 8 * (2 + (m.byte (Config.pduInBase + 1)).toNat)⟩]
  | .aaDetect => [⟨Config.txbitBase, c.opOff.toNat, c.opLen.toNat⟩]
  | .genPulse => []

/-- The buffer part of the output footprint of a command that passes its checks. -/
def outputSpans (i : Instr) (c : CfgRegs) (m : Memory) : List BitSpan :=
  match i with
  | .modulate => [⟨Config.iqBase, 128 * c.iqOff.toNat, 128 * c.modulatedLen⟩]
  | .demodulate =>
    [ ⟨Config.rxbitBase, 0, 8 * ((c.symbolCount + 7) / 8)⟩
    , ⟨Config.pduOutBase, 0, 8 * demodPduLen c m⟩ ]
  | .whiten => [⟨Config.txbitBase, c.opOff.toNat, c.opLen.toNat⟩]
  | .crc24 => []
  | .assemble => [⟨Config.txbitBase, 0, c.streamLen (m.byte (Config.pduInBase + 1))⟩]
  | .aaDetect => []
  | .genPulse => [⟨Config.coefBase, 0, 64 * c.pulseLen⟩]

/-- The register part of the output footprint of a command that passes its checks. -/
def outputRegs : Instr → List Reg
  | .modulate => [.iqNsamp, .resSps]
  | .demodulate =>
    [ .resFlags, .resTiming, .resSyncPos, .resAa, .resHdr, .resPduLen, .resNbits, .resCrc
    , .resCrcRx, .resSps, .resRssiLo, .resRssiHi, .resFreqLo, .resFreqHi ]
  | .whiten => []
  | .crc24 => [.resCrc]
  | .assemble => [.txNbits, .resCrc]
  | .aaDetect => [.resFlags, .resSyncPos, .resAa]
  | .genPulse => [.resCoefLen, .resSps]

/-- The running command whose footprint counts: one that will not be refused
(70_reset_and_hazards.md R461, last row). -/
def State.activeInstr (s : State) : Option Instr :=
  match s.running with
  | none => none
  | some r =>
    match (decode r.word).instr? with
    | none => none
    | some i => if checkOf i r.cfg s.mem = .ok then some i else none

/-- The bits of the byte at `a` in the running command's output footprint. -/
def State.outputMask (s : State) (a : Nat) : Byte :=
  match s.activeInstr with
  | none => 0
  | some i => spansMask (outputSpans i s.cfg s.mem) a

/-- The bits of the byte at `a` in the running command's input footprint. -/
def State.inputMask (s : State) (a : Nat) : Byte :=
  match s.activeInstr with
  | none => 0
  | some i => spansMask (inputSpans i s.cfg s.mem) a

/-- Whether a register is in the running command's output footprint. -/
def State.outputReg (s : State) (r : Reg) : Bool :=
  match s.activeInstr with
  | none => false
  | some i => (outputRegs i).contains r

/-! ## Host reads -/

/-- The byte a host read finds at `a`: bits in the running command's output footprint
(20_memory.md R122, 70_reset_and_hazards.md R463) and bits not written since reset
(10_state.md R62) are those of free byte `k`. -/
def State.hostByte (s : State) (k a : Nat) : Byte :=
  let free := s.outputMask a ||| ~~~(s.mem.mask a)
  (s.mem.byte a &&& ~~~free) ||| (Config.freeByte k &&& free)

/-- The word a host read of a register returns: free word `k` if the register is in the running
command's output footprint (70_reset_and_hazards.md R463). -/
def State.hostReg (s : State) (k : Nat) (off : Nat) : Word :=
  match regAt off with
  | none => 0
  | some r => if s.outputReg r then Config.freeWord k else s.reg r

/-- The answer to an access that is not admitted (20_memory.md R110, 60_exceptions.md R407). -/
def busError : Response := { busError := true, data := 0 }

/-- The data of an admitted read (20_memory.md R101): a register, or the bytes of a buffer, least
significant first. -/
def State.readData (s : State) (a : Nat) (w : Width) : DWord :=
  if inRegWindow a then (s.hostReg s.draws a).setWidth 64
  else
    dwordOfBytes ((List.range (Width.bytes w)).map fun j => s.hostByte (s.draws + j) (a + j))

/-- A host read (20_memory.md R112): it changes nothing but the answer and the count of free
values. -/
def State.hostRead (s : State) (a : Nat) (w : Width) : State :=
  if admitted a w then
    { s with
      response := some { busError := false, data := s.readData a w }
      draws := s.draws + Width.bytes w }
  else { s with response := some busError }

/-! ## Host writes -/

/-- The answer to an admitted write. -/
def writeDone : Response := { busError := false, data := 0 }

/-- The first byte of `[a, a + n)` in the footprint of the running command
(70_reset_and_hazards.md R462: a footprint given in bits covers every byte holding one of them). -/
def State.footprintHit (s : State) (a n : Nat) : Option Nat :=
  ((List.range n).map (a + ·)).find? fun b =>
    decide (s.inputMask b ≠ 0) || decide (s.outputMask b ≠ 0)

/-- The running command, for the name of a fault. -/
def State.faultInstr (s : State) : Instr := s.activeInstr.getD .modulate

/-- An admitted host write to the register window (10_state.md R34, R35; 70_reset_and_hazards.md
R462; log 7). -/
def State.writeRegAt (s : State) (off : Nat) (w : Word) : Host.Outcome State Fault Refusal :=
  match regAt off with
  | none => .next { s with response := some writeDone }
  | some r =>
    if s.outputReg r then .fault (.footprintWrite s.faultInstr off)
    else .next { s.setReg r w with response := some writeDone }

/-- The low bytes of the data of a write (20_memory.md R101, 30_encoding.md R149). -/
def writeBytesOf (w : Width) (data : DWord) : List Byte := (bytesOfDWord data).take (Width.bytes w)

/-- An admitted host write to a buffer (20_memory.md R112, 10_state.md R62, 70_reset_and_hazards.md
R462). -/
def State.writeBufferAt (s : State) (a : Nat) (w : Width) (data : DWord) :
    Host.Outcome State Fault Refusal :=
  match s.footprintHit a (Width.bytes w) with
  | some b => .fault (.footprintWrite s.faultInstr b)
  | none =>
    .next
      { s with
        mem := s.mem.writeBytes a (writeBytesOf w data)
        response := some writeDone }

/-- A host write (20_memory.md R110, R112, R120). -/
def State.hostWrite (s : State) (a : Nat) (w : Width) (data : DWord) :
    Host.Outcome State Fault Refusal :=
  if admitted a w then
    if inRegWindow a then s.writeRegAt a (data.setWidth 32) else s.writeBufferAt a w data
  else .next { s with response := some busError }

/-- One access of the host on the port. -/
def State.access (s : State) (h : HostAccess) : Host.Outcome State Fault Refusal :=
  match h with
  | .read a w => .next (s.hostRead a.toNat w)
  | .write a w d => s.hostWrite a.toNat w d

end Sys2Proof.Machine
end

