-- ==== Sys2Proof/Machine/Control.lean ====
section
/-! DEFINITION. How the core moves: the accepted command word is fetched, decoded and run
(30_encoding.md R144), to completion or one stage at a time (10_state.md R33); and what each input
does. -/

namespace Sys2Proof.Machine

/-- The accepted command word, which the core fetches and decodes (20_memory.md R125). -/
def State.fetch (s : State) : Option Word := s.running.map Running.word

/-- The core runs the accepted command to completion; with none it waits (10_state.md R51,
70_reset_and_hazards.md R451, R470). -/
def coreRun (s : State) : Host.Outcome State Fault Refusal :=
  match s.fetch with
  | none => .next s
  | some w =>
    match decode w with
    | .instr i => exec i s
    | .illegal _ => .next (s.refuse .illegalCmd)

/-- One stage of a command: DEMODULATE has ten, every other command one, S_EXEC (10_state.md
R32, R33). -/
def stageOf (i : Instr) (s : State) : Host.Outcome State Fault Refusal :=
  match i with
  | .demodulate => demodStage s
  | .modulate | .whiten | .crc24 | .assemble | .aaDetect | .genPulse => exec i s

/-- The core runs the stage it is in to its end; with no command it waits. -/
def coreStage (s : State) : Host.Outcome State Fault Refusal :=
  match s.fetch with
  | none => .next s
  | some w =>
    match decode w with
    | .instr i => stageOf i s
    | .illegal _ => .next (s.refuse .illegalCmd)

/-- What one input does (log 3). -/
def State.input (s : State) (i : Input) : Host.Outcome State Fault Refusal :=
  match i with
  | .access h => s.access h
  | .stage => coreStage s
  | .run => coreRun s
  | .reset => .next s.applyReset

end Sys2Proof.Machine
end

