-- ==== Sys2Proof/Machine/Step.lean ====
section
/-! DEFINITION. One step of the machine: the next input takes effect; when there is none the core
runs (log 3). And the placing of a command word where the next step fetches it. -/

namespace Sys2Proof.Machine

/-- One step: the first input is taken off the list and takes effect; with an empty list the host
stays silent and the core runs to completion. -/
def step (s : State) : Host.Outcome State Fault Refusal :=
  match s.inputs with
  | [] => coreRun s
  | i :: rest => { s with inputs := rest }.input i

/-- `s` with the command word of `nbits` bits and value `w` accepted (10_state.md R51) and the core
about to run it, so that the very next step fetches and runs exactly it (log 2). -/
def State.withFetchWord (s : State) (nbits w : Nat) : State :=
  { s.accept (BitVec.ofNat 32 (w % 2 ^ nbits)) with inputs := .run :: s.inputs }

end Sys2Proof.Machine
end

