-- ==== Sys2Proof/Machine/HostProgram.lean ====
section
/-! DEFINITION. The host's side: the expansion of host-program statements into host accesses
(30_encoding.md R149 to R151), their running against the block, and the packet scan `findPackets`
(60_exceptions.md R440 to R443). Nothing here is state of the block (10_state.md R30, R443). -/

namespace Sys2Proof.Machine

/-! ## Expansion (30_encoding.md R150) -/

/-- The address of a register as a host program names it (30_encoding.md R149). -/
def regAddr (r : Reg) : Addr := BitVec.ofNat 21 (Reg.offset r)

/-- Byte writes at `a`, `a + 1`, ... (30_encoding.md R150). The spec does not say what `a + k` is past
0x1FFFFF; that it wraps modulo 2^21, the width of an address (20_memory.md R100), is a DESIGN CHOICE,
unsafe (log 29). -/
def byteWrites (a : Addr) (l : List Byte) : List HostAccess :=
  l.mapIdx fun i b => .write (a + BitVec.ofNat 21 i) .w8 (b.setWidth 64)

/-- `enc64(r)` of the rational `(-1)^neg · num / den` (30_encoding.md R150). The real 0 has two
encodings and the rule chooses neither; that it is −0 if `neg` is set and +0 if not is a DESIGN CHOICE,
unsafe (log 30). -/
def enc64 (neg : Bool) (num den : Nat) : F64 := fround neg num den 0

/-- The host accesses of a statement without a loop, and those before the loop of `run`
(30_encoding.md R149, R150). -/
def Stmt.accesses : Stmt → List HostAccess
  | .wr w a d => [.write a w d]
  | .rd w a _ => [.read a w]
  | .cmd i => [.write (regAddr .cmd) .w32 ((encode i).setWidth 64)]
  | .wait => []
  | .run i => [.write (regAddr .cmd) .w32 ((encode i).setWidth 64)]
  | .clr => [.write (regAddr .status) .w32 0x0000000E]
  | .wrf64 a neg num den => [.write a .w64 (enc64 neg num den)]
  | .wrbytes a l => byteWrites a l
  | .fill a n v => byteWrites a (List.replicate n v)
  | .wrbits a l => byteWrites a (bytesOf (paddedBits l))

/-- The statement ends with a `wait` loop. -/
def Stmt.waits : Stmt → Bool
  | .wait => true
  | .run _ => true
  | .wr _ _ _ | .rd _ _ _ | .cmd _ | .clr | .wrf64 _ _ _ _ | .wrbytes _ _ | .fill _ _ _
  | .wrbits _ _ => false

/-! ## Running a host program -/

/-- How a host program ends. -/
inductive HostOutcome (α : Type) where
  /-- it ran to its end -/
  | done (s : State) (v : α)
  /-- the block stopped with a model fault -/
  | fault (r : Fault)
  /-- the block stopped with a refusal -/
  | refused (r : Refusal)
  /-- it is still polling or scanning when the allowed number of rounds is used up -/
  | unfinished (s : State)
deriving Repr

/-- The data of the last answer of the port. -/
def State.lastData (s : State) : DWord :=
  match s.response with
  | some r => r.data
  | none => 0

/-- Host accesses one after the other. What the host does with a bus error is its own business
(60_exceptions.md R407, 93_implementation_defined.md U10); that it takes the answer as it is and goes on
to the next access is a DESIGN CHOICE, unsafe (log 31). -/
def runAccesses : List HostAccess → State → Host.Outcome State Fault Refusal
  | [], s => .next s
  | h :: l, s =>
    match s.access h with
    | .next t => runAccesses l t
    | .fault r => .fault r
    | .refused r => .refused r

/-- The `wait` loop (30_encoding.md R150): `rd32 STATUS` until `DONE` is set, at most `n` times. Between
two polls the core finishes one stage, which is one of the paces the spec allows (log 24). -/
def runWait : Nat → State → HostOutcome Unit
  | 0, s => .unfinished s
  | n + 1, s =>
    let t := s.hostRead (Reg.offset .status) .w32
    if t.lastData.getLsbD 1 then .done t ()
    else
      match coreStage t with
      | .next u => runWait n u
      | .fault r => .fault r
      | .refused r => .refused r

/-- The value a statement names, if it does. -/
def Stmt.named (s : State) : Stmt → List (String × DWord)
  | .rd _ _ (some name) => [(name, s.lastData)]
  | .rd _ _ none => []
  | .wr _ _ _ | .cmd _ | .wait | .run _ | .clr | .wrf64 _ _ _ _ | .wrbytes _ _ | .fill _ _ _
  | .wrbits _ _ => []

/-- One statement, with at most `n` polls in its `wait` loop. -/
def runStmt (n : Nat) (st : Stmt) (s : State) : HostOutcome (List (String × DWord)) :=
  match runAccesses (Stmt.accesses st) s with
  | .fault r => .fault r
  | .refused r => .refused r
  | .next t =>
    if Stmt.waits st then
      match runWait n t with
      | .done u _ => .done u []
      | .fault r => .fault r
      | .refused r => .refused r
      | .unfinished u => .unfinished u
    else .done t (Stmt.named t st)

/-- A host program (30_encoding.md R149): its statements in order, with the values they name. -/
def runProgram (n : Nat) : List Stmt → State → HostOutcome (List (String × DWord))
  | [], s => .done s []
  | st :: l, s =>
    match runStmt n st s with
    | .done t v =>
      match runProgram n l t with
      | .done u w => .done u (v ++ w)
      | .fault r => .fault r
      | .refused r => .refused r
      | .unfinished u => .unfinished u
    | .fault r => .fault r
    | .refused r => .refused r
    | .unfinished u => .unfinished u

/-! ## The packet scan (60_exceptions.md R440 to R442) -/

/-- One entry of `found` (60_exceptions.md R441). -/
structure Packet where
  off : Nat
  syncPos : Nat
  pdu : List Byte
  freq : DWord
  rssi : DWord
deriving DecidableEq, Repr

/-- Successive host reads, with their data. -/
def readAll : List (Nat × Width) → State → State × List DWord
  | [], s => (s, [])
  | (a, w) :: l, s =>
    let t := s.hostRead a w
    let r := readAll l t
    (r.1, t.lastData :: r.2)

/-- What the scan reads after a successful DEMODULATE at window offset `off` (60_exceptions.md R441). -/
def readPacket (off : Nat) (s : State) : State × Packet :=
  let r := readAll
    [ (Reg.offset .resSyncPos, .w32), (Reg.offset .resPduLen, .w32)
    , (Reg.offset .resFreqLo, .w32), (Reg.offset .resFreqHi, .w32)
    , (Reg.offset .resRssiLo, .w32), (Reg.offset .resRssiHi, .w32) ] s
  let v := fun i => r.2.getD i 0
  let n := (v 1).toNat
  let q := readAll ((List.range n).map fun i => (Config.pduOutBase + i, .w8)) r.1
  (q.1,
    { off := off
      syncPos := (v 0).toNat
      pdu := q.2.map fun d => d.setWidth 8
      freq := v 2 ||| (v 3 <<< 32)
      rssi := v 4 ||| (v 5 <<< 32) })

/-- The statements of one round of the scan (60_exceptions.md R441). -/
def scanRound (base window n off : Nat) : List Stmt :=
  [ .wr .w32 (regAddr .iqOff) (BitVec.ofNat 64 (base + off))
  , .wr .w32 (regAddr .iqNsamp) (BitVec.ofNat 64 (min window (n - off)))
  , .run .demodulate
  , .rd .w32 (regAddr .resFlags) none ]

/-- The parameters of a scan (60_exceptions.md R441). -/
structure ScanParams where
  base : Nat
  n : Nat
  maxPackets : Nat
  sps : Nat
  window : Nat
  syncLen : Nat
deriving DecidableEq, Repr

/-- The loop of `findPackets`, at most `k` rounds (60_exceptions.md R441). -/
def scanLoop (p : ScanParams) :
    Nat → Nat → List Packet → State → HostOutcome (List Packet)
  | 0, off, found, s =>
    if found.length < p.maxPackets ∧ off < p.n then .unfinished s else .done s found
  | k + 1, off, found, s =>
    if found.length < p.maxPackets ∧ off < p.n then
      match runProgram 12 (scanRound p.base p.window p.n off) s with
      | .fault r => .fault r
      | .refused r => .refused r
      | .unfinished t => .unfinished t
      | .done t _ =>
        if t.lastData.getLsbD 0 then
          let r := readPacket off t
          scanLoop p k
            (off + (r.2.syncPos + p.syncLen + 8 * (5 + r.2.pdu.length)) * p.sps)
            (found ++ [r.2]) r.1
        else scanLoop p k (off + 8 * p.sps) found t
    else .done s found

/-- The parameters of a scan with the configuration registers as they stand (60_exceptions.md R441).
For `PHY_MODE` 2 and 3 the spec gives no `Rs` and no `Lp`, and the procedure has no PHY check; that the
scan takes those of `LE_2M` there is a DESIGN CHOICE, unsafe (log 28). -/
def scanParams (s : State) (base n maxPackets : Nat) : ScanParams :=
  { base := base
    n := n
    maxPackets := maxPackets
    sps := s.regs.sps
    window := roundHalfEven s.regs.sampleRate.toNat 2000
    syncLen := s.regs.phycfg.syncLen }

/-- `findPackets` on `n` samples in `IQ` from index `base` (60_exceptions.md R441). With `sps > 0` every
round advances by at least 8 samples (R442), so `n / 8 + 1` rounds are enough. With `sps = 0` the loop of
R441 does not advance, and R442, which says that it ends, does not settle the case; that the model stops
it after `n / 8 + 1` rounds too, as `unfinished` if it has not ended by itself, is a DESIGN CHOICE,
unsafe (log 32). -/
def findPackets (s : State) (base n maxPackets : Nat) : HostOutcome (List Packet) :=
  scanLoop (scanParams s base n maxPackets) (n / 8 + 1) 0 [] s

end Sys2Proof.Machine
end

