-- ==== Sys2Proof/Safety.lean ====
section
/-! DEFINITION. The terms the statements use: what a completed command leaves, which bits of memory a
write leaves alone, the check table of 30_encoding.md R147 read column by column, the values of
binary64 encodings, and the invariant that every step keeps. -/

namespace Sys2Proof.Machine

/-! ## Outcomes -/

/-- Applies a function to the next state of an outcome, if it has one. -/
def mapNext (f : State → State) :
    Host.Outcome State Fault Refusal → Host.Outcome State Fault Refusal
  | .next s => .next (f s)
  | .fault r => .fault r
  | .refused r => .refused r

/-- `t` is `s` after `complete(code)`, as far as `STATUS`, the running command and `CTRL` go
(10_state.md R56). -/
def Completed (s t : State) (code : ErrCode) : Prop :=
  t.status
      = { s.status with
          errCode := code
          err := decide (code ≠ .ok)
          stage := .done
          done := true }
    ∧ t.running = none ∧ t.irqEn = s.irqEn

/-- `t` is `s` after `refuse(code)`: nothing but `STATUS` and the running command has changed
(60_exceptions.md R404). -/
def Refused (s t : State) (code : ErrCode) : Prop :=
  Completed s t code ∧ t = { s with status := t.status, running := none }

/-- What a host access leaves unchanged when it only answers: everything but the model's own fields
`response` and `draws` (log 14, 17). -/
def OnlyAnswered (s t : State) : Prop :=
  t = { s with response := t.response, draws := t.draws }

/-! ## Memory frames -/

/-- Every bit of the address space that none of the spans holds reads as before, and is marked as
written or not as before. -/
def Memory.SameOutside (l : List BitSpan) (m m' : Memory) : Prop :=
  ∀ a k, k < 8 → (∀ sp ∈ l, sp.covers a k = false) →
    (m'.byte a).getLsbD k = (m.byte a).getLsbD k ∧ (m'.mask a).getLsbD k = (m.mask a).getLsbD k

/-- Every bit that one of the spans holds has been written since reset (10_state.md R62). -/
def Memory.Written (l : List BitSpan) (m : Memory) : Prop :=
  ∀ a k, k < 8 → ∀ sp ∈ l, sp.covers a k = true → (m.mask a).getLsbD k = true

/-- The binary64 value at a byte address (20_memory.md R101, R103). -/
def Memory.dword (m : Memory) (a : Nat) : DWord :=
  dwordOfBytes ((List.range 8).map fun k => m.byte (a + k))

/-- What `F64Write` of a computed value leaves: the value, or some NaN for a NaN
(20_memory.md R103, 93_implementation_defined.md U4). -/
def StoredAs (v stored : F64) : Prop :=
  if fisNaN v then fisNaN stored = true else stored = v

/-! ## The check table (30_encoding.md R147) -/

/-- Whether the check of a code applies to a command and fails: one row of the table per code. -/
def checkFails (i : Instr) (c : CfgRegs) (m : Memory) : ErrCode → Prop
  | .ok => False
  | .illegalCmd => False
  | .badPhy =>
    i ∈ [Instr.modulate, .demodulate, .assemble, .aaDetect, .genPulse] ∧ 2 ≤ c.phycfg.phyMode.toNat
  | .badRate =>
    i ∈ [Instr.modulate, .demodulate, .genPulse]
      ∧ roundHalfEven c.sampleRate.toNat c.phycfg.symbolRate = 0
  | .badParam =>
    (i ∈ [Instr.modulate, .genPulse] ∨ (i = .demodulate ∧ c.phycfg.mfEn = true))
        ∧ (c.span = 0 ∨ c.bt = 0
            ∨ 1024 < c.span.toNat * roundHalfEven c.sampleRate.toNat c.phycfg.symbolRate + 1)
      ∨ (i = .demodulate ∧ c.phycfg.mfEn = false)
        ∧ 1024 < roundHalfEven c.sampleRate.toNat c.phycfg.symbolRate
  | .badChannel =>
    (i = .whiten ∨ ((i = .assemble ∨ i = .demodulate) ∧ c.phycfg.whitenEn = true))
      ∧ 39 < c.phycfg.channel.toNat
  | .emptyInput => i = .modulate ∧ c.txNbits = 0
  | .length =>
    match i with
    | .modulate =>
      131072 < c.txNbits.toNat
        ∨ 65536 < c.iqOff.toNat
            + c.txNbits.toNat * roundHalfEven c.sampleRate.toNat c.phycfg.symbolRate
            + (c.span.toNat * roundHalfEven c.sampleRate.toNat c.phycfg.symbolRate + 1) - 1
    | .demodulate => 65536 < c.iqOff.toNat + c.iqNsamp.toNat
    | .whiten => 131072 < c.opOff.toNat + c.opLen.toNat
    | .crc24 => 1024 < c.crcNbytes.toNat
    | .assemble =>
      131072 < c.phycfg.preambleLen + 32 + 8 * (5 + (m.byte (Config.pduInBase + 1)).toNat)
    | .aaDetect => 131072 < c.opOff.toNat + c.opLen.toNat
    | .genPulse => False

/-! ## Registers -/

/-- The bits of a register that a host write stores (10_state.md R35, R38 to R50); none for the
registers that a write does not store to. -/
def storedMask : Reg → Word
  | .ctrl => 0x00000001
  | .phycfg => 0x00073F03
  | .span => 0x000000FF
  | .crcInit => 0x00FFFFFF
  | .sampleRate | .modIndex | .bt | .accessAddr | .txFoff | .txNbits | .iqNsamp | .iqOff | .opOff
  | .opLen | .crcNbytes => 0xFFFFFFFF
  | .cmd | .status | .resFlags | .resTiming | .resSyncPos | .resAa | .resHdr | .resPduLen
  | .resNbits | .resCrc | .resCrcRx | .resSps | .resCoefLen | .resRssiLo | .resRssiHi | .resFreqLo
  | .resFreqHi => 0

/-- The registers a host write stores to: `CTRL` and the configuration registers. -/
def Reg.stores : Reg → Bool
  | .ctrl | .phycfg | .sampleRate | .modIndex | .bt | .span | .accessAddr | .crcInit | .txFoff
  | .txNbits | .iqNsamp | .iqOff | .opOff | .opLen | .crcNbytes => true
  | .cmd | .status | .resFlags | .resTiming | .resSyncPos | .resAa | .resHdr | .resPduLen
  | .resNbits | .resCrc | .resCrcRx | .resSps | .resCoefLen | .resRssiLo | .resRssiHi | .resFreqLo
  | .resFreqHi => false

/-- The read-only registers (10_state.md R53 to R55). -/
def Reg.readOnly : Reg → Bool
  | .resFlags | .resTiming | .resSyncPos | .resAa | .resHdr | .resPduLen | .resNbits | .resCrc
  | .resCrcRx | .resSps | .resCoefLen | .resRssiLo | .resRssiHi | .resFreqLo | .resFreqHi => true
  | .cmd | .status | .ctrl | .phycfg | .sampleRate | .modIndex | .bt | .span | .accessAddr
  | .crcInit | .txFoff | .txNbits | .iqNsamp | .iqOff | .opOff | .opLen | .crcNbytes => false

/-! ## Bits, patterns, numbers -/

/-- `W(ch)[k]` (40_framing.md R202). -/
def whiteningBit (ch : BitVec 6) (k : Nat) : Bool := (whiteningSequence ch (k + 1)).getD k false

/-- The number of positions at which two bit sequences differ (43_demodulator.md R330). -/
def mismatches (c pattern : List Bool) : Nat :=
  ((List.zipWith (fun a b => a ^^ b) c pattern).filter id).length

/-- A header and payload as ASSEMBLE reads them: byte 1 announces how many bytes follow
(40_framing.md R225). -/
def IsPdu (pdu : List Byte) : Prop := pdu.length = 2 + (pdu.getD 1 0).toNat

/-- The real number `m · 2^e`, which is rational. -/
def scaled (m : Nat) (e : Int) : ℚ := (m : ℚ) * (2 : ℚ) ^ e

/-- The value of a finite encoding; none for an infinity or a NaN. -/
def finiteValue (x : F64) : Option ℚ :=
  match funpack x with
  | .nan => none
  | .inf _ => none
  | .fin neg m e => some (if neg then -scaled m e else scaled m e)

/-- `x` is the number `v` rounded to binary64, to nearest, ties to even (00_scope.md R12,
60_exceptions.md R405). -/
structure RoundedTo (v : ℚ) (x : F64) : Prop where
  /-- no finite value is nearer, and of two that are equally near `x` is the one with an even last
  bit -/
  nearest : ∀ r, finiteValue x = some r → ∀ y q, finiteValue y = some q →
    |r - v| ≤ |q - v| ∧ (|r - v| = |q - v| → q = r ∨ x.getLsbD 0 = false)
  /-- below half a unit past the greatest finite value the result is finite -/
  finite : |v| < 2 ^ 1024 - 2 ^ 970 → ∃ r, finiteValue x = some r
  /-- from there on it is the infinity of the sign of `v` -/
  overflow : 2 ^ 1024 - 2 ^ 970 ≤ |v| → x = finf (decide (v < 0))
  /-- the sign is that of `v`, also where the result is a zero -/
  sign : v ≠ 0 → fsign x = decide (v < 0)

/-! ## Formulas of the sample domain, written out -/

/-- `p` is the normalized Gaussian pulse of length `len` for the bandwidth-time product `b`
(41_pulse_shaper.md R262 to R264, 00_scope.md R13): `q` is the Gaussian tail function, `a` the slope,
`t i` the sample times with an exact numerator, `g i` the raw pulse. -/
def IsPulse (b : F64) (sps len : Nat) (p : List F64) : Prop :=
  p.length = len ∧ ∃ (q : F64 → F64) (a : F64) (t g : Nat → F64),
    (∀ x, q x = fmul fhalf (Config.erfc (fdiv x (Config.sqrt f2))))
      ∧ a = fdiv (fmul (fmul f2 fpi) b) (Config.sqrt fln2)
      ∧ (∀ i, i < len →
          ∃ num, finiteValue num = some ((i : ℚ) - ((len : ℚ) - 1) / 2)
            ∧ t i = fdiv num (fofNat sps))
      ∧ (∀ i, i < len →
          g i = fsub (q (fmul a (fsub (t i) fhalf))) (q (fmul a (fadd (t i) fhalf))))
      ∧ ∀ i, i < len → p.getD i f0 = fdiv (g i) (fsum ((List.range len).map g))

/-- `k` holds what the stages up to S_BIT_DECISION compute from the samples `x`, formula by formula
(43_demodulator.md R312 to R327). -/
structure FrontEndOf (c : CfgRegs) (x : List Cx) (k : Work) : Prop where
  /-- R312 -/
  rssi : k.rssi
    = fmul f10 (Config.log10 (fadd
        (if x.length = 0 then f0
         else fdiv
          (fsum ((List.range x.length).map fun n =>
            fadd (fmul (x.getD n cx0).re (x.getD n cx0).re)
              (fmul (x.getD n cx0).im (x.getD n cx0).im)))
          (fofNat x.length))
        frssiEps))
  /-- R314 -/
  fhat : k.fhat
    = fdiv
        (fmul
          (arg (((List.range (x.length - 1)).map fun n =>
            cmul (x.getD (n + 1) cx0) (conj (x.getD n cx0))).foldl cadd cx0))
          c.fs)
        ftwoPi
  /-- R316, R318: as many samples as were read -/
  yLength : k.y.length = x.length
  /-- R316, and R318 where tracking is on: the open transform of the compensated samples -/
  y : ∃ y : List Cx, y.length = x.length
    ∧ (∀ n, n < x.length →
        y.getD n cx0
          = cmul (x.getD n cx0)
              (expj (fdiv (fmul (fmul (fneg ftwoPi) k.fhat) (fofNat n)) c.fs)))
    ∧ (c.phycfg.trackEn = false → k.y = y)
    ∧ (c.phycfg.trackEn = true → ∃ bw α β,
        bw = fmul (fround false 1 100 0) (fofNat c.phycfg.symbolRate)
          ∧ α = fdiv (fmul ftwoPi bw) c.fs ∧ β = fdiv (fmul α α) f2
          ∧ ∀ n, n < x.length →
              k.y.getD n cx0
                = Config.trackSample (bw, α, β) y
                    (c.sps, c.sampleRate.toNat, c.phycfg.symbolRate) n)
  /-- R320 -/
  dLength : k.d.length = x.length - 1
  /-- R320 -/
  d : ∀ n, n < x.length - 1 →
    k.d.getD n f0 = arg (cmul (k.y.getD (n + 1) cx0) (conj (k.y.getD n cx0)))
  /-- R322 with 41_pulse_shaper.md R266: the full convolution with the pulse or the boxcar -/
  z : ∃ h : List F64,
    h = (if c.phycfg.mfEn then c.pulse else List.replicate c.sps (fdiv f1 (fofNat c.sps)))
      ∧ k.z.length = (if k.d.length = 0 then 0 else k.d.length + h.length - 1)
      ∧ ∀ n, n < k.z.length →
          k.z.getD n f0
            = fsum (((List.range h.length).filter fun i =>
                decide (i ≤ n) && decide (n - i < k.d.length)).map fun i =>
                  fmul (h.getD i f0) (k.d.getD (n - i) f0))
  /-- R324: the energies, of which `pstar` is the first greatest -/
  pstar : k.pstar = bestPhase k.z c.sps
    ∧ ∀ p, phaseEnergy k.z c.sps p
        = fsum ((List.range (k.z.length / c.sps)).map fun j =>
            fmul (k.z.getD (p + j * c.sps) f0) (k.z.getD (p + j * c.sps) f0))
  /-- R324: one sample per symbol -/
  r : k.r = (List.range (k.z.length / c.sps)).map fun j => k.z.getD (k.pstar + j * c.sps) f0
  /-- R327 -/
  bits : k.bits = k.r.map fun v => flt f0 v

/-! ## The invariant -/

/-- The working state of a DEMODULATE of the samples `x` at the beginning of a stage
(10_state.md R60, 43_demodulator.md R310); none for a stage it does not come to. -/
def workAt (c : CfgRegs) (x : List Cx) (st : Stage) : Option Work :=
  let k := frontEnd c x
  let hit := findSync k.bits (syncPattern c.accessAddr c.phycfg)
  match st with
  | .freqSync => some (startWork x)
  | .demod => some (freqSyncWork c (startWork x))
  | .filter => some (demodWork (freqSyncWork c (startWork x)))
  | .timingSync => some (filterWork c (demodWork (freqSyncWork c (startWork x))))
  | .bitDecision => some (timingWork c (filterWork c (demodWork (freqSyncWork c (startWork x)))))
  | .packetSync => some k
  | .dewhiten => hit.map fun pos => { k with pos := pos }
  | .parse => hit.map fun pos => dewhitenWork c { k with pos := pos }
  | .crcCheck =>
    match hit.map fun pos => dewhitenWork c { k with pos := pos } with
    | some w => if w.isShort || w.isTruncated then none else some w
    | none => none
  | .start | .idle | .done | .exec => none

/-- The bytes of the samples a running DEMODULATE reads (43_demodulator.md R310). -/
def State.iqBytes (s : State) : Except Nat (List Byte) :=
  s.mem.readBytes (Config.iqBase + 16 * s.cfg.iqOff.toNat) (16 * s.cfg.iqNsamp.toNat)

/-- The running command is legal, the control point is one of its stages, and what it has computed
follows from its snapshot and from the samples that stand in `IQ` (10_state.md R32, R33, R60). -/
def State.RunsWell (s : State) (r : Running) : Prop :=
  ∃ i, decode r.word = .instr i ∧
    match i with
    | .demodulate =>
      (s.status.stage = .start ∧ r.work = Work.empty)
        ∨ (demodulateCheck r.cfg = .ok
            ∧ ∃ bytes, s.iqBytes = .ok bytes
                ∧ workAt r.cfg (samplesOf bytes) s.status.stage = some r.work)
    | .modulate | .whiten | .crc24 | .assemble | .aaDetect | .genPulse => s.status.stage = .exec

/-- The combinations of `RES_FLAGS` that occur (10_state.md R53, 43_demodulator.md R341). -/
def ResFlags.Legal (f : ResFlags) : Prop :=
  f.success = f.crcValid
    ∧ (f.crcValid = true → f.hdrValid = true ∧ f.exitStage = .crcCheck)
    ∧ (f.hdrValid = true → f.syncFound = true)
    ∧ (f.exitStage = .crcCheck → f.hdrValid = true)
    ∧ (f.exitStage = .parse → f.syncFound = true)
    ∧ (f.exitStage = .packetSync → f.hdrValid = false)
    ∧ f.exitStage ∈ [Stage.idle, .packetSync, .parse, .crcCheck]

/-- The codes a completed command can have left (60_exceptions.md R401, 30_encoding.md R147). -/
def raisedBy : Instr → List ErrCode
  | .modulate => [.ok, .badPhy, .badRate, .badParam, .emptyInput, .length]
  | .demodulate => [.ok, .badPhy, .badRate, .badParam, .badChannel, .length]
  | .whiten => [.ok, .badChannel, .length]
  | .crc24 => [.ok, .length]
  | .assemble => [.ok, .badPhy, .badChannel, .length]
  | .aaDetect => [.ok, .badPhy, .length]
  | .genPulse => [.ok, .badPhy, .badRate, .badParam]

/-- What holds of every state between two steps. -/
structure State.Inv (s : State) : Prop where
  /-- the memory is canonical -/
  memWf : s.mem.wf = true
  /-- only bytes of the buffers have been written (20_memory.md R104, R113) -/
  memMapped : ∀ a, s.mem.mask a ≠ 0 → inBuffer a 1 = true
  /-- with no command running the control point is S_IDLE or S_DONE (10_state.md R32) -/
  restStage : s.running = none → s.status.stage = .idle ∨ s.status.stage = .done
  /-- S_IDLE is left by the first acceptance: until then `STATUS` reads 0 (10_state.md R32, R37) -/
  idleStatus : s.status.stage = .idle → s.status = Status.reset
  /-- `DONE` is set only after completion (10_state.md R37) -/
  doneStage : s.status.done = true → s.status.stage = .done
  /-- `ERR` is set only with an error code (10_state.md R37) -/
  errCode : s.status.err = true → s.status.stage = .done ∧ s.status.errCode ≠ .ok
  /-- a completed command left a code it can raise (60_exceptions.md R401) -/
  raised : s.status.stage = .done →
    s.status.errCode = .illegalCmd
      ∨ ∃ i, decodeOpcode s.status.lastOp = some i ∧ s.status.errCode ∈ raisedBy i
  /-- while a command runs, `DONE` and `ERR` are 0 and `LAST_OP` is its opcode (10_state.md R51) -/
  busyStatus : ∀ r, s.running = some r →
    s.status.done = false ∧ s.status.err = false ∧ s.status.lastOp = r.word.extractLsb' 0 8
  /-- the running command is where it says it is -/
  runs : ∀ r, s.running = some r → s.RunsWell r
  /-- `RES_FLAGS` holds one of the combinations that occur -/
  flags : s.res.flags.Legal
  /-- `RES_PDU_LEN` counts at most 255 bytes (40_framing.md R225, 43_demodulator.md R340) -/
  pduLen : s.res.pduLen.toNat ≤ 255

end Sys2Proof.Machine
end

