-- ==== Sys2Proof/Certificates/Slice0/Obligations.lean ====
section
/-! DEFINITION. The statements for the provers. Each docstring names the rule of spec/ it formalises;
where a clause rests on a choice of the model, it names the log entry. -/

open Sys2Proof Sys2Proof.Machine

/-! ## Encoding -/

/-- 30_encoding.md R143: a word is a command exactly if it is that command's word of the table. -/
def Obligations.WordIsACommandIffItIsItsEncoding : Prop :=
  (∀ (w : Word) (i : Instr), decode w = .instr i ↔ w = encode i)
    ∧ encode .modulate = 0x00000001 ∧ encode .demodulate = 0x00000002
    ∧ encode .whiten = 0x00000003 ∧ encode .crc24 = 0x00000004 ∧ encode .assemble = 0x00000005
    ∧ encode .aaDetect = 0x00000006 ∧ encode .genPulse = 0x00000007

/-- 30_encoding.md R143, R142, R145: some words of the table, and some next to them. -/
def Obligations.SampleWordsDecode : Prop :=
  decode 0x00000001 = .instr .modulate ∧ decode 0x00000002 = .instr .demodulate
    ∧ decode 0x00000003 = .instr .whiten ∧ decode 0x00000007 = .instr .genPulse
    ∧ decode 0x00000000 = .illegal .illegalOpcode ∧ decode 0x00000008 = .illegal .illegalOpcode
    ∧ decode 0x00000103 = .illegal .reservedBits

/-- 30_encoding.md R142, R145: which words are illegal, and that such a word, requested while no
command runs, completes at once with ILLEGAL_CMD, writes nothing but `STATUS` and leaves its low byte
in `LAST_OP`. -/
def Obligations.IllegalWordCompletesAtOnce : Prop :=
  ∀ (s : State) (w : Word), s.running = none →
    (w.extractLsb' 8 24 ≠ 0 ∨ w.extractLsb' 0 8 = 0 ∨ 8 ≤ (w.extractLsb' 0 8).toNat) →
    (∀ i, decode w ≠ .instr i)
      ∧ s.request w
          = { s with
              status :=
                { s.status with
                  done := true
                  err := true
                  errCode := .illegalCmd
                  stage := .done
                  lastOp := w.extractLsb' 0 8 } }

/-! ## Acceptance, completion, control -/

/-- 10_state.md R51: what a host write to `CMD` does, in each of its three cases. The answer to the
access is the model's own field (log 17). -/
def Obligations.WriteToCmdRequestsACommand : Prop :=
  ∀ (s : State) (d : DWord), ∃ t,
    s.hostWrite 0x000 .w32 d = .next t
      ∧ t.irqEn = s.irqEn ∧ t.regs = s.regs ∧ t.res = s.res ∧ t.mem = s.mem
      ∧ (s.running.isSome = true →
          t.running = s.running ∧ t.status = { s.status with cmdOvr := true })
      ∧ (∀ i, s.running = none → d.setWidth 32 = encode i →
          t.status
              = { s.status with
                  done := false
                  err := false
                  lastOp := i.opcode
                  stage := if i = .demodulate then .start else .exec }
            ∧ t.running = some { word := encode i, cfg := s.regs, work := Work.empty }
            ∧ coreRun t = exec i t)
      ∧ (s.running = none → (∀ i, d.setWidth 32 ≠ encode i) →
          t.running = none
            ∧ t.status
                = { s.status with
                    done := true
                    err := true
                    errCode := .illegalCmd
                    stage := .done
                    lastOp := d.extractLsb' 0 8 })

/-- 60_exceptions.md R408: a command word written while a command runs sets `CMD_OVR` and does nothing
else, and the running command does what it would have done. -/
def Obligations.OverrunIsOnlyRecorded : Prop :=
  ∀ (s : State) (r : Running) (d : DWord), s.running = some r →
    s.hostWrite 0x000 .w32 d
        = .next { s with status := { s.status with cmdOvr := true }, response := some writeDone }
      ∧ ∀ i, exec i { s with status := { s.status with cmdOvr := true } }
          = mapNext (fun t => { t with status := { t.status with cmdOvr := true } }) (exec i s)

/-- 10_state.md R52: acceptance copies the configuration registers, and a later host write to one of
them, or to `CTRL`, reaches the register and not the running command: writing first and running then
is running first and writing then. Left out are the registers the command itself writes
(70_reset_and_hazards.md R462). -/
def Obligations.RunningCommandReadsItsSnapshot : Prop :=
  (∀ (s : State) (w : Word), (s.accept w).cfg = s.regs)
    ∧ ∀ (s : State) (run : Running) (i : Instr) (r : Reg) (w : Word), s.running = some run →
        Reg.stores r = true → r ∉ outputRegs i →
        exec i (s.setReg r w) = mapNext (fun t => t.setReg r w) (exec i s)

/-- 10_state.md R56: every command that ends, ends with `complete(code)`; with a code other than 0
it has written nothing but `STATUS`. -/
def Obligations.EveryCommandEndsWithCompletion : Prop :=
  ∀ (i : Instr) (s t : State), exec i s = .next t →
    ∃ code, Completed s t code ∧ (code ≠ .ok → Refused s t code)

/-- 60_exceptions.md R404: a command that fails a check is refused with its code. For DEMODULATE the
checks are made in S_START (10_state.md R33). -/
def Obligations.FailedCheckRefusesTheCommand : Prop :=
  ∀ (i : Instr) (s : State), (i = .demodulate → s.status.stage = .start) →
    checkOf i s.cfg s.mem ≠ .ok →
    ∃ t, exec i s = .next t ∧ Refused s t (checkOf i s.cfg s.mem)

/-- 30_encoding.md R147, 60_exceptions.md R403: the reported code is the first of the table's failing
checks, in the order of the codes. -/
def Obligations.ChecksFollowTheTable : Prop :=
  ∀ (i : Instr) (c : CfgRegs) (m : Memory),
    (checkOf i c m = .ok ↔ ∀ code, ¬ checkFails i c m code)
      ∧ ∀ code, code ≠ .ok →
          (checkOf i c m = code ↔
            checkFails i c m code
              ∧ ∀ earlier, earlier.code.toNat < code.code.toNat → ¬ checkFails i c m earlier)

/-- 10_state.md R62, 60_exceptions.md R406: a command whose checks pass completes if every bit of its
input footprint has been written since reset, and else stops with UNINIT_READ at an address of its
input footprint. It never stops in another way. -/
def Obligations.CommandCompletesIffItsInputIsWritten : Prop :=
  ∀ (i : Instr) (s : State), (i = .demodulate → s.status.stage = .start) →
    checkOf i s.cfg s.mem = .ok →
    (Memory.Written (inputSpans i s.cfg s.mem) s.mem →
        ∃ t, exec i s = .next t ∧ Completed s t .ok)
      ∧ (¬ Memory.Written (inputSpans i s.cfg s.mem) s.mem →
          ∃ a, exec i s = .fault (.uninitRead i a)
            ∧ spansMask (inputSpans i s.cfg s.mem) a ≠ 0 ∧ s.mem.mask a ≠ 0xFF)

/-- 30_encoding.md R144 and 70_reset_and_hazards.md R451 as the model runs them (log 2, 3): when the
accepted word decodes to `i`, a step whose input lets the core run is `exec i`, and so is a step with
no input left; a core with no command waits; and the very next step runs a word that the host's
interface places. A step whose next input is a host access is that access, one whose next input is a
stage is that stage of the core, and one whose next input is the reset input is reset (20_memory.md
R120, 10_state.md R33, 70_reset_and_hazards.md R450). -/
def Obligations.StepRunsTheDecodedCommand : Prop :=
  (∀ (s : State) (r : Running) (i : Instr), s.running = some r → decode r.word = .instr i →
      (s.inputs = [] → step s = exec i s)
        ∧ ∀ rest, s.inputs = .run :: rest → step s = exec i { s with inputs := rest })
    ∧ (∀ s : State, s.running = none →
        (s.inputs = [] → step s = .next s)
          ∧ ∀ rest, (s.inputs = .run :: rest ∨ s.inputs = .stage :: rest) →
              step s = .next { s with inputs := rest })
    ∧ (∀ (s : State) (w : Nat) (i : Instr), decodeTableWord 32 w = some i →
        step (s.withFetchWord 32 w) = exec i (s.accept (encode i)))
    ∧ ∀ (s : State) (rest : List Input),
        (∀ a w, s.inputs = .access (.read a w) :: rest →
            step s = .next (State.hostRead { s with inputs := rest } a.toNat w))
          ∧ (∀ a w d, s.inputs = .access (.write a w d) :: rest →
            step s = State.hostWrite { s with inputs := rest } a.toNat w d)
          ∧ (s.inputs = .stage :: rest → step s = coreStage { s with inputs := rest })
          ∧ (s.inputs = .reset :: rest → step s = .next (State.applyReset { s with inputs := rest }))

/-- 10_state.md R33: the stages of DEMODULATE are visited in increasing order, each stage's successor
being the next; a stage is left early only by completion, from S_START (refused), S_PACKET_SYNC,
S_PARSE or S_CRC_CHECK. That a stage is one step of the machine is log 4. -/
def Obligations.DemodulatorStagesAdvanceInOrder : Prop :=
  ∀ (s t : State) (r : Running), s.running = some r → decode r.word = .instr .demodulate →
    s.status.stage ∈ [Stage.start, .freqSync, .demod, .filter, .timingSync, .bitDecision,
      .packetSync, .dewhiten, .parse, .crcCheck] →
    coreStage s = .next t →
    (t.running.isSome = true ∧ t.status.stage.code = s.status.stage.code + 1
        ∧ t.status = { s.status with stage := t.status.stage })
      ∨ (t.running = none ∧ t.status.stage = .done
          ∧ s.status.stage ∈ [Stage.start, .packetSync, .parse, .crcCheck])

/-- 60_exceptions.md R410: the interrupt output is `CTRL.IRQ_EN & STATUS.DONE` as the host reads the
two registers; completion raises it if it is enabled; acceptance, a write of 1 to `DONE` and a write
of 0 to `IRQ_EN` take it away; reset leaves it 0. -/
def Obligations.InterruptFollowsEnableAndDone : Prop :=
  (∀ s : State, s.irq = ((s.reg .ctrl).getLsbD 0 && (s.reg .status).getLsbD 1))
    ∧ (∀ (i : Instr) (s t : State), exec i s = .next t → t.irq = s.irqEn)
    ∧ (∀ (s : State) (w : Word), (s.accept w).irq = false)
    ∧ (∀ (s : State) (d : DWord), d.getLsbD 1 = true →
        ∃ t, s.hostWrite 0x004 .w32 d = .next t ∧ t.irq = false)
    ∧ (∀ (s : State) (d : DWord), d.getLsbD 0 = false →
        ∃ t, s.hostWrite 0x008 .w32 d = .next t ∧ t.irq = false)
    ∧ State.reset.irq = false

/-! ## What each command does -/

/-- 40_framing.md R205: WHITEN. -/
def Obligations.WhitenWhitensItsBitRange : Prop :=
  ∀ (s : State), s.mem.wf = true →
    (39 < s.cfg.phycfg.channel.toNat → ∃ t, exec .whiten s = .next t ∧ Refused s t .badChannel)
    ∧ (s.cfg.phycfg.channel.toNat ≤ 39 → 131072 < s.cfg.opOff.toNat + s.cfg.opLen.toNat →
        ∃ t, exec .whiten s = .next t ∧ Refused s t .length)
    ∧ (s.cfg.phycfg.channel.toNat ≤ 39 → s.cfg.opOff.toNat + s.cfg.opLen.toNat ≤ 131072 →
        (∀ j, j < s.cfg.opLen.toNat →
          s.mem.bitWritten Config.txbitBase (s.cfg.opOff.toNat + j) = true) →
        ∃ t, exec .whiten s = .next t ∧ Completed s t .ok ∧ t.regs = s.regs ∧ t.res = s.res
          ∧ (∀ j, j < s.cfg.opLen.toNat →
              t.mem.bit Config.txbitBase (s.cfg.opOff.toNat + j)
                  = (s.mem.bit Config.txbitBase (s.cfg.opOff.toNat + j)
                      ^^ whiteningBit s.cfg.phycfg.channel j)
                ∧ t.mem.bitWritten Config.txbitBase (s.cfg.opOff.toNat + j) = true)
          ∧ Memory.SameOutside [⟨Config.txbitBase, s.cfg.opOff.toNat, s.cfg.opLen.toNat⟩]
              s.mem t.mem)

/-- 40_framing.md R205, R203: a second WHITEN of the same range with the same channel restores the
buffer. The registers are unchanged since the first was accepted. -/
def Obligations.WhitenTwiceRestoresTheBuffer : Prop :=
  ∀ (s t : State), s.mem.wf = true → s.regs = s.cfg → exec .whiten s = .next t →
    t.status.errCode = .ok →
    ∃ u, exec .whiten (t.accept (encode .whiten)) = .next u
      ∧ Completed (t.accept (encode .whiten)) u .ok
      ∧ u.mem = s.mem

/-- 40_framing.md R215: CRC24. -/
def Obligations.Crc24WritesTheCrcOfItsBytes : Prop :=
  ∀ (s : State),
    (1024 < s.cfg.crcNbytes.toNat → ∃ t, exec .crc24 s = .next t ∧ Refused s t .length)
    ∧ (s.cfg.crcNbytes.toNat ≤ 1024 →
        (∀ j, j < s.cfg.crcNbytes.toNat → s.mem.mask (Config.pduInBase + j) = 0xFF) →
        ∃ t, exec .crc24 s = .next t ∧ Completed s t .ok ∧ t.regs = s.regs ∧ t.mem = s.mem
          ∧ t.res
              = { s.res with
                  crc := crc24
                    ((List.range s.cfg.crcNbytes.toNat).map fun j =>
                      s.mem.byte (Config.pduInBase + j)) s.cfg.crcInit })

/-- 40_framing.md R230: ASSEMBLE, on a header whose byte 1 announces `len` payload bytes. Its LENGTH
check cannot fail, as the rule says. -/
def Obligations.AssembleBuildsThePacketStream : Prop :=
  ∀ (s : State) (len : Nat) (pdu : List Byte), s.mem.wf = true →
    len = (s.mem.byte (Config.pduInBase + 1)).toNat →
    pdu = (List.range (2 + len)).map (fun j => s.mem.byte (Config.pduInBase + j)) →
    (2 ≤ s.cfg.phycfg.phyMode.toNat → ∃ t, exec .assemble s = .next t ∧ Refused s t .badPhy)
    ∧ (s.cfg.phycfg.phyMode.toNat < 2 → s.cfg.phycfg.whitenEn = true →
        39 < s.cfg.phycfg.channel.toNat →
        ∃ t, exec .assemble s = .next t ∧ Refused s t .badChannel)
    ∧ (s.cfg.phycfg.phyMode.toNat < 2 →
        (s.cfg.phycfg.whitenEn = true → s.cfg.phycfg.channel.toNat ≤ 39) →
        (∀ j, j < 2 + len → s.mem.mask (Config.pduInBase + j) = 0xFF) →
        ∃ t, exec .assemble s = .next t ∧ Completed s t .ok
          ∧ (packetStream s.cfg pdu).length = s.cfg.phycfg.preambleLen + 32 + 8 * (5 + len)
          ∧ t.regs
              = { s.regs with
                  txNbits := BitVec.ofNat 32 (s.cfg.phycfg.preambleLen + 32 + 8 * (5 + len)) }
          ∧ t.res = { s.res with crc := crc24 pdu s.cfg.crcInit }
          ∧ (∀ j, j < s.cfg.phycfg.preambleLen + 32 + 8 * (5 + len) →
              t.mem.bit Config.txbitBase j = (packetStream s.cfg pdu).getD j false
                ∧ t.mem.bitWritten Config.txbitBase j = true)
          ∧ Memory.SameOutside
              [⟨Config.txbitBase, 0, s.cfg.phycfg.preambleLen + 32 + 8 * (5 + len)⟩] s.mem t.mem)

/-- 43_demodulator.md R345: AA_DETECT. -/
def Obligations.AaDetectReportsTheLeftmostHit : Prop :=
  ∀ (s : State) (c : List Bool),
    c = (List.range s.cfg.opLen.toNat).map
      (fun j => s.mem.bit Config.txbitBase (s.cfg.opOff.toNat + j)) →
    (2 ≤ s.cfg.phycfg.phyMode.toNat → ∃ t, exec .aaDetect s = .next t ∧ Refused s t .badPhy)
    ∧ (s.cfg.phycfg.phyMode.toNat < 2 → 131072 < s.cfg.opOff.toNat + s.cfg.opLen.toNat →
        ∃ t, exec .aaDetect s = .next t ∧ Refused s t .length)
    ∧ (s.cfg.phycfg.phyMode.toNat < 2 → s.cfg.opOff.toNat + s.cfg.opLen.toNat ≤ 131072 →
        (∀ j, j < s.cfg.opLen.toNat →
          s.mem.bitWritten Config.txbitBase (s.cfg.opOff.toNat + j) = true) →
        ∃ t, exec .aaDetect s = .next t ∧ Completed s t .ok ∧ t.regs = s.regs ∧ t.mem = s.mem
          ∧ (findSync c (syncPattern s.cfg.accessAddr s.cfg.phycfg) = none →
              t.reg .resFlags = 0x00000700
                ∧ t.res = { s.res with flags := t.res.flags, syncPos := 0, aa := 0 })
          ∧ (∀ pos, findSync c (syncPattern s.cfg.accessAddr s.cfg.phycfg) = some pos →
              t.reg .resFlags = 0x00000704
                ∧ t.res
                    = { s.res with
                        flags := t.res.flags
                        syncPos := BitVec.ofNat 32 pos
                        aa := t.res.aa }
                ∧ ∀ i, i < 32 →
                    t.res.aa.getLsbD i = c.getD (pos + s.cfg.phycfg.preambleLen + i) false))

/-- GEN_PULSE (41_pulse_shaper.md R268), and the pulse of R262 to R264 with its formulas written out.
Which NaN encoding stands for a NaN coefficient is open (93_implementation_defined.md U4, log 8); `erfc`
and `sqrt` of a non-square are open functions (U5, log 9). The reading of the formulas, the order of
their operations and their constants, is the model's (log 13, 15). -/
def Obligations.GenPulseWritesThePulse : Prop :=
  ∀ (s : State) (sps len : Nat), s.mem.wf = true →
    sps = roundHalfEven s.cfg.sampleRate.toNat s.cfg.phycfg.symbolRate →
    len = s.cfg.span.toNat * sps + 1 →
    (2 ≤ s.cfg.phycfg.phyMode.toNat → ∃ t, exec .genPulse s = .next t ∧ Refused s t .badPhy)
    ∧ (s.cfg.phycfg.phyMode.toNat < 2 → sps = 0 →
        ∃ t, exec .genPulse s = .next t ∧ Refused s t .badRate)
    ∧ (s.cfg.phycfg.phyMode.toNat < 2 → 0 < sps →
        (s.cfg.span = 0 ∨ s.cfg.bt = 0 ∨ 1024 < len) →
        ∃ t, exec .genPulse s = .next t ∧ Refused s t .badParam)
    ∧ (s.cfg.phycfg.phyMode.toNat < 2 → 0 < sps → s.cfg.span ≠ 0 → s.cfg.bt ≠ 0 → len ≤ 1024 →
        ∃ t, exec .genPulse s = .next t ∧ Completed s t .ok ∧ t.regs = s.regs
          ∧ t.res
              = { s.res with coefLen := BitVec.ofNat 32 len, sps := BitVec.ofNat 32 sps }
          ∧ (∀ i, i < len →
              StoredAs ((pulse s.cfg.b sps len).getD i f0)
                  (t.mem.dword (Config.coefBase + 8 * i))
                ∧ ∀ k, k < 8 → t.mem.mask (Config.coefBase + 8 * i + k) = 0xFF)
          ∧ Memory.SameOutside [⟨Config.coefBase, 0, 64 * len⟩] s.mem t.mem
          ∧ IsPulse s.cfg.b sps len (pulse s.cfg.b sps len))

/-- 42_modulator.md R287: MODULATE. Which NaN encoding stands for a NaN is open
(93_implementation_defined.md U4, log 8); `cos` and `sin` are open functions (U5, log 9). -/
def Obligations.ModulateWritesTheWaveform : Prop :=
  ∀ (s : State) (n : Nat) (bits : List Bool), s.mem.wf = true → modulateCheck s.cfg = .ok →
    n = s.cfg.txNbits.toNat * s.cfg.sps + (s.cfg.span.toNat * s.cfg.sps + 1) - 1 →
    bits = (List.range s.cfg.txNbits.toNat).map (fun j => s.mem.bit Config.txbitBase j) →
    (∀ j, j < s.cfg.txNbits.toNat → s.mem.bitWritten Config.txbitBase j = true) →
    ∃ t, exec .modulate s = .next t ∧ Completed s t .ok
      ∧ t.regs = { s.regs with iqNsamp := BitVec.ofNat 32 n }
      ∧ t.res = { s.res with sps := BitVec.ofNat 32 s.cfg.sps }
      ∧ (s.cfg.modulated bits).length = n
      ∧ (∀ j, j < n →
          StoredAs ((s.cfg.modulated bits).getD j cx0).re
              (t.mem.dword (Config.iqBase + 16 * (s.cfg.iqOff.toNat + j)))
            ∧ StoredAs ((s.cfg.modulated bits).getD j cx0).im
              (t.mem.dword (Config.iqBase + 16 * (s.cfg.iqOff.toNat + j) + 8))
            ∧ ∀ k, k < 16 →
                t.mem.mask (Config.iqBase + 16 * (s.cfg.iqOff.toNat + j) + k) = 0xFF)
      ∧ Memory.SameOutside [⟨Config.iqBase, 128 * s.cfg.iqOff.toNat, 128 * n⟩] s.mem t.mem

/-- 42_modulator.md R281 to R286, sample by sample: the phase accumulator runs over the convolution of
the zero-inserted symbols with the pulse, and each sample is the exponential of the phase it gives. How the
formulas are read is log 13 and 15. -/
def Obligations.WaveformFollowsThePhase : Prop :=
  ∀ (c : CfgRegs) (bits : List Bool) (n : Nat), bits ≠ [] → 0 < c.sps →
    n < bits.length * c.sps + c.pulseLen - 1 →
    ((∀ k m, k < bits.length → m < c.sps →
        (upsample c.sps bits).getD (k * c.sps + m) f0
          = if m = 0 then (if bits.getD k false then f1 else fneg f1) else f0)
      ∧ (c.modulated bits).getD n cx0
          = expj
              (fadd
                (fmul (fmul c.h fpi)
                  (fsum ((List.range (n + 1)).map fun m =>
                    convAt (upsample c.sps bits) c.pulse m)))
                (fdiv (fmul (fmul ftwoPi c.fOff) (fofNat n)) c.fs)))

/-- 43_demodulator.md R310, R340: DEMODULATE from its beginning is the pipeline of the samples it
reads, stage after stage, with the results of the exit it takes. The samples are the pairs of binary64
values in `IQ` (20_memory.md R103), and what the front end computes from them is written out formula by
formula (R312 to R327); the tracking transform and the transcendental functions in it are open (U5, U6, log 9,
11), and how the formulas are read is log 10, 13 and 15. Which NaN encoding stands for a NaN is open (93_implementation_defined.md U4, log 8). -/
def Obligations.DemodulateIsThePipeline : Prop :=
  ∀ (s : State) (bytes : List Byte) (k : Work) (e : DemodExit), s.mem.wf = true →
    s.status.stage = .start → demodulateCheck s.cfg = .ok →
    (∀ j, j < 16 * s.cfg.iqNsamp.toNat →
      s.mem.mask (Config.iqBase + 16 * s.cfg.iqOff.toNat + j) = 0xFF) →
    bytes = (List.range (16 * s.cfg.iqNsamp.toNat)).map
      (fun j => s.mem.byte (Config.iqBase + 16 * s.cfg.iqOff.toNat + j)) →
    pipeline s.cfg (samplesOf bytes) = (k, e) →
    (samplesOf bytes).length = s.cfg.iqNsamp.toNat
    ∧ (∀ n, n < s.cfg.iqNsamp.toNat →
        (samplesOf bytes).getD n cx0
          = { re := s.mem.dword (Config.iqBase + 16 * (s.cfg.iqOff.toNat + n))
              im := s.mem.dword (Config.iqBase + 16 * (s.cfg.iqOff.toNat + n) + 8) })
    ∧ FrontEndOf s.cfg (samplesOf bytes) k
    ∧ ∃ t, exec .demodulate s = .next t ∧ Completed s t .ok ∧ t.regs = s.regs
      ∧ t.res
          = { flags := e.flags
              timing := BitVec.ofNat 32 k.pstar
              syncPos := BitVec.ofNat 32 e.syncPos
              aa := e.aa
              hdr0 := e.hdr0
              hdr1 := e.hdr1
              pduLen := BitVec.ofNat 32 e.pdu.length
              nbits := BitVec.ofNat 32 k.bits.length
              crc := e.crc
              crcRx := e.crcRx
              sps := BitVec.ofNat 32 s.cfg.sps
              coefLen := s.res.coefLen
              rssi := t.res.rssi
              freq := t.res.freq }
      ∧ StoredAs k.rssi t.res.rssi ∧ StoredAs k.fhat t.res.freq
      ∧ (∀ j, j < 8 * ((k.bits.length + 7) / 8) →
          t.mem.bit Config.rxbitBase j = k.bits.getD j false
            ∧ t.mem.bitWritten Config.rxbitBase j = true)
      ∧ (∀ j, j < e.pdu.length →
          t.mem.byte (Config.pduOutBase + j) = e.pdu.getD j 0
            ∧ t.mem.mask (Config.pduOutBase + j) = 0xFF)
      ∧ Memory.SameOutside
          [ ⟨Config.rxbitBase, 0, 8 * ((k.bits.length + 7) / 8)⟩
          , ⟨Config.pduOutBase, 0, 8 * e.pdu.length⟩ ] s.mem t.mem

/-- 43_demodulator.md R310, R340 with 10_state.md R52, R60: whatever the host has done since acceptance
without a fault, a DEMODULATE in any stage completes with every result register, and the output PDU,
of the pipeline of the samples in `IQ` and of its snapshot. Which NaN encoding stands for a NaN is open
(93_implementation_defined.md U4, log 8). -/
def Obligations.InterruptedDemodulateStillGivesThePipeline : Prop :=
  ∀ (s : State) (r : Running) (bytes : List Byte) (k : Work) (e : DemodExit), s.Inv →
    s.running = some r → r.word = encode .demodulate → demodulateCheck r.cfg = .ok →
    s.iqBytes = .ok bytes → pipeline r.cfg (samplesOf bytes) = (k, e) →
    ∃ t, exec .demodulate s = .next t ∧ Completed s t .ok ∧ t.regs = s.regs
      ∧ t.res
          = { flags := e.flags
              timing := BitVec.ofNat 32 k.pstar
              syncPos := BitVec.ofNat 32 e.syncPos
              aa := e.aa
              hdr0 := e.hdr0
              hdr1 := e.hdr1
              pduLen := BitVec.ofNat 32 e.pdu.length
              nbits := BitVec.ofNat 32 k.bits.length
              crc := e.crc
              crcRx := e.crcRx
              sps := BitVec.ofNat 32 r.cfg.sps
              coefLen := s.res.coefLen
              rssi := t.res.rssi
              freq := t.res.freq }
      ∧ StoredAs k.rssi t.res.rssi ∧ StoredAs k.fhat t.res.freq
      ∧ ∀ j, j < e.pdu.length →
          t.mem.byte (Config.pduOutBase + j) = e.pdu.getD j 0
            ∧ t.mem.mask (Config.pduOutBase + j) = 0xFF

/-- 43_demodulator.md R341, with R331 and R335: the five outcomes. -/
def Obligations.DemodulatorHasFiveOutcomes : Prop :=
  ∀ (c : CfgRegs) (x : List Cx) (k : Work) (e : DemodExit), pipeline c x = (k, e) →
    (findSync k.bits (syncPattern c.accessAddr c.phycfg) = none
        ∧ e.flags.toWord = 0x00000700 ∧ e.syncPos = 0 ∧ e.aa = 0 ∧ e.hdr0 = 0 ∧ e.hdr1 = 0
        ∧ e.pdu = [] ∧ e.crc = 0 ∧ e.crcRx = 0)
      ∨ ∃ pos rest,
          findSync k.bits (syncPattern c.accessAddr c.phycfg) = some pos ∧ e.syncPos = pos
            ∧ (∀ i, i < 32 →
                e.aa.getLsbD i = k.bits.getD (pos + c.phycfg.preambleLen + i) false)
            ∧ rest = k.bits.drop (pos + c.phycfg.preambleLen + 32)
            ∧ k.w = (if c.phycfg.whitenEn then applyWhitening rest c.phycfg.channel else rest)
            ∧ ((k.bits.length - (pos + c.phycfg.preambleLen + 32) < 16
                  ∧ e.flags.toWord = 0x00000904 ∧ e.hdr0 = 0 ∧ e.hdr1 = 0 ∧ e.pdu = []
                  ∧ e.crc = 0 ∧ e.crcRx = 0)
                ∨ ∃ h0 h1 tail, bytesOf k.w = h0 :: h1 :: tail ∧ e.hdr0 = h0 ∧ e.hdr1 = h1
                  ∧ ((tail.length < h1.toNat + 3 ∧ e.flags.toWord = 0x0000090C
                        ∧ e.pdu = [h0, h1] ∧ e.crc = 0 ∧ e.crcRx = 0)
                      ∨ (h1.toNat + 3 ≤ tail.length ∧ e.pdu = tail.take h1.toNat
                          ∧ e.crc = crc24 (h0 :: h1 :: tail.take h1.toNat) c.crcInit
                          ∧ e.crcRx = crcOfBytes (tail.getD h1.toNat 0)
                              (tail.getD (h1.toNat + 1) 0) (tail.getD (h1.toNat + 2) 0)
                          ∧ e.flags.toWord
                              = if e.crc = e.crcRx then 0x00000A0F else 0x00000A0C)))

/-- 43_demodulator.md R341, corner inputs: an input of at most one sample has no lag product and no
symbol: the estimate is 0 and no sync is found. -/
def Obligations.AtMostOneSampleFindsNoSync : Prop :=
  ∀ (c : CfgRegs) (x : List Cx), x.length ≤ 1 →
    (pipeline c x).2 = exitNoSync ∧ (pipeline c x).1.fhat = f0 ∧ (pipeline c x).1.bits = []
      ∧ (pipeline c x).1.pstar = 0

/-! ## Commands one after the other -/

/-- 70_reset_and_hazards.md R465: MODULATE accepted after ASSEMBLE reads `TX_NBITS` and the bits that
ASSEMBLE wrote: what it modulates is the packet. The registers are unchanged since ASSEMBLE was
accepted. -/
def Obligations.ModulateAfterAssembleSendsThePacket : Prop :=
  ∀ (s t : State) (pdu : List Byte), s.mem.wf = true → s.regs = s.cfg →
    exec .assemble s = .next t → t.status.errCode = .ok →
    pdu = (List.range (2 + (s.mem.byte (Config.pduInBase + 1)).toNat)).map
      (fun j => s.mem.byte (Config.pduInBase + j)) →
    modulateCheck t.regs = .ok →
    ∃ u, exec .modulate (t.accept (encode .modulate)) = .next u
      ∧ Completed (t.accept (encode .modulate)) u .ok
      ∧ ∀ j, j < (s.cfg.modulated (packetStream s.cfg pdu)).length →
          StoredAs ((s.cfg.modulated (packetStream s.cfg pdu)).getD j cx0).re
              (u.mem.dword (Config.iqBase + 16 * (s.cfg.iqOff.toNat + j)))
            ∧ StoredAs ((s.cfg.modulated (packetStream s.cfg pdu)).getD j cx0).im
              (u.mem.dword (Config.iqBase + 16 * (s.cfg.iqOff.toNat + j) + 8))

/-- 70_reset_and_hazards.md R465: DEMODULATE accepted after MODULATE reads, through the snapshot, the
`IQ_NSAMP` and the samples that MODULATE wrote: it reads the waveform of the bits MODULATE read, sample
by sample, and completes. The registers are unchanged since MODULATE was accepted. Which NaN encoding
stands for a NaN is open (93_implementation_defined.md U4, log 8). -/
def Obligations.DemodulateAfterModulateCompletes : Prop :=
  ∀ (s t : State) (bits : List Bool), s.mem.wf = true → s.regs = s.cfg →
    exec .modulate s = .next t → t.status.errCode = .ok →
    bits = (List.range s.cfg.txNbits.toNat).map (fun j => s.mem.bit Config.txbitBase j) →
    demodulateCheck t.regs = .ok →
    (∃ bytes, (t.accept (encode .demodulate)).iqBytes = .ok bytes
        ∧ (samplesOf bytes).length = s.cfg.modulatedLen
        ∧ (s.cfg.modulated bits).length = s.cfg.modulatedLen
        ∧ ∀ j, j < s.cfg.modulatedLen →
            StoredAs ((s.cfg.modulated bits).getD j cx0).re ((samplesOf bytes).getD j cx0).re
              ∧ StoredAs ((s.cfg.modulated bits).getD j cx0).im ((samplesOf bytes).getD j cx0).im)
      ∧ ∃ u, exec .demodulate (t.accept (encode .demodulate)) = .next u
          ∧ Completed (t.accept (encode .demodulate)) u .ok

/-- 40_framing.md R230 with 43_demodulator.md R345: AA_DETECT of an assembled stream finds the pattern
at its first bit and reads back the access address. The registers are unchanged since ASSEMBLE was
accepted. -/
def Obligations.AaDetectFindsAnAssembledPacket : Prop :=
  ∀ (s t : State), s.mem.wf = true → s.regs = s.cfg → s.cfg.opOff = 0 →
    exec .assemble s = .next t → t.status.errCode = .ok →
    s.cfg.opLen.toNat = t.regs.txNbits.toNat →
    ∃ u, exec .aaDetect (t.accept (encode .aaDetect)) = .next u
      ∧ Completed (t.accept (encode .aaDetect)) u .ok
      ∧ u.reg .resFlags = 0x00000704 ∧ u.res.syncPos = 0 ∧ u.res.aa = s.cfg.accessAddr

/-- 40_framing.md R226 with 43_demodulator.md R333 to R337: what ASSEMBLE sends is what the receiver
parses. Any bits that hold the stream of a PDU from the sync position on are dewhitened, parsed and
checked with success, and give back its payload. -/
def Obligations.AssembledPacketIsReceived : Prop :=
  ∀ (c : CfgRegs) (k : Work) (before after : List Bool) (pdu : List Byte), IsPdu pdu →
    k.bits = before ++ packetStream c pdu ++ after → k.pos = before.length →
    (backEnd c k).2.flags.toWord = 0x00000A0F
      ∧ (backEnd c k).2.pdu = pdu.drop 2
      ∧ (backEnd c k).2.hdr0 = pdu.getD 0 0 ∧ (backEnd c k).2.hdr1 = pdu.getD 1 0
      ∧ (backEnd c k).2.aa = c.accessAddr
      ∧ (backEnd c k).2.crc = crc24 pdu c.crcInit ∧ (backEnd c k).2.crcRx = crc24 pdu c.crcInit

/-! ## Framing -/

/-- 40_framing.md R203: whitening is bitwise, keeps the length and is its own inverse. -/
def Obligations.WhiteningIsItsOwnInverse : Prop :=
  ∀ (c : List Bool) (ch : BitVec 6),
    (applyWhitening c ch).length = c.length
      ∧ (∀ k, k < c.length →
          (applyWhitening c ch).getD k false = (c.getD k false ^^ whiteningBit ch k))
      ∧ applyWhitening (applyWhitening c ch) ch = c

/-- 40_framing.md R201, R202, R204: the state is never 0, the outputs satisfy the recurrence of the
stated taps, every seed has period 127 and no smaller one, and the sequences begin as the spec
says. -/
def Obligations.WhiteningSequenceHasPeriod127 : Prop :=
  (∀ (ch : BitVec 6),
      (∀ n, lfsrStep^[n] (lfsrSeed ch) ≠ 0)
        ∧ whiteningBit ch 0 = ch.getLsbD 0
        ∧ (∀ k, whiteningBit ch (k + 7) = (whiteningBit ch (k + 3) ^^ whiteningBit ch k))
        ∧ (∀ k, whiteningBit ch (k + 127) = whiteningBit ch k)
        ∧ ∀ p, 0 < p → p < 127 → ∃ k, whiteningBit ch (k + p) ≠ whiteningBit ch k)
    ∧ whiteningSequence 37 16
        = [true, true, false, false, true, false, false, true, false, false, false, false, false,
           false, true, false]
    ∧ whiteningSequence 0 16
        = [false, true, false, false, false, true, false, false, true, true, false, false, false,
           true, false, true]

/-- 40_framing.md R215, corner cases, made exact: flipping any one bit of the input changes the CRC,
whatever the seed. -/
def Obligations.CrcDetectsEverySingleBitFlip : Prop :=
  ∀ (l : List Byte) (m k : Nat) (init : BitVec 24), m < l.length → k < 8 →
    crc24 (l.set m (l.getD m 0 ^^^ (1#8 <<< k))) init ≠ crc24 l init

/-- 40_framing.md R210 to R214: the register starts at the seed and each input bit steps it with the
polynomial 0x00065B, most significant bit first; bit `i` of the CRC is bit `23 - i` of the register, the
CRC of nothing is the reversed seed, and the receiver puts the three transmitted bytes together
again. -/
def Obligations.CrcIsTheReversedRegister : Prop :=
  (∀ init : BitVec 24, crcRegister init [] = init)
    ∧ (∀ (init : BitVec 24) (bits : List Bool) (b : Bool),
        crcRegister init (bits ++ [b])
          = if (crcRegister init bits).getLsbD 23 ^^ b then
              ((crcRegister init bits) <<< 1) ^^^ 0x00065B#24
            else (crcRegister init bits) <<< 1)
    ∧ (∀ (bytes : List Byte) (init : BitVec 24) (i : Nat), i < 24 →
        (crc24 bytes init).getLsbD i = (crcRegister init (bitsOf bytes)).getLsbD (23 - i))
    ∧ (∀ init : BitVec 24, crc24 [] init = reverse24 init)
    ∧ crc24 [] 0x555555 = 0xAAAAAA
    ∧ ∀ (c : BitVec 24) (b0 b1 b2 : Byte), crcBytes c = [b0, b1, b2] → crcOfBytes b0 b1 b2 = c

/-- 40_framing.md R220: bits and bytes. -/
def Obligations.BitsAndBytesConvert : Prop :=
  (∀ (l : List Byte) (m k : Nat), m < l.length → k < 8 →
      (bitsOf l).getD (8 * m + k) false = (l.getD m 0).getLsbD k)
    ∧ (∀ c : List Bool, (bytesOf c).length = c.length / 8)
    ∧ (∀ (c : List Bool) (m k : Nat), m < c.length / 8 → k < 8 →
        ((bytesOf c).getD m 0).getLsbD k = c.getD (8 * m + k) false)
    ∧ (∀ l : List Byte, bytesOf (bitsOf l) = l)

/-- 40_framing.md R218, R219, R221: the patterns, and that the alternation of the preamble runs on
into the access address. -/
def Obligations.SyncPatternIsPreambleThenAddress : Prop :=
  ∀ (aa : Word) (p : PhyCfg),
    (syncPattern aa p).length = p.preambleLen + 32
      ∧ (∀ i, i < p.preambleLen →
          ((syncPattern aa p).getD i false).toNat = ((aa.getLsbD 0).toNat + i) % 2)
      ∧ (∀ i, i < 32 → (syncPattern aa p).getD (p.preambleLen + i) false = aa.getLsbD i)
      ∧ (syncPattern aa p).getD (p.preambleLen - 1) false ≠ aa.getLsbD 0
      ∧ (p.phyMode = 0 → (syncPattern aa p).length = 40)
      ∧ (p.phyMode = 1 → (syncPattern aa p).length = 48)

/-- 43_demodulator.md R330: the correlation counts mismatches, and a position is a hit exactly with at
most four of them. -/
def Obligations.HitMeansAtMostFourMismatches : Prop :=
  ∀ (aa : Word) (p : PhyCfg) (c : List Bool), p.phyMode.toNat < 2 → p.syncLen ≤ c.length →
    correlation c (syncPattern aa p) = p.syncLen - 2 * mismatches c (syncPattern aa p)
      ∧ (isHit c (syncPattern aa p) = true ↔ mismatches c (syncPattern aa p) ≤ 4)

/-- 43_demodulator.md R330: the search finds the leftmost hit among the full overlaps. -/
def Obligations.SyncIsTheLeftmostHit : Prop :=
  ∀ (c pattern : List Bool),
    (∀ pos, findSync c pattern = some pos ↔
        (pos + pattern.length ≤ c.length ∧ isHit (c.drop pos) pattern = true
          ∧ ∀ i, i < pos → isHit (c.drop i) pattern = false))
      ∧ (findSync c pattern = none ↔
          ∀ i, i + pattern.length ≤ c.length → isHit (c.drop i) pattern = false)

/-- 43_demodulator.md R332: where the exact pattern stands, the positions one bit to the left and one
bit to the right are no hits. -/
def Obligations.PositionNextToThePatternIsNoHit : Prop :=
  ∀ (aa : Word) (p : PhyCfg) (c : List Bool) (i : Nat), p.phyMode.toNat < 2 →
    (c.drop i).take p.syncLen = syncPattern aa p →
    (i + 1 + p.syncLen ≤ c.length → isHit (c.drop (i + 1)) (syncPattern aa p) = false)
      ∧ (0 < i → isHit (c.drop (i - 1)) (syncPattern aa p) = false)

/-! ## Numbers -/

/-- 00_scope.md R13: `round_half_even`; and 41_pulse_shaper.md R261, 10_state.md R40: the samples per
symbol of some rates. -/
def Obligations.RoundHalfEvenIsNearestTiesToEven : Prop :=
  (∀ (a b : Nat), 0 < b →
      2 * ((roundHalfEven a b : Int) * b - a).natAbs ≤ b
        ∧ (2 * ((roundHalfEven a b : Int) * b - a).natAbs = b → roundHalfEven a b % 2 = 0))
    ∧ roundHalfEven 2500000 1000000 = 2 ∧ roundHalfEven 500000 1000000 = 0
    ∧ CfgRegs.reset.sps = 8
    ∧ CfgRegs.sps
        { CfgRegs.reset with phycfg := { CfgRegs.reset.phycfg with phyMode := 1 } } = 4

/-- 00_scope.md R12, 60_exceptions.md R405: rounding is to nearest with ties to even, and the sum,
difference, product and quotient of finite values are the exact ones rounded once. An exact zero has
the sign that IEEE 754 gives it. -/
def Obligations.RoundingIsToNearest : Prop :=
  (∀ (neg : Bool) (n d : Nat) (e : Int), 0 < d →
      RoundedTo ((if neg then -1 else 1) * ((n : ℚ) / d) * (2 : ℚ) ^ e) (fround neg n d e))
    ∧ ∀ (x y : F64) (a b : ℚ), finiteValue x = some a → finiteValue y = some b →
        RoundedTo (a + b) (fadd x y) ∧ RoundedTo (a - b) (fsub x y)
          ∧ RoundedTo (a * b) (fmul x y) ∧ (b ≠ 0 → RoundedTo (a / b) (fdiv x y))
          ∧ (a + b = 0 → fadd x y = fzero (fsign x && fsign y))
          ∧ (a * b = 0 → fmul x y = fzero (fsign x != fsign y))
          ∧ (a = 0 → b ≠ 0 → fdiv x y = fzero (fsign x != fsign y))

/-- 30_encoding.md R148: the UQ16.16 operands `h` and `B` are exact, and so is the signed `f_off`. -/
def Obligations.ConfigurationOperandsAreExact : Prop :=
  ∀ (c : CfgRegs),
    finiteValue c.h = some ((c.modIndex.toNat : ℚ) / 65536)
      ∧ finiteValue c.b = some ((c.bt.toNat : ℚ) / 65536)
      ∧ finiteValue c.fs = some (c.sampleRate.toNat : ℚ)
      ∧ finiteValue c.fOff = some (c.txFoff.toInt : ℚ)

/-- 00_scope.md R12, 43_demodulator.md R327: the comparison of finite values is that of the numbers,
a comparison with a NaN is false, and so a NaN and a zero of either sign decide for bit 0. -/
def Obligations.ComparisonIsOfValues : Prop :=
  (∀ (x y : F64) (a b : ℚ), finiteValue x = some a → finiteValue y = some b →
      (flt x y = true ↔ a < b))
    ∧ (∀ x y : F64, fisNaN x = true ∨ fisNaN y = true → flt x y = false)
    ∧ (∀ x : F64, fisNaN x = true ∨ fisZero x = true → decideBit x = false)

/-- 43_demodulator.md R324: the chosen phase has the greatest energy and is the first that has it; a
phase whose energy is a NaN is never preferred. -/
def Obligations.TimingPicksTheFirstPhaseOfGreatestEnergy : Prop :=
  ∀ (z : List F64) (sps : Nat), 0 < sps →
    bestPhase z sps < sps
      ∧ (∀ p, p < sps → flt (phaseEnergy z sps (bestPhase z sps)) (phaseEnergy z sps p) = false)
      ∧ ∀ p, p < bestPhase z sps →
          flt (phaseEnergy z sps p) (phaseEnergy z sps (bestPhase z sps)) = true
            ∨ fisNaN (phaseEnergy z sps p) = true

/-- 43_demodulator.md R322, R324, R325, R327: the number of decided bits follows from the operands, it
fits `RXBIT`, and the timing phase is below `sps`. -/
def Obligations.DecidedBitsFitTheBuffer : Prop :=
  ∀ (c : CfgRegs) (x : List Cx), demodulateCheck c = .ok → x.length = c.iqNsamp.toNat →
    (frontEnd c x).z.length
        = (if x.length ≤ 1 then 0
           else (x.length - 1) + (if c.phycfg.mfEn then c.pulseLen else c.sps) - 1)
      ∧ (frontEnd c x).bits.length = (frontEnd c x).z.length / c.sps
      ∧ (frontEnd c x).bits.length = c.symbolCount
      ∧ (frontEnd c x).bits.length ≤ 131072
      ∧ (frontEnd c x).pstar < c.sps

/-! ## The host port -/

/-- 20_memory.md R110, R104: which accesses are admitted. -/
def Obligations.AdmittedAccesses : Prop :=
  ∀ (a : Nat) (w : Width),
    admitted a w = true ↔
      (a < 0x100 ∧ w = .w32 ∧ a % 4 = 0)
        ∨ (a % Width.bytes w = 0
            ∧ ((0x001000 ≤ a ∧ a + Width.bytes w ≤ 0x001400)
                ∨ (0x001400 ≤ a ∧ a + Width.bytes w ≤ 0x001500)
                ∨ (0x002000 ≤ a ∧ a + Width.bytes w ≤ 0x004000)
                ∨ (0x004000 ≤ a ∧ a + Width.bytes w ≤ 0x008000)
                ∨ (0x008000 ≤ a ∧ a + Width.bytes w ≤ 0x00C000)
                ∨ (0x100000 ≤ a ∧ a + Width.bytes w ≤ 0x200000)))

/-- 60_exceptions.md R407: a bus error changes nothing; a read then returns 0. The answer is the
model's own field (log 17). -/
def Obligations.BusErrorChangesNothing : Prop :=
  ∀ (s : State) (a : Nat) (w : Width), admitted a w = false →
    s.hostRead a w = { s with response := some { busError := true, data := 0 } }
      ∧ ∀ d, s.hostWrite a w d
          = .next { s with response := some { busError := true, data := 0 } }

/-- 20_memory.md R112: a host read has no side effect: only the answer and the model's count of free
values change (log 14, 17). -/
def Obligations.HostReadHasNoSideEffect : Prop :=
  ∀ (s : State) (a : Nat) (w : Width), OnlyAnswered s (s.hostRead a w)

/-- 20_memory.md R101, R120 to R122, 70_reset_and_hazards.md R463: a host read of written bytes of a
buffer that are not in the output footprint of a running command returns the bytes in memory, whoever
wrote them, least significant first; a register outside that footprint reads its value, a reserved
offset 0. With no command running there is no such footprint, and an admitted write to a buffer
completes, changes only its own bytes, and is what a read of the same place returns. -/
def Obligations.BufferReadReturnsTheLastWrite : Prop :=
  (∀ (s : State) (a : Nat) (w : Width), admitted a w = true → 0x100 ≤ a →
      (∀ j, j < Width.bytes w → s.mem.mask (a + j) = 0xFF
        ∧ ∀ i, s.activeInstr = some i → spansMask (outputSpans i s.cfg s.mem) (a + j) = 0) →
      ∃ d, (s.hostRead a w).response = some { busError := false, data := d }
        ∧ ∀ j, j < 8 →
            d.extractLsb' (8 * j) 8 = if j < Width.bytes w then s.mem.byte (a + j) else 0)
    ∧ (∀ (s : State) (r : Reg), (∀ i, s.activeInstr = some i → r ∉ outputRegs i) →
        (s.hostRead (Reg.offset r) .w32).response
          = some { busError := false, data := (s.reg r).setWidth 64 })
    ∧ (∀ s : State, s.running = none → s.activeInstr = none)
    ∧ ∀ (s : State) (a : Nat) (w : Width) (d : DWord), s.mem.wf = true → s.running = none →
        admitted a w = true →
        (0x100 ≤ a →
          ∃ t, s.hostWrite a w d = .next t
            ∧ t = { s with mem := t.mem, response := t.response }
            ∧ (t.hostRead a w).response
                = some { busError := false,
                         data := d &&& BitVec.ofNat 64 (2 ^ (8 * Width.bytes w) - 1) }
            ∧ Memory.SameOutside [⟨a, 0, 8 * Width.bytes w⟩] s.mem t.mem)
          ∧ (a < 0x100 →
              (s.hostRead a w).response
                = some { busError := false,
                         data := match regAt a with
                           | some r => (s.reg r).setWidth 64
                           | none => 0 })

/-- 10_state.md R34, R35, R38 to R50: with no command running, a write to `CTRL` or to a configuration
register stores the bits that are not reserved, a reserved bit reading 0, and changes no other
register; a write to a read-only register or a reserved offset is ignored. -/
def Obligations.RegisterWriteStoresTheFieldBits : Prop :=
  ∀ (s : State) (d : DWord), s.running = none →
    (∀ r : Reg, Reg.stores r = true →
        ∃ t, s.hostWrite (Reg.offset r) .w32 d = .next t
          ∧ t.reg r = d.setWidth 32 &&& storedMask r
          ∧ (∀ q, q ≠ r → t.reg q = s.reg q)
          ∧ t = { s with regs := t.regs, irqEn := t.irqEn, response := t.response })
      ∧ (∀ r : Reg, Reg.readOnly r = true →
          ∃ t, s.hostWrite (Reg.offset r) .w32 d = .next t ∧ OnlyAnswered s t)
      ∧ ∀ a, a < 0x100 → a % 4 = 0 → regAt a = none →
          (∃ t, s.hostWrite a .w32 d = .next t ∧ OnlyAnswered s t)
            ∧ (s.hostRead a .w32).response = some { busError := false, data := 0 }

/-- 10_state.md R37: the fields of `STATUS` as the host reads them, and what writing it does: bits 1 to
3 are cleared where a 1 is written, everything else stays. -/
def Obligations.StatusBitsAreClearedByWritingOne : Prop :=
  ∀ (s : State) (d : DWord), ∃ t, s.hostWrite 0x004 .w32 d = .next t
    ∧ t.reg .status = s.reg .status &&& ~~~(d.setWidth 32 &&& 0x0000000E)
    ∧ (∀ q, q ≠ .status → t.reg q = s.reg q)
    ∧ t = { s with status := t.status, response := t.response }

/-- 10_state.md R37, R32, 60_exceptions.md R401: where the fields of `STATUS` stand, and the numbers of
the stages and of the error codes. -/
def Obligations.StatusWordHoldsItsFields : Prop :=
  ∀ (s : State),
    (s.reg .status).getLsbD 0 = s.busy ∧ (s.reg .status).getLsbD 1 = s.status.done
      ∧ (s.reg .status).getLsbD 2 = s.status.err ∧ (s.reg .status).getLsbD 3 = s.status.cmdOvr
      ∧ (s.reg .status).extractLsb' 4 4 = 0
      ∧ (∀ code n,
          (code, n) ∈
            [ (ErrCode.ok, 0), (.illegalCmd, 1), (.badPhy, 2), (.badRate, 3), (.badParam, 4)
            , (.badChannel, 5), (.emptyInput, 6), (.length, 7) ] →
          s.status.errCode = code → ((s.reg .status).extractLsb' 8 4).toNat = n)
      ∧ (s.reg .status).extractLsb' 12 4 = 0
      ∧ (∀ stage n,
          (stage, n) ∈
            [ (Stage.idle, 0), (.start, 1), (.freqSync, 2), (.demod, 3), (.filter, 4)
            , (.timingSync, 5), (.bitDecision, 6), (.packetSync, 7), (.dewhiten, 8), (.parse, 9)
            , (.crcCheck, 10), (.done, 11), (.exec, 12) ] →
          s.status.stage = stage → ((s.reg .status).extractLsb' 16 4).toNat = n)
      ∧ (s.reg .status).extractLsb' 20 4 = 0
      ∧ (s.reg .status).extractLsb' 24 8 = s.status.lastOp

/-- 70_reset_and_hazards.md R462: a host write to the running command's footprint stops the model with
FOOTPRINT_WRITE; outside it a buffer write stores as when the core is idle. What the footprint is rests
on choices of the model in three places: writes to result registers in the output footprint count as
hits (log 7), an ASSEMBLE whose `PDU_IN[1]` has not been written has the footprint of a length of 0
(log 23), and a DEMODULATE with a sample that has not been written has none in `PDU_OUT` (log 26). -/
def Obligations.FootprintWriteFaults : Prop :=
  ∀ (s : State) (i : Instr) (w : Width) (d : DWord), s.activeInstr = some i →
    (∀ a, 0x100 ≤ a → admitted a w = true →
        ((∃ b, a ≤ b ∧ b < a + Width.bytes w
            ∧ spansMask (inputSpans i s.cfg s.mem ++ outputSpans i s.cfg s.mem) b ≠ 0) →
          ∃ b, s.hostWrite a w d = .fault (.footprintWrite i b))
        ∧ ((∀ b, a ≤ b → b < a + Width.bytes w →
              spansMask (inputSpans i s.cfg s.mem ++ outputSpans i s.cfg s.mem) b = 0) →
            ∃ t, s.hostWrite a w d = .next t
              ∧ t = { s with mem := s.mem.writeBytes a (writeBytesOf w d), response := t.response }))
      ∧ ∀ r : Reg,
          (r ∈ outputRegs i →
              s.hostWrite (Reg.offset r) .w32 d = .fault (.footprintWrite i (Reg.offset r)))
            ∧ (r ∉ outputRegs i → ∃ t, s.hostWrite (Reg.offset r) .w32 d = .next t)

/-- 70_reset_and_hazards.md R461: what a command writes lies in its output footprint. -/
def Obligations.CommandWritesOnlyItsOutputFootprint : Prop :=
  ∀ (i : Instr) (s t : State), s.mem.wf = true → (i = .demodulate → s.status.stage = .start) →
    exec i s = .next t →
    (∀ r : Reg, r ≠ .status →
        (r ∉ outputRegs i ∨ checkOf i s.cfg s.mem ≠ .ok) → t.reg r = s.reg r)
      ∧ Memory.SameOutside
          (if checkOf i s.cfg s.mem = .ok then outputSpans i s.cfg s.mem else []) s.mem t.mem

/-- 70_reset_and_hazards.md R461, 20_memory.md R105: what a command does depends on memory only through
its input footprint: with the same bits there and any others elsewhere it leaves the same registers,
and the same bits in its output footprint. That the encodings stored for a NaN are also the same rests
on the model's free values being a function of how many have been drawn (log 8, 14). -/
def Obligations.CommandDependsOnlyOnItsInputFootprint : Prop :=
  ∀ (i : Instr) (s t : State) (m : Memory), s.mem.wf = true → m.wf = true →
    (i = .demodulate → s.status.stage = .start) → checkOf i s.cfg s.mem = .ok →
    (∀ a k, k < 8 → ∀ sp ∈ inputSpans i s.cfg s.mem, sp.covers a k = true →
      (m.byte a).getLsbD k = (s.mem.byte a).getLsbD k
        ∧ (m.mask a).getLsbD k = (s.mem.mask a).getLsbD k) →
    exec i s = .next t →
    ∃ u, exec i { s with mem := m } = .next u ∧ u = { t with mem := u.mem }
      ∧ ∀ a k, k < 8 → ∀ sp ∈ outputSpans i s.cfg s.mem, sp.covers a k = true →
          (u.mem.byte a).getLsbD k = (t.mem.byte a).getLsbD k
            ∧ (u.mem.mask a).getLsbD k = (t.mem.mask a).getLsbD k

/-- 70_reset_and_hazards.md R470, R471: the `wait` loop of a host that polls a running command ends
within twelve polls at the model's pace of one stage between polls (log 24), with `DONE` set, unless
the command stops with a fault. -/
def Obligations.PollingEndsOnceTheCommandCompletes : Prop :=
  ∀ (s : State) (r : Running), s.running = some r → s.status.done = false →
    (∃ t, runWait 12 s = .done t () ∧ t.status.done = true ∧ t.running = none)
      ∨ ∃ i a, runWait 12 s = .fault (.uninitRead i a)

/-- 60_exceptions.md R442: the packet scan ends, since with `sps > 0`, as the rule assumes, every round
advances by at least eight samples (the pace of the polling is log 24, the symbol rate for `PHY_MODE` 2
and 3 log 28, the excluded case `sps = 0` log 32). -/
def Obligations.PacketScanEnds : Prop :=
  ∀ (s : State) (base n maxPackets : Nat), s.running = none → 0 < s.regs.sps →
    ∀ u, findPackets s base n maxPackets ≠ .unfinished u

/-! ## Reset and the invariant -/

/-- 10_state.md R61: every register after reset, as the host reads it; there is no running command,
so no snapshot and no working state; nothing in the buffers counts as written. -/
def Obligations.ResetRegisterValues : Prop :=
  (∀ r ∈ [Reg.cmd, .status, .ctrl, .txFoff, .txNbits, .iqNsamp, .iqOff, .opOff, .opLen,
      .crcNbytes, .resFlags, .resTiming, .resSyncPos, .resAa, .resHdr, .resPduLen, .resNbits,
      .resCrc, .resCrcRx, .resSps, .resCoefLen, .resRssiLo, .resRssiHi, .resFreqLo, .resFreqHi],
      State.reset.reg r = 0)
    ∧ State.reset.reg .phycfg = 0x00032500 ∧ State.reset.reg .sampleRate = 8000000
    ∧ State.reset.reg .modIndex = 0x00008000 ∧ State.reset.reg .bt = 0x00008000
    ∧ State.reset.reg .span = 3 ∧ State.reset.reg .accessAddr = 0x8E89BED6
    ∧ State.reset.reg .crcInit = 0x00555555
    ∧ State.reset.running = none
    ∧ ∀ a, State.reset.mem.mask a = 0

/-- 70_reset_and_hazards.md R450: the reset input, asserted at any time, abandons the running command,
gives every register its reset value and leaves every byte of every buffer unwritten. -/
def Obligations.ResetAbandonsEverything : Prop :=
  ∀ (s : State) (rest : List Input), s.inputs = .reset :: rest →
    ∃ t, step s = .next t ∧ t.running = none ∧ t.irq = false
      ∧ (∀ r : Reg, t.reg r = State.reset.reg r)
      ∧ ∀ a, t.mem.mask a = 0

/-- The invariant holds after reset. -/
def Obligations.ResetSatisfiesTheInvariant : Prop :=
  State.reset.Inv

/-- The invariant is kept by every step, whatever the host does: the memory stays canonical and inside
the buffers, the control point and `STATUS` stay consistent with the running command, its working
state stays that of the samples in `IQ`, and `RES_FLAGS` stays one of the combinations of
43_demodulator.md R341. -/
def Obligations.EveryStepKeepsTheInvariant : Prop :=
  ∀ (s t : State), s.Inv → step s = .next t → t.Inv
end

