-- ==== Sys2Proof/Laws/State.lean ====
section
/-! SUPPORT. One lemma per field per update of the state, each true by definition: what the shared
operations write and what they leave unchanged. -/

namespace Sys2Proof.Machine

/-! ### State.accept -/

@[simp] theorem State.accept_status (s : State) (w : Word) :
    (s.accept w).status
      = { s.status with
          done := false
          err := false
          lastOp := w.extractLsb' 0 8
          stage := firstStage w } := rfl

@[simp] theorem State.accept_irqEn (s : State) (w : Word) :
    (s.accept w).irqEn = s.irqEn := rfl

@[simp] theorem State.accept_regs (s : State) (w : Word) :
    (s.accept w).regs = s.regs := rfl

@[simp] theorem State.accept_res (s : State) (w : Word) :
    (s.accept w).res = s.res := rfl

@[simp] theorem State.accept_mem (s : State) (w : Word) :
    (s.accept w).mem = s.mem := rfl

@[simp] theorem State.accept_running (s : State) (w : Word) :
    (s.accept w).running = some { word := w, cfg := s.regs, work := Work.empty } := rfl

@[simp] theorem State.accept_inputs (s : State) (w : Word) :
    (s.accept w).inputs = s.inputs := rfl

@[simp] theorem State.accept_response (s : State) (w : Word) :
    (s.accept w).response = s.response := rfl

@[simp] theorem State.accept_draws (s : State) (w : Word) :
    (s.accept w).draws = s.draws := rfl

/-! ### State.complete -/

@[simp] theorem State.complete_status (s : State) (code : ErrCode) :
    (s.complete code).status
      = { s.status with
          errCode := code
          err := decide (code ≠ .ok)
          stage := .done
          done := true } := rfl

@[simp] theorem State.complete_irqEn (s : State) (code : ErrCode) :
    (s.complete code).irqEn = s.irqEn := rfl

@[simp] theorem State.complete_regs (s : State) (code : ErrCode) :
    (s.complete code).regs = s.regs := rfl

@[simp] theorem State.complete_res (s : State) (code : ErrCode) :
    (s.complete code).res = s.res := rfl

@[simp] theorem State.complete_mem (s : State) (code : ErrCode) :
    (s.complete code).mem = s.mem := rfl

@[simp] theorem State.complete_running (s : State) (code : ErrCode) :
    (s.complete code).running = none := rfl

@[simp] theorem State.complete_inputs (s : State) (code : ErrCode) :
    (s.complete code).inputs = s.inputs := rfl

@[simp] theorem State.complete_response (s : State) (code : ErrCode) :
    (s.complete code).response = s.response := rfl

@[simp] theorem State.complete_draws (s : State) (code : ErrCode) :
    (s.complete code).draws = s.draws := rfl

/-! ### State.refuse -/

@[simp] theorem State.refuse_status (s : State) (code : ErrCode) :
    (s.refuse code).status
      = { s.status with
          errCode := code
          err := decide (code ≠ .ok)
          stage := .done
          done := true } := rfl

@[simp] theorem State.refuse_irqEn (s : State) (code : ErrCode) :
    (s.refuse code).irqEn = s.irqEn := rfl

@[simp] theorem State.refuse_regs (s : State) (code : ErrCode) :
    (s.refuse code).regs = s.regs := rfl

@[simp] theorem State.refuse_res (s : State) (code : ErrCode) :
    (s.refuse code).res = s.res := rfl

@[simp] theorem State.refuse_mem (s : State) (code : ErrCode) :
    (s.refuse code).mem = s.mem := rfl

@[simp] theorem State.refuse_running (s : State) (code : ErrCode) :
    (s.refuse code).running = none := rfl

@[simp] theorem State.refuse_inputs (s : State) (code : ErrCode) :
    (s.refuse code).inputs = s.inputs := rfl

@[simp] theorem State.refuse_response (s : State) (code : ErrCode) :
    (s.refuse code).response = s.response := rfl

@[simp] theorem State.refuse_draws (s : State) (code : ErrCode) :
    (s.refuse code).draws = s.draws := rfl

/-! ### State.advance -/

@[simp] theorem State.advance_status (s : State) (k : Work) (g : Stage) :
    (s.advance k g).status = { s.status with stage := g } := rfl

@[simp] theorem State.advance_irqEn (s : State) (k : Work) (g : Stage) :
    (s.advance k g).irqEn = s.irqEn := rfl

@[simp] theorem State.advance_regs (s : State) (k : Work) (g : Stage) :
    (s.advance k g).regs = s.regs := rfl

@[simp] theorem State.advance_res (s : State) (k : Work) (g : Stage) :
    (s.advance k g).res = s.res := rfl

@[simp] theorem State.advance_mem (s : State) (k : Work) (g : Stage) :
    (s.advance k g).mem = s.mem := rfl

@[simp] theorem State.advance_running (s : State) (k : Work) (g : Stage) :
    (s.advance k g).running = some { word := s.commandWord, cfg := s.cfg, work := k } := rfl

@[simp] theorem State.advance_inputs (s : State) (k : Work) (g : Stage) :
    (s.advance k g).inputs = s.inputs := rfl

@[simp] theorem State.advance_response (s : State) (k : Work) (g : Stage) :
    (s.advance k g).response = s.response := rfl

@[simp] theorem State.advance_draws (s : State) (k : Work) (g : Stage) :
    (s.advance k g).draws = s.draws := rfl

/-! ### State.writeF64s -/

@[simp] theorem State.writeF64s_status (s : State) (a : Nat) (l : List F64) :
    (s.writeF64s a l).status = s.status := rfl

@[simp] theorem State.writeF64s_irqEn (s : State) (a : Nat) (l : List F64) :
    (s.writeF64s a l).irqEn = s.irqEn := rfl

@[simp] theorem State.writeF64s_regs (s : State) (a : Nat) (l : List F64) :
    (s.writeF64s a l).regs = s.regs := rfl

@[simp] theorem State.writeF64s_res (s : State) (a : Nat) (l : List F64) :
    (s.writeF64s a l).res = s.res := rfl

@[simp] theorem State.writeF64s_mem (s : State) (a : Nat) (l : List F64) :
    (s.writeF64s a l).mem = s.mem.writeBytes a (storedBytes s.draws l) := rfl

@[simp] theorem State.writeF64s_running (s : State) (a : Nat) (l : List F64) :
    (s.writeF64s a l).running = s.running := rfl

@[simp] theorem State.writeF64s_inputs (s : State) (a : Nat) (l : List F64) :
    (s.writeF64s a l).inputs = s.inputs := rfl

@[simp] theorem State.writeF64s_response (s : State) (a : Nat) (l : List F64) :
    (s.writeF64s a l).response = s.response := rfl

@[simp] theorem State.writeF64s_draws (s : State) (a : Nat) (l : List F64) :
    (s.writeF64s a l).draws = s.draws + l.length := rfl

/-! ### State.applyReset -/

@[simp] theorem State.applyReset_status (s : State) :
    (s.applyReset).status = Status.reset := rfl

@[simp] theorem State.applyReset_irqEn (s : State) :
    (s.applyReset).irqEn = false := rfl

@[simp] theorem State.applyReset_regs (s : State) :
    (s.applyReset).regs = CfgRegs.reset := rfl

@[simp] theorem State.applyReset_res (s : State) :
    (s.applyReset).res = Results.reset := rfl

@[simp] theorem State.applyReset_mem (s : State) :
    (s.applyReset).mem = Memory.unwritten := rfl

@[simp] theorem State.applyReset_running (s : State) :
    (s.applyReset).running = none := rfl

@[simp] theorem State.applyReset_inputs (s : State) :
    (s.applyReset).inputs = s.inputs := rfl

@[simp] theorem State.applyReset_response (s : State) :
    (s.applyReset).response = none := rfl

@[simp] theorem State.applyReset_draws (s : State) :
    (s.applyReset).draws = s.draws := rfl

/-! ### The views of the running command -/

@[simp] theorem State.complete_cfg (s : State) (code : ErrCode) : (s.complete code).cfg = s.regs
    := rfl

@[simp] theorem State.complete_busy (s : State) (code : ErrCode) : (s.complete code).busy = false
    := rfl

@[simp] theorem State.accept_cfg (s : State) (w : Word) : (s.accept w).cfg = s.regs := rfl

@[simp] theorem State.accept_work (s : State) (w : Word) : (s.accept w).work = Work.empty := rfl

@[simp] theorem State.accept_commandWord (s : State) (w : Word) : (s.accept w).commandWord = w :=
    rfl

@[simp] theorem State.accept_busy (s : State) (w : Word) : (s.accept w).busy = true := rfl

@[simp] theorem State.accept_fetch (s : State) (w : Word) : (s.accept w).fetch = some w := rfl

@[simp] theorem State.advance_cfg (s : State) (k : Work) (g : Stage) : (s.advance k g).cfg = s.cfg
    := rfl

@[simp] theorem State.advance_work (s : State) (k : Work) (g : Stage) : (s.advance k g).work = k
    := rfl

@[simp] theorem State.advance_commandWord (s : State) (k : Work) (g : Stage) :
    (s.advance k g).commandWord = s.commandWord := rfl

theorem State.cfg_of_running (s : State) (r : Running) (h : s.running = some r) : s.cfg = r.cfg :=
    by
  simp [State.cfg, h]

theorem State.work_of_running (s : State) (r : Running) (h : s.running = some r) :
    s.work = r.work := by
  simp [State.work, h]

theorem State.commandWord_of_running (s : State) (r : Running) (h : s.running = some r) :
    s.commandWord = r.word := by
  simp [State.commandWord, h]

theorem State.fetch_of_running (s : State) (r : Running) (h : s.running = some r) :
    s.fetch = some r.word := by
  simp [State.fetch, h]

/-! ### What the bodies of the commands write

`rfl` on a field of one of these compares whole states first; these lemmas do not. -/

@[simp] theorem assembled_status (s : State) (pdu : List Byte) :
    (assembled s pdu).status = s.status := by unfold assembled; rfl

@[simp] theorem assembled_irqEn (s : State) (pdu : List Byte) :
    (assembled s pdu).irqEn = s.irqEn := by unfold assembled; rfl

@[simp] theorem assembled_regs (s : State) (pdu : List Byte) :
    (assembled s pdu).regs
      = { s.regs with txNbits := BitVec.ofNat 32 (packetStream s.cfg pdu).length } := by
  unfold assembled; rfl

@[simp] theorem assembled_res (s : State) (pdu : List Byte) :
    (assembled s pdu).res = { s.res with crc := crc24 pdu s.cfg.crcInit } := by
  unfold assembled; rfl

@[simp] theorem assembled_mem (s : State) (pdu : List Byte) :
    (assembled s pdu).mem = s.mem.writeBits Config.txbitBase 0 (packetStream s.cfg pdu) := by
  unfold assembled; rfl

@[simp] theorem modulated_status (s : State) (bits : List Bool) :
    (modulated s bits).status = s.status := by unfold modulated; rfl

@[simp] theorem modulated_irqEn (s : State) (bits : List Bool) :
    (modulated s bits).irqEn = s.irqEn := by unfold modulated; rfl

@[simp] theorem modulated_regs (s : State) (bits : List Bool) :
    (modulated s bits).regs
      = { s.regs with iqNsamp := BitVec.ofNat 32 s.cfg.modulatedLen } := by
  unfold modulated; rfl

@[simp] theorem modulated_res (s : State) (bits : List Bool) :
    (modulated s bits).res = { s.res with sps := BitVec.ofNat 32 s.cfg.sps } := by
  unfold modulated; rfl

@[simp] theorem pulseGenerated_status (s : State) :
    (pulseGenerated s).status = s.status := by unfold pulseGenerated; rfl

@[simp] theorem pulseGenerated_irqEn (s : State) :
    (pulseGenerated s).irqEn = s.irqEn := by unfold pulseGenerated; rfl

@[simp] theorem pulseGenerated_regs (s : State) :
    (pulseGenerated s).regs = s.regs := by unfold pulseGenerated; rfl

@[simp] theorem pulseGenerated_res (s : State) :
    (pulseGenerated s).res
      = { s.res with
          coefLen := BitVec.ofNat 32 s.cfg.pulseLen, sps := BitVec.ofNat 32 s.cfg.sps } := by
  unfold pulseGenerated; rfl

@[simp] theorem demodExit_irqEn (s : State) (k : Work) (e : DemodExit) :
    (demodExit s k e).irqEn = s.irqEn := by unfold demodExit; rfl

@[simp] theorem demodExit_regs (s : State) (k : Work) (e : DemodExit) :
    (demodExit s k e).regs = s.regs := by unfold demodExit; rfl

@[simp] theorem demodExit_running (s : State) (k : Work) (e : DemodExit) :
    (demodExit s k e).running = none := by unfold demodExit; rfl

@[simp] theorem demodExit_res (s : State) (k : Work) (e : DemodExit) :
    (demodExit s k e).res = exitResults s.cfg k e s.draws s.res := by unfold demodExit; rfl

@[simp] theorem demodExit_mem (s : State) (k : Work) (e : DemodExit) :
    (demodExit s k e).mem = s.mem.writeBytes Config.pduOutBase e.pdu := by unfold demodExit; rfl

end Sys2Proof.Machine
end

