-- ==== Sys2Proof/Laws/Memory.lean ====
section
/-! SUPPORT. The memory laws: a read after a write, canonical form kept, and what the reads and
writes of several bits or bytes do. -/

namespace Sys2Proof.Machine

/-! ### Cells -/

@[simp] theorem getCell_nil (a : Nat) : getCell [] a = unlistedByte := rfl

/-- A list that starts above `a` holds nothing at `a`. -/
theorem getCell_of_cellsWf {lo : Nat} {l : List Host.Cell} (h : cellsWf lo l = true) {a : Nat}
    (ha : a < lo) : getCell l a = unlistedByte := by
  induction l generalizing lo with
  | nil => rfl
  | cons c l ih =>
    obtain ⟨b, v⟩ := c
    simp only [cellsWf, Bool.and_eq_true, decide_eq_true_eq] at h
    have hb : b ≠ a := by omega
    simp only [getCell, hb, if_false]
    exact ih h.2 (by omega)

theorem cellsWf_mono {lo lo' : Nat} {l : List Host.Cell} (h : cellsWf lo l = true)
    (hl : lo' ≤ lo) : cellsWf lo' l = true := by
  cases l with
  | nil => rfl
  | cons c l =>
    obtain ⟨b, v⟩ := c
    simp only [cellsWf, Bool.and_eq_true, decide_eq_true_eq] at h ⊢
    exact ⟨⟨by omega, h.1.2⟩, h.2⟩

/-- A read after a write to the same address gives the value written; every other address reads as
before. -/
theorem getCell_setCell {lo : Nat} {l : List Host.Cell} (h : cellsWf lo l = true) (a : Nat)
    (v : Byte) (b : Nat) : getCell (setCell l a v) b = if b = a then v else getCell l b := by
  induction l generalizing lo with
  | nil =>
    by_cases hv : v = unlistedByte
    · subst hv; simp [setCell]
    · by_cases hb : b = a
      · subst hb; simp [setCell, hv, getCell]
      · have : a ≠ b := fun e => hb e.symm
        simp [setCell, hv, getCell, hb, this]
  | cons c l ih =>
    obtain ⟨d, u⟩ := c
    simp only [cellsWf, Bool.and_eq_true, decide_eq_true_eq] at h
    have ih := ih h.2
    have hnil : ∀ x, x ≤ d → getCell l x = unlistedByte := fun x hx => getCell_of_cellsWf h.2 (by omega)
    by_cases h1 : d < a
    · simp only [setCell, h1, if_true, getCell, ih]
      by_cases hb : d = b
      · have : b ≠ a := by omega
        simp [hb, this]
      · simp [hb]
    · by_cases h2 : d = a
      · subst h2
        by_cases hv : v = unlistedByte
        · subst hv
          by_cases hb : b = d
          · subst hb; simp [setCell, hnil b (Nat.le_refl _)]
          · have : d ≠ b := fun e => hb e.symm
            simp [setCell, getCell, hb, this]
        · by_cases hb : b = d
          · subst hb; simp [setCell, hv, getCell]
          · have : d ≠ b := fun e => hb e.symm
            simp [setCell, hv, getCell, hb, this]
      · have h3 : ¬ d < a := h1
        by_cases hv : v = unlistedByte
        · subst hv
          by_cases hb : b = a
          · subst hb
            have hd : d ≠ b := h2
            simp [setCell, h3, hd, getCell, hnil b (by omega)]
          · simp [setCell, h3, h2, hb]
        · by_cases hb : b = a
          · subst hb; simp [setCell, h3, h2, hv, getCell]
          · have : a ≠ b := fun e => hb e.symm
            simp [setCell, h3, h2, hv, getCell, hb, this]

/-- A write keeps the canonical form. -/
theorem cellsWf_setCell {lo : Nat} {l : List Host.Cell} (h : cellsWf lo l = true) {a : Nat}
    (ha : lo ≤ a) (v : Byte) : cellsWf lo (setCell l a v) = true := by
  induction l generalizing lo with
  | nil =>
    by_cases hv : v = unlistedByte
    · simp [setCell, hv, cellsWf]
    · simp [setCell, hv, cellsWf, ha]
  | cons c l ih =>
    obtain ⟨d, u⟩ := c
    have h0 := h
    simp only [cellsWf, Bool.and_eq_true, decide_eq_true_eq] at h
    obtain ⟨⟨hd, hu⟩, hl⟩ := h
    by_cases h1 : d < a
    · simp [setCell, h1, cellsWf, hd, hu, ih hl (by omega)]
    · by_cases h2 : d = a
      · subst h2
        by_cases hv : v = unlistedByte
        · simpa [setCell, hv] using cellsWf_mono hl (by omega)
        · simp [setCell, hv, cellsWf, hd, hl]
      · by_cases hv : v = unlistedByte
        · simpa [setCell, hv, h1, h2] using h0
        · simp [setCell, hv, h1, h2, cellsWf, ha, hu, hl]
          omega

/-- A cell of a canonical list is what reading its address gives. -/
theorem getCell_of_mem {lo : Nat} {l : List Host.Cell} (h : cellsWf lo l = true) {a : Nat} {v : Byte}
    (hm : (a, v) ∈ l) : getCell l a = v ∧ v ≠ unlistedByte := by
  induction l generalizing lo with
  | nil => cases hm
  | cons c l ih =>
    obtain ⟨d, u⟩ := c
    simp only [cellsWf, Bool.and_eq_true, decide_eq_true_eq] at h
    rcases List.mem_cons.1 hm with e | hm
    · cases e; exact ⟨by simp [getCell], h.1.2⟩
    · have hlo : ∀ {m : List Host.Cell} {k : Nat}, cellsWf k m = true → (a, v) ∈ m → k ≤ a := by
        intro m
        induction m with
        | nil => intro k _ hm; cases hm
        | cons c m ihm =>
          intro k hk hm
          obtain ⟨x, y⟩ := c
          simp only [cellsWf, Bool.and_eq_true, decide_eq_true_eq] at hk
          rcases List.mem_cons.1 hm with e | hm
          · cases e; exact hk.1.1
          · exact Nat.le_trans (by omega) (ihm hk.2 hm)
      have hda : d ≠ a := by have := hlo h.2 hm; omega
      simpa [getCell, hda] using ih h.2 hm

/-- An address that reads as something listed is listed. -/
theorem mem_of_getCell {l : List Host.Cell} {a : Nat} (h : getCell l a ≠ unlistedByte) :
    (a, getCell l a) ∈ l := by
  induction l with
  | nil => exact absurd rfl h
  | cons c l ih =>
    obtain ⟨d, u⟩ := c
    by_cases hd : d = a
    · simp [getCell, hd]
    · simp only [getCell, hd, if_false] at h ⊢
      exact List.mem_cons_of_mem _ (ih h)

/-- Canonical lists that read the same everywhere are the same list. -/
theorem cells_ext {lo : Nat} {l m : List Host.Cell} (hl : cellsWf lo l = true)
    (hm : cellsWf lo m = true) (h : ∀ a, getCell l a = getCell m a) : l = m := by
  induction l generalizing lo m with
  | nil =>
    cases m with
    | nil => rfl
    | cons c m =>
      obtain ⟨d, u⟩ := c
      have := h d
      simp only [cellsWf, Bool.and_eq_true, decide_eq_true_eq] at hm
      simp [getCell] at this
      exact absurd this.symm hm.1.2
  | cons c l ih =>
    obtain ⟨d, u⟩ := c
    simp only [cellsWf, Bool.and_eq_true, decide_eq_true_eq] at hl
    cases m with
    | nil =>
      have := h d
      simp [getCell] at this
      exact absurd this hl.1.2
    | cons c m =>
      obtain ⟨e, w⟩ := c
      simp only [cellsWf, Bool.and_eq_true, decide_eq_true_eq] at hm
      have hde : d = e := by
        rcases Nat.lt_trichotomy d e with hlt | heq | hgt
        · have := h d
          have hed : e ≠ d := by omega
          simp [getCell, hed, getCell_of_cellsWf hm.2 (show d < e + 1 by omega)] at this
          exact absurd this hl.1.2
        · exact heq
        · have := h e
          have hed : d ≠ e := by omega
          simp [getCell, hed, getCell_of_cellsWf hl.2 (show e < d + 1 by omega)] at this
          exact absurd this.symm hm.1.2
      subst hde
      have huw : u = w := by simpa [getCell] using h d
      subst huw
      have : l = m := by
        refine ih hl.2 hm.2 fun a => ?_
        by_cases ha : d = a
        · subst ha
          rw [getCell_of_cellsWf hl.2 (by omega), getCell_of_cellsWf hm.2 (by omega)]
        · simpa [getCell, ha] using h a
      rw [this]

/-! ### Memory: canonical form -/

/-- The canonical form, said by reading: both lists are canonical and no unmarked bit is set. -/
theorem Memory.wf_iff (m : Memory) :
    m.wf = true ↔ cellsWf 0 m.data = true ∧ cellsWf 0 m.written = true
      ∧ ∀ a, m.byte a &&& ~~~(m.mask a) = 0 := by
  unfold Memory.wf Memory.byte Memory.mask
  simp only [Bool.and_eq_true, List.all_eq_true, decide_eq_true_eq, and_assoc]
  refine ⟨fun ⟨hd, hw, h⟩ => ⟨hd, hw, fun a => ?_⟩, fun ⟨hd, hw, h⟩ => ⟨hd, hw, fun c hc => ?_⟩⟩
  · by_cases ha : getCell m.data a = unlistedByte
    · simp [ha, unlistedByte]
    · exact h _ (mem_of_getCell ha)
  · have := h c.1
    rwa [(getCell_of_mem hd (a := c.1) (v := c.2) hc).1] at this

theorem Memory.wf_data {m : Memory} (h : m.wf = true) : cellsWf 0 m.data = true :=
  ((Memory.wf_iff m).1 h).1

theorem Memory.wf_written {m : Memory} (h : m.wf = true) : cellsWf 0 m.written = true :=
  ((Memory.wf_iff m).1 h).2.1

theorem Memory.wf_bits {m : Memory} (h : m.wf = true) (a : Nat) :
    m.byte a &&& ~~~(m.mask a) = 0 :=
  ((Memory.wf_iff m).1 h).2.2 a

theorem Memory.unwritten_wf : Memory.unwritten.wf = true := rfl

/-! ### One byte, one bit -/

theorem Memory.byte_setByte {m : Memory} (h : m.wf = true) (a : Nat) (v : Byte) (b : Nat) :
    (m.setByte a v).byte b = if b = a then v else m.byte b :=
  getCell_setCell (Memory.wf_data h) a v b

theorem Memory.mask_setByte {m : Memory} (h : m.wf = true) (a : Nat) (v : Byte) (b : Nat) :
    (m.setByte a v).mask b = if b = a then 0xFF else m.mask b :=
  getCell_setCell (Memory.wf_written h) a 0xFF b

theorem ff_masks (v : Byte) : v &&& ~~~(0xFF : Byte) = 0 := by
  have h : ~~~(0xFF : Byte) = 0#8 := by decide
  rw [h]
  exact BitVec.and_zero

theorem Memory.wf_setByte {m : Memory} (h : m.wf = true) (a : Nat) (v : Byte) :
    (m.setByte a v).wf = true := by
  refine (Memory.wf_iff _).2 ⟨cellsWf_setCell (Memory.wf_data h) (Nat.zero_le _) _,
    cellsWf_setCell (Memory.wf_written h) (Nat.zero_le _) _, fun b => ?_⟩
  rw [Memory.byte_setByte h, Memory.mask_setByte h]
  by_cases hb : b = a
  · simp only [hb, if_true]
    exact ff_masks v
  · simp only [hb, if_false]; exact Memory.wf_bits h b

/-- The bits of `putBit`. -/
theorem getLsbD_putBit (v : Byte) (k : Nat) (hk : k < 8) (b : Bool) (j : Nat) (hj : j < 8) :
    (putBit v k b).getLsbD j = if j = k then b else v.getLsbD j := by
  have key : ∀ j k : Fin 8, ((1#8 <<< (k : Nat)).getLsbD (j : Nat)) = decide (j = k) := by decide
  have hone : (1#8 <<< k).getLsbD j = decide (j = k) := by
    have := key ⟨j, hj⟩ ⟨k, hk⟩
    simpa [Fin.ext_iff] using this
  cases b
  · by_cases h : j = k
    · simp [putBit, h]
    · simp only [putBit, Bool.false_eq_true, if_false, BitVec.getLsbD_and, BitVec.getLsbD_not, hone]
      simp [h, hj]
  · simp only [putBit, if_true, BitVec.getLsbD_or, hone]
    by_cases h : j = k <;> simp [h]

theorem Memory.byte_setBit {m : Memory} (h : m.wf = true) (base i : Nat) (v : Bool) (a : Nat) :
    (m.setBit base i v).byte a
      = if a = base + i / 8 then putBit (m.byte a) (i % 8) v else m.byte a := by
  simp only [Memory.setBit, Memory.byte]
  rw [getCell_setCell (Memory.wf_data h)]
  by_cases ha : a = base + i / 8 <;> simp [ha]

theorem Memory.mask_setBit {m : Memory} (h : m.wf = true) (base i : Nat) (v : Bool) (a : Nat) :
    (m.setBit base i v).mask a
      = if a = base + i / 8 then putBit (m.mask a) (i % 8) true else m.mask a := by
  simp only [Memory.setBit, Memory.mask]
  rw [getCell_setCell (Memory.wf_written h)]
  by_cases ha : a = base + i / 8 <;> simp [ha]

theorem Memory.wf_setBit {m : Memory} (h : m.wf = true) (base i : Nat) (v : Bool) :
    (m.setBit base i v).wf = true := by
  refine (Memory.wf_iff _).2 ⟨cellsWf_setCell (Memory.wf_data h) (Nat.zero_le _) _,
    cellsWf_setCell (Memory.wf_written h) (Nat.zero_le _) _, fun b => ?_⟩
  rw [Memory.byte_setBit h, Memory.mask_setBit h]
  by_cases hb : b = base + i / 8
  · simp only [hb, if_true]
    have h0 := Memory.wf_bits h (base + i / 8)
    refine BitVec.eq_of_getLsbD_eq fun j hj => ?_
    have hj0 := congrArg (fun x => x.getLsbD j) h0
    have hk : i % 8 < 8 := Nat.mod_lt _ (by omega)
    simp only [BitVec.getLsbD_and, BitVec.getLsbD_not, hj, decide_true, Bool.true_and,
      getLsbD_putBit _ _ hk _ _ hj] at hj0 ⊢
    by_cases hji : j = i % 8
    · simp [hji]
    · simpa [hji] using hj0
  · simp only [hb, if_false]; exact Memory.wf_bits h b

/-- A bit and the mark of a bit, after a bit of the same buffer is written. -/
theorem Memory.bit_setBit {m : Memory} (h : m.wf = true) (base i : Nat) (v : Bool) (j : Nat) :
    (m.setBit base i v).bit base j = if j = i then v else m.bit base j := by
  simp only [Memory.bit, Memory.byte_setBit h]
  have hi : i % 8 < 8 := Nat.mod_lt _ (by omega)
  have hj : j % 8 < 8 := Nat.mod_lt _ (by omega)
  by_cases ha : base + j / 8 = base + i / 8
  · simp only [ha, if_true, getLsbD_putBit _ _ hi _ _ hj]
    by_cases hji : j = i
    · simp [hji]
    · have : j % 8 ≠ i % 8 := by omega
      simp [this, hji]
  · have : j ≠ i := by intro e; exact ha (by rw [e])
    simp only [ha, if_false, this]

theorem Memory.bitWritten_setBit {m : Memory} (h : m.wf = true) (base i : Nat) (v : Bool) (j : Nat) :
    (m.setBit base i v).bitWritten base j = if j = i then true else m.bitWritten base j := by
  simp only [Memory.bitWritten, Memory.mask_setBit h]
  have hi : i % 8 < 8 := Nat.mod_lt _ (by omega)
  have hj : j % 8 < 8 := Nat.mod_lt _ (by omega)
  by_cases ha : base + j / 8 = base + i / 8
  · simp only [ha, if_true, getLsbD_putBit _ _ hi _ _ hj]
    by_cases hji : j = i
    · simp [hji]
    · have : j % 8 ≠ i % 8 := by omega
      simp [this, hji]
  · have : j ≠ i := by intro e; exact ha (by rw [e])
    simp only [ha, if_false, this]

/-! ### Several bytes -/

theorem Memory.wf_writeBytes {m : Memory} (h : m.wf = true) (a : Nat) (l : List Byte) :
    (m.writeBytes a l).wf = true := by
  induction l generalizing m a with
  | nil => exact h
  | cons v l ih => exact ih (Memory.wf_setByte h a v) (a + 1)

/-- What a write of several bytes does to each byte. -/
theorem Memory.byte_writeBytes {m : Memory} (h : m.wf = true) (a : Nat) (l : List Byte) (b : Nat) :
    (m.writeBytes a l).byte b
      = if a ≤ b ∧ b < a + l.length then l.getD (b - a) 0 else m.byte b := by
  induction l generalizing m a with
  | nil => simp only [Memory.writeBytes, List.length_nil]; rw [if_neg (by omega)]
  | cons v l ih =>
    simp only [Memory.writeBytes, ih (Memory.wf_setByte h a v), Memory.byte_setByte h,
      List.length_cons]
    by_cases h1 : b = a
    · subst h1; simp
    · by_cases h2 : a + 1 ≤ b ∧ b < a + 1 + l.length
      · have h3 : a ≤ b ∧ b < a + (l.length + 1) := by omega
        have h4 : b - a = (b - (a + 1)) + 1 := by omega
        simp [h2, h3, h4]
      · have h3 : ¬ (a ≤ b ∧ b < a + (l.length + 1)) := by omega
        simp only [h2, h3, h1, if_false]

theorem Memory.mask_writeBytes {m : Memory} (h : m.wf = true) (a : Nat) (l : List Byte) (b : Nat) :
    (m.writeBytes a l).mask b = if a ≤ b ∧ b < a + l.length then 0xFF else m.mask b := by
  induction l generalizing m a with
  | nil => simp only [Memory.writeBytes, List.length_nil]; rw [if_neg (by omega)]
  | cons v l ih =>
    simp only [Memory.writeBytes, ih (Memory.wf_setByte h a v), Memory.mask_setByte h,
      List.length_cons]
    by_cases h1 : b = a
    · subst h1; simp
    · by_cases h2 : a + 1 ≤ b ∧ b < a + 1 + l.length
      · have h3 : a ≤ b ∧ b < a + (l.length + 1) := by omega
        simp [h2, h3]
      · have h3 : ¬ (a ≤ b ∧ b < a + (l.length + 1)) := by omega
        simp only [h2, h3, h1, if_false]

/-- What a read of several bytes can answer: with all of them written, the bytes. -/
theorem Memory.readBytes_ok {m : Memory} {a n : Nat} (h : ∀ i, i < n → m.mask (a + i) = 0xFF) :
    m.readBytes a n = .ok ((List.range n).map fun i => m.byte (a + i)) := by
  induction n generalizing a with
  | zero => rfl
  | succ n ih =>
    have h0 := h 0 (by omega)
    have hs : ∀ i, i < n → m.mask (a + 1 + i) = 0xFF := fun i hi => by
      have := h (i + 1) (by omega)
      rwa [show a + (i + 1) = a + 1 + i by omega] at this
    simp only [Nat.add_zero] at h0
    simp only [Memory.readBytes, h0, if_true, ih hs, List.range_succ_eq_map, List.map_cons,
      List.map_map, Nat.add_zero]
    congr 1
    refine congrArg _ (List.map_congr_left fun i _ => ?_)
    simp only [Function.comp]
    congr 1
    omega

/-- With a byte unwritten, the address of the first such byte. -/
theorem Memory.readBytes_error {m : Memory} {a n j : Nat} (hj : j < n)
    (h : ∀ i, i < j → m.mask (a + i) = 0xFF) (h' : m.mask (a + j) ≠ 0xFF) :
    m.readBytes a n = .error (a + j) := by
  induction j generalizing a n with
  | zero =>
    obtain ⟨n, rfl⟩ : ∃ k, n = k + 1 := ⟨n - 1, by omega⟩
    simp only [Nat.add_zero] at h'
    simp only [Memory.readBytes, if_neg h', Nat.add_zero]
  | succ j ih =>
    obtain ⟨n, rfl⟩ : ∃ k, n = k + 1 := ⟨n - 1, by omega⟩
    have h0 := h 0 (by omega)
    simp only [Nat.add_zero] at h0
    have e : m.readBytes (a + 1) n = .error (a + 1 + j) :=
      ih (by omega)
        (fun i hi => by
          have := h (i + 1) (by omega)
          rwa [show a + (i + 1) = a + 1 + i by omega] at this)
        (by rwa [show a + 1 + j = a + (j + 1) by omega])
    simp only [Memory.readBytes, h0, if_true, e]
    congr 1
    omega

/-- A read of several bytes succeeds only if every one of them has been written. -/
theorem Memory.readBytes_ok_iff {m : Memory} {a n : Nat} {l : List Byte} :
    m.readBytes a n = .ok l ↔
      (∀ i, i < n → m.mask (a + i) = 0xFF) ∧ l = (List.range n).map fun i => m.byte (a + i) := by
  constructor
  · intro h
    have hall : ∀ i, i < n → m.mask (a + i) = 0xFF := by
      by_contra hc
      have hex : ∃ j, j < n ∧ m.mask (a + j) ≠ 0xFF := by
        by_contra hne
        exact hc fun i hi => by
          by_contra hm
          exact hne ⟨i, hi, hm⟩
      classical
      obtain ⟨hj, hm⟩ := Nat.find_spec hex
      have := Memory.readBytes_error (m := m) (a := a) hj
        (fun i hi => by
          have := Nat.find_min hex hi
          by_contra hne
          exact this ⟨by omega, hne⟩) hm
      rw [h] at this
      cases this
    refine ⟨hall, ?_⟩
    have := Memory.readBytes_ok hall
    rw [h] at this
    exact Except.ok.inj this
  · rintro ⟨h, rfl⟩
    exact Memory.readBytes_ok h

theorem Memory.readBytes_length {m : Memory} {a n : Nat} {l : List Byte}
    (h : m.readBytes a n = .ok l) : l.length = n := by
  rw [(Memory.readBytes_ok_iff.1 h).2]
  simp

/-- A read depends only on the bytes it reads. -/
theorem Memory.readBytes_congr {m m' : Memory} {a n : Nat}
    (hb : ∀ i, i < n → m'.byte (a + i) = m.byte (a + i))
    (hm : ∀ i, i < n → m'.mask (a + i) = m.mask (a + i)) :
    m'.readBytes a n = m.readBytes a n := by
  induction n generalizing a with
  | zero => rfl
  | succ n ih =>
    have hb0 := hb 0 (by omega)
    have hm0 := hm 0 (by omega)
    simp only [Nat.add_zero] at hb0 hm0
    have := ih (a := a + 1)
      (fun i hi => by
        have := hb (i + 1) (by omega)
        rwa [show a + (i + 1) = a + 1 + i by omega] at this)
      (fun i hi => by
        have := hm (i + 1) (by omega)
        rwa [show a + (i + 1) = a + 1 + i by omega] at this)
    simp only [Memory.readBytes, hb0, hm0, this]

/-! ### Several bits -/

theorem Memory.wf_writeBits {m : Memory} (h : m.wf = true) (base i : Nat) (l : List Bool) :
    (m.writeBits base i l).wf = true := by
  induction l generalizing m i with
  | nil => exact h
  | cons b l ih => exact ih (Memory.wf_setBit h base i b) (i + 1)

/-- What a write of several bits does to each bit of the buffer. -/
theorem Memory.bit_writeBits {m : Memory} (h : m.wf = true) (base i : Nat) (l : List Bool)
    (j : Nat) :
    (m.writeBits base i l).bit base j
      = if i ≤ j ∧ j < i + l.length then l.getD (j - i) false else m.bit base j := by
  induction l generalizing m i with
  | nil => simp only [Memory.writeBits, List.length_nil]; rw [if_neg (by omega)]
  | cons v l ih =>
    simp only [Memory.writeBits, ih (Memory.wf_setBit h base i v), Memory.bit_setBit h,
      List.length_cons]
    by_cases h1 : j = i
    · subst h1; simp
    · by_cases h2 : i + 1 ≤ j ∧ j < i + 1 + l.length
      · have h3 : i ≤ j ∧ j < i + (l.length + 1) := by omega
        have h4 : j - i = (j - (i + 1)) + 1 := by omega
        simp [h2, h3, h4]
      · have h3 : ¬ (i ≤ j ∧ j < i + (l.length + 1)) := by omega
        simp only [h2, h3, h1, if_false]

theorem Memory.bitWritten_writeBits {m : Memory} (h : m.wf = true) (base i : Nat) (l : List Bool)
    (j : Nat) :
    (m.writeBits base i l).bitWritten base j
      = if i ≤ j ∧ j < i + l.length then true else m.bitWritten base j := by
  induction l generalizing m i with
  | nil => simp only [Memory.writeBits, List.length_nil]; rw [if_neg (by omega)]
  | cons v l ih =>
    simp only [Memory.writeBits, ih (Memory.wf_setBit h base i v), Memory.bitWritten_setBit h,
      List.length_cons]
    by_cases h1 : j = i
    · subst h1; simp
    · by_cases h2 : i + 1 ≤ j ∧ j < i + 1 + l.length
      · have h3 : i ≤ j ∧ j < i + (l.length + 1) := by omega
        simp [h2, h3]
      · have h3 : ¬ (i ≤ j ∧ j < i + (l.length + 1)) := by omega
        simp only [h2, h3, h1, if_false]

/-- Bytes that hold none of the bits written are unchanged, and so are their marks. -/
theorem Memory.byte_writeBits_of_outside {m : Memory} (h : m.wf = true) (base i : Nat)
    (l : List Bool) (a : Nat) (ha : ∀ j, i ≤ j → j < i + l.length → a ≠ base + j / 8) :
    (m.writeBits base i l).byte a = m.byte a ∧ (m.writeBits base i l).mask a = m.mask a := by
  induction l generalizing m i with
  | nil => exact ⟨rfl, rfl⟩
  | cons v l ih =>
    have h0 : a ≠ base + i / 8 := ha i (Nat.le_refl _) (by simp)
    have := ih (Memory.wf_setBit h base i v) (i + 1) fun j hj hj' =>
      ha j (by omega) (by simp only [List.length_cons]; omega)
    simpa only [Memory.writeBits, Memory.byte_setBit h, Memory.mask_setBit h, h0, if_false]
      using this

/-- What a read of several bits can answer: with all of them written, the bits. -/
theorem Memory.readBits_ok {m : Memory} {base i n : Nat}
    (h : ∀ j, j < n → m.bitWritten base (i + j) = true) :
    m.readBits base i n = .ok ((List.range n).map fun j => m.bit base (i + j)) := by
  induction n generalizing i with
  | zero => rfl
  | succ n ih =>
    have h0 := h 0 (by omega)
    have hs : ∀ j, j < n → m.bitWritten base (i + 1 + j) = true := fun j hj => by
      have := h (j + 1) (by omega)
      rwa [show i + (j + 1) = i + 1 + j by omega] at this
    simp only [Nat.add_zero] at h0
    simp only [Memory.readBits, h0, if_true, ih hs, List.range_succ_eq_map, List.map_cons,
      List.map_map, Nat.add_zero]
    congr 1
    refine congrArg _ (List.map_congr_left fun j _ => ?_)
    simp only [Function.comp]
    congr 1
    omega

/-- With a bit unwritten, the byte address of the first such bit. -/
theorem Memory.readBits_error {m : Memory} {base i n j : Nat} (hj : j < n)
    (h : ∀ k, k < j → m.bitWritten base (i + k) = true) (h' : m.bitWritten base (i + j) = false) :
    m.readBits base i n = .error (base + (i + j) / 8) := by
  induction j generalizing i n with
  | zero =>
    obtain ⟨n, rfl⟩ : ∃ k, n = k + 1 := ⟨n - 1, by omega⟩
    simp only [Nat.add_zero] at h'
    simp [Memory.readBits, h']
  | succ j ih =>
    obtain ⟨n, rfl⟩ : ∃ k, n = k + 1 := ⟨n - 1, by omega⟩
    have h0 := h 0 (by omega)
    simp only [Nat.add_zero] at h0
    have e : m.readBits base (i + 1) n = .error (base + (i + 1 + j) / 8) :=
      ih (by omega)
        (fun k hk => by
          have := h (k + 1) (by omega)
          rwa [show i + (k + 1) = i + 1 + k by omega] at this)
        (by rwa [show i + 1 + j = i + (j + 1) by omega])
    simp only [Memory.readBits, h0, if_true, e]
    rw [show i + 1 + j = i + (j + 1) by omega]

/-- A read of several bits succeeds only if every one of them has been written. -/
theorem Memory.readBits_ok_iff {m : Memory} {base i n : Nat} {l : List Bool} :
    m.readBits base i n = .ok l ↔
      (∀ j, j < n → m.bitWritten base (i + j) = true)
        ∧ l = (List.range n).map fun j => m.bit base (i + j) := by
  constructor
  · intro h
    have hall : ∀ j, j < n → m.bitWritten base (i + j) = true := by
      by_contra hc
      have hex : ∃ j, j < n ∧ m.bitWritten base (i + j) = false := by
        by_contra hne
        exact hc fun j hj => by
          by_contra hm
          exact hne ⟨j, hj, by simpa using hm⟩
      classical
      obtain ⟨hj, hm⟩ := Nat.find_spec hex
      have := Memory.readBits_error (m := m) (base := base) (i := i) hj
        (fun k hk => by
          have := Nat.find_min hex hk
          by_contra hne
          exact this ⟨by omega, by simpa using hne⟩) hm
      rw [h] at this
      cases this
    refine ⟨hall, ?_⟩
    have := Memory.readBits_ok hall
    rw [h] at this
    exact Except.ok.inj this
  · rintro ⟨h, rfl⟩
    exact Memory.readBits_ok h

theorem Memory.readBits_length {m : Memory} {base i n : Nat} {l : List Bool}
    (h : m.readBits base i n = .ok l) : l.length = n := by
  rw [(Memory.readBits_ok_iff.1 h).2]
  simp

end Sys2Proof.Machine
end

