-- ==== Sys2Proof/Laws/Bits.lean ====
section
/-! SUPPORT. What the conversions between bits, bytes and 64-bit values do, bit by bit. -/

namespace Sys2Proof.Machine

/-- Past its end a list gives the default. -/
theorem getD_default {α : Type} (l : List α) (i : Nat) (d : α) (h : l.length ≤ i) :
    l.getD i d = d := by
  simp [List.getD_eq_getElem?_getD, h]

/-- An entry of a tabulated list. -/
theorem range_map_getD {α : Type} (n k : Nat) (f : Nat → α) (d : α) (h : k < n) :
    ((List.range n).map f).getD k d = f k := by
  simp [List.getD_eq_getElem?_getD, h]

/-- Lists with the same entries are equal. -/
theorem list_ext_getD {α : Type} {l m : List α} (d : α) (h : l.length = m.length)
    (hg : ∀ i, i < l.length → l.getD i d = m.getD i d) : l = m := by
  apply List.ext_getElem h
  intro i h1 h2
  have := hg i h1
  simpa [List.getD_eq_getElem?_getD, h1, h2] using this

/-- Bytes with the same bits are equal. -/
theorem byte_ext {a b : Byte} (h : ∀ k, k < 8 → a.getLsbD k = b.getLsbD k) :
    a = b := BitVec.eq_of_getLsbD_eq h

/-- A byte mask is full exactly if each of its bits is set. -/
theorem mask_eq_ff {b : Byte} : b = 0xFF ↔ ∀ k, k < 8 → b.getLsbD k = true := by
  constructor
  · rintro rfl k hk
    have : ∀ k : Fin 8, (0xFF : Byte).getLsbD k = true := by decide
    exact this ⟨k, hk⟩
  · intro h
    apply BitVec.eq_of_getLsbD_eq
    intro k hk
    have : ∀ k : Fin 8, (0xFF : Byte).getLsbD k = true := by decide
    rw [h k hk, this ⟨k, hk⟩]

/-- `natOfBits` holds bit `k` of the list at place `k`. -/
theorem testBit_natOfBits (l : List Bool) (k : Nat) :
    (natOfBits l).testBit k = l.getD k false := by
  induction l generalizing k with
  | nil => simp [natOfBits]
  | cons b l ih =>
    cases k with
    | zero => cases b <;> simp [natOfBits, Nat.testBit_zero]
    | succ k =>
      have : natOfBits (b :: l) / 2 = natOfBits l := by cases b <;> (simp [natOfBits]; try omega)
      rw [Nat.testBit_succ, this, ih]; simp

/-- A 64-bit value has eight bytes. -/
theorem bytesOfDWord_length (v : DWord) : (bytesOfDWord v).length = 8 := by simp [bytesOfDWord]

/-- A bit of the value that bytes stand for. -/
theorem dwordOfBytes_getLsbD (l : List Byte) (i : Nat) (hi : i < 64) :
    (dwordOfBytes l).getLsbD i = (bitsOf l).getD i false := by
  unfold dwordOfBytes
  rw [BitVec.getLsbD_ofNat, testBit_natOfBits]; simp [hi]

/-- A bit of a byte of a 64-bit value. -/
theorem bytesOfDWord_getD (v : DWord) (m k : Nat) (hm : m < 8) (hk : k < 8) :
    ((bytesOfDWord v).getD m 0).getLsbD k = v.getLsbD (8 * m + k) := by
  unfold bytesOfDWord
  rw [range_map_getD _ _ _ _ hm, BitVec.getLsbD_extractLsb']
  simp [hk]

/-- A bit of the access address as received. -/
theorem receivedAa_getLsbD (p : PhyCfg) (c : List Bool) (pos i : Nat) (hi : i < 32) :
    (receivedAa p c pos).getLsbD i = c.getD (pos + p.preambleLen + i) false := by
  unfold receivedAa
  rw [BitVec.getLsbD_ofNat, testBit_natOfBits]
  simp [hi, List.getD_eq_getElem?_getD]

/-- A free NaN is a NaN, whatever the free value is. -/
theorem freeNaN_isNaN (k : Nat) : fisNaN (freeNaN k) = true := by
  unfold freeNaN
  generalize Config.nanChoice k = x
  simp only
  generalize hf : (if x.setWidth 52 = 0 then 1#52 else x.setWidth 52) = f
  have hne : f ≠ 0 := by
    rw [← hf]; split
    · decide
    · assumption
  have hn : f.toNat ≠ 0 := by
    intro h; apply hne; exact BitVec.eq_of_toNat_eq (by simpa using h)
  have hlt := f.isLt
  have hv : (BitVec.ofBool x.msb ++ 0x7FF#11 ++ f).toNat = (x.msb.toNat * 2048 + 2047) *
      4503599627370496 + f.toNat := by
    rw [BitVec.toNat_append, BitVec.toNat_append]
    rw [← Nat.shiftLeft_add_eq_or_of_lt hlt, ← Nat.shiftLeft_add_eq_or_of_lt (by decide)]
    simp [Nat.shiftLeft_eq]
  unfold fisNaN fexp ffrac
  rw [hv]
  cases x.msb <;> simp <;> omega

/-- What the encoding that `F64Write` stores stands for. -/
theorem storedAs_stored (k : Nat) (v : F64) : StoredAs v (storedF64 k v) := by
  unfold StoredAs storedF64
  split
  · exact freeNaN_isNaN k
  · rfl

/-- Every value takes eight bytes. -/
theorem storedBytes_length (k : Nat) (l : List F64) :
    (storedBytes k l).length = 8 * l.length := by
  induction l generalizing k with
  | nil => rfl
  | cons v l ih =>
    simp only [storedBytes, List.length_append, bytesOfDWord_length, ih, List.length_cons]
    omega

end Sys2Proof.Machine
end

