-- ==== Sys2Proof/Laws/Footprint.lean ====
section
/-! SUPPORT. Spans of bits: which bits a span covers, reads of a whole span,
and that a write leaves the bits outside its span alone. -/

namespace Sys2Proof.Machine

/-- A span covers the places of its bits, as `BitRead` and `BitWrite` find them (00_scope.md R11).
-/
theorem BitSpan.covers_iff {base first count a k : Nat} (hk : k < 8) :
    (BitSpan.mk base first count).covers a k = true
      ↔ ∃ j, j < count ∧ a = base + (first + j) / 8 ∧ k = (first + j) % 8 := by
  simp only [BitSpan.covers, Bool.and_eq_true, decide_eq_true_eq]
  constructor
  · rintro ⟨⟨h1, h2⟩, h3⟩
    exact ⟨8 * (a - base) + k - first, by omega, by omega, by omega⟩
  · rintro ⟨j, hj, rfl, rfl⟩
    omega

/-- A covered byte lies in the range of its span. -/
theorem BitSpan.covers_range {sp : BitSpan} {a k : Nat} (hk : k < 8)
    (h : sp.covers a k = true) :
    sp.base ≤ a ∧ 8 * (a - sp.base) < sp.first + sp.count := by
  simp only [BitSpan.covers, Bool.and_eq_true, decide_eq_true_eq] at h; omega

/-- A bit of the mask of some spans. -/
theorem getLsbD_spansMask (l : List BitSpan) (a k : Nat) (hk : k < 8) :
    (spansMask l a).getLsbD k = l.any fun sp => sp.covers a k := by
  unfold spansMask
  rw [BitVec.getLsbD_ofNat, testBit_natOfBits]
  simp [hk, List.getD_eq_getElem?_getD]

/-- A covered bit shows in the mask. -/
theorem spansMask_ne_zero {l : List BitSpan} {a k : Nat} (hk : k < 8) {sp : BitSpan}
    (h : sp ∈ l) (hc : sp.covers a k = true) : spansMask l a ≠ 0 := by
  intro e
  have := getLsbD_spansMask l a k hk
  rw [e] at this
  simp at this
  exact absurd hc (by simp [this sp h])

/-- Different bytes differ in a bit. -/
theorem exists_bit_of_ne {a b : Byte} (h : a ≠ b) :
    ∃ k, k < 8 ∧ a.getLsbD k ≠ b.getLsbD k := by
  by_contra hc
  apply h
  apply BitVec.eq_of_getLsbD_eq
  intro k hk
  by_contra hne
  exact hc ⟨k, hk, hne⟩

/-- The mask is not zero exactly where a span covers a bit of the byte. -/
theorem spansMask_ne_zero_iff {l : List BitSpan} {a : Nat} :
    spansMask l a ≠ 0 ↔ ∃ k, k < 8 ∧ ∃ sp ∈ l, sp.covers a k = true := by
  constructor
  · intro h
    obtain ⟨k, hk, hb⟩ := exists_bit_of_ne h
    rw [getLsbD_spansMask _ _ _ hk] at hb
    simp at hb
    exact ⟨k, hk, hb⟩
  · rintro ⟨k, hk, sp, h, hc⟩; exact spansMask_ne_zero hk h hc

/-- A read of bits gives the bits, or the address of one that is not written. -/
theorem Memory.readBits_total (m : Memory) (base i n : Nat) :
    (∃ l, m.readBits base i n = .ok l)
      ∨ ∃ j, j < n ∧ m.bitWritten base (i + j) = false
          ∧ m.readBits base i n = .error (base + (i + j) / 8) := by
  by_cases h : ∀ j, j < n → m.bitWritten base (i + j) = true
  · exact .inl ⟨_, Memory.readBits_ok h⟩
  · have hex : ∃ j, j < n ∧ m.bitWritten base (i + j) = false := by
      by_contra hne
      exact h fun j hj => by
        by_contra hm
        exact hne ⟨j, hj, by simpa using hm⟩
    classical
    obtain ⟨hj, hm⟩ := Nat.find_spec hex
    exact .inr ⟨_, hj, hm, Memory.readBits_error hj (fun k hk => by
          have := Nat.find_min hex hk
          by_contra hne
          exact this ⟨by omega, by simpa using hne⟩) hm⟩

/-- A read of bytes gives the bytes, or the address of one that is not written. -/
theorem Memory.readBytes_total (m : Memory) (a n : Nat) :
    (∃ l, m.readBytes a n = .ok l)
      ∨ ∃ j, j < n ∧ m.mask (a + j) ≠ 0xFF ∧ m.readBytes a n = .error (a + j) := by
  by_cases h : ∀ j, j < n → m.mask (a + j) = 0xFF
  · exact .inl ⟨_, Memory.readBytes_ok h⟩
  · have hex : ∃ j, j < n ∧ m.mask (a + j) ≠ 0xFF := by
      by_contra hne
      exact h fun j hj => by
        by_contra hm
        exact hne ⟨j, hj, by simpa using hm⟩
    classical
    obtain ⟨hj, hm⟩ := Nat.find_spec hex
    exact .inr ⟨_, hj, hm, Memory.readBytes_error hj (fun k hk => by
          have := Nat.find_min hex hk
          by_contra hne
          exact this ⟨by omega, hne⟩) hm⟩

/-- A span is written exactly if each of its bits is. -/
theorem Memory.written_bits {m : Memory} {base first count : Nat} :
    Memory.Written [⟨base, first, count⟩] m
      ↔ ∀ j, j < count → m.bitWritten base (first + j) = true := by
  unfold Memory.Written
  constructor
  · intro h j hj
    have hk : (first + j) % 8 < 8 := Nat.mod_lt _ (by omega)
    exact h (base + (first + j) / 8) ((first + j) % 8) hk _ (by simp) ((BitSpan.covers_iff hk).2
        ⟨j, hj, rfl, rfl⟩)
  · intro h a k hk sp hsp hc
    simp at hsp; subst hsp
    obtain ⟨j, hj, rfl, rfl⟩ := (BitSpan.covers_iff hk).1 hc
    exact h j hj

/-- A span of whole bytes is written exactly if each of its bytes is. -/
theorem Memory.written_bytes {m : Memory} {base first count : Nat} :
    Memory.Written [⟨base, 8 * first, 8 * count⟩] m
      ↔ ∀ j, j < count → m.mask (base + first + j) = 0xFF := by
  rw [Memory.written_bits]
  constructor
  · intro h j hj
    rw [mask_eq_ff]
    intro k hk
    have := h (8 * j + k) (by omega)
    unfold Memory.bitWritten at this
    rwa [show base + (8 * first + (8 * j + k)) / 8 = base + first + j by omega,
        show (8 * first + (8 * j + k)) % 8 = k by omega] at this
  · intro h j hj
    have := mask_eq_ff.1 (h (j / 8) (by omega)) (j % 8) (by omega)
    unfold Memory.bitWritten
    rwa [show base + (8 * first + j) / 8 = base + first + j / 8 by omega,
        show (8 * first + j) % 8 = j % 8 by omega]

/-- A bit of a byte, counted from the base of its buffer. -/
theorem Memory.byte_bit {m : Memory} {base a k : Nat} (ha : base ≤ a) (hk : k < 8) :
    (m.byte a).getLsbD k = m.bit base (8 * (a - base) + k)
      ∧ (m.mask a).getLsbD k = m.bitWritten base (8 * (a - base) + k) := by
  unfold Memory.bit Memory.bitWritten
  rw [show base + (8 * (a - base) + k) / 8 = a by omega, show (8 * (a - base) + k) % 8 = k by omega]
  exact ⟨rfl, rfl⟩

/-- A write of bits leaves the bits outside its span alone. -/
theorem Memory.writeBits_outside {m : Memory} (h : m.wf = true) (base i : Nat) (l : List Bool) :
    Memory.SameOutside [⟨base, i, l.length⟩] m (m.writeBits base i l) := by
  intro a k hk hc
  have hc := hc _ (List.mem_singleton.2 rfl)
  by_cases ha : base ≤ a
  · have e := Memory.byte_bit (m := m) ha hk
    have e' := Memory.byte_bit (m := m.writeBits base i l) ha hk
    rw [e.1, e.2, e'.1, e'.2, Memory.bit_writeBits h, Memory.bitWritten_writeBits h]
    have : ¬ (i ≤ 8 * (a - base) + k ∧ 8 * (a - base) + k < i + l.length) := by
      rintro ⟨h1, h2⟩
      simp [BitSpan.covers, ha, h1, h2] at hc
    simp [this]
  · have := Memory.byte_writeBits_of_outside h base i l a (fun j _ _ => by omega)
    rw [this.1, this.2]; exact ⟨rfl, rfl⟩

/-- A write of bytes leaves the bits outside its span alone. -/
theorem Memory.writeBytes_outside {m : Memory} (h : m.wf = true) (a : Nat) (l : List Byte) :
    Memory.SameOutside [⟨a, 0, 8 * l.length⟩] m (m.writeBytes a l) := by
  intro b k hk hc
  have hc := hc _ (List.mem_singleton.2 rfl)
  rw [Memory.byte_writeBytes h, Memory.mask_writeBytes h]
  have : ¬ (a ≤ b ∧ b < a + l.length) := by
    rintro ⟨h1, h2⟩
    simp [BitSpan.covers, h1] at hc
    omega
  simp [this]

/-- Two writes leave alone what both leave alone. -/
theorem Memory.sameOutside_trans {l1 l2 : List BitSpan} {m m' m'' : Memory}
    (h1 : Memory.SameOutside l1 m m') (h2 : Memory.SameOutside l2 m' m'') :
    Memory.SameOutside (l1 ++ l2) m m'' := by
  intro a k hk hc
  have a1 := h1 a k hk (fun sp h => hc sp (List.mem_append_left _ h))
  have a2 := h2 a k hk (fun sp h => hc sp (List.mem_append_right _ h))
  exact ⟨a2.1.trans a1.1, a2.2.trans a1.2⟩

/-- Canonical memories that read alike are equal. -/
theorem Memory.ext_bits {m m' : Memory} (h : m.wf = true) (h' : m'.wf = true)
    (hb : ∀ a k, k < 8 →
      (m.byte a).getLsbD k = (m'.byte a).getLsbD k
        ∧ (m.mask a).getLsbD k = (m'.mask a).getLsbD k) : m = m' := by
  have e1 : m.data = m'.data := cells_ext (Memory.wf_data h) (Memory.wf_data h') fun a =>
      BitVec.eq_of_getLsbD_eq fun k hk => (hb a k hk).1
  have e2 : m.written = m'.written := cells_ext (Memory.wf_written h) (Memory.wf_written h') fun a
      => BitVec.eq_of_getLsbD_eq fun k hk => (hb a k hk).2
  cases m; cases m'; simp_all

/-- The buffer windows in numbers (20_memory.md R104). -/
theorem inBuffer_iff (a n : Nat) : inBuffer a n = true ↔
    (0x001000 ≤ a ∧ a + n ≤ 0x001400) ∨ (0x001400 ≤ a ∧ a + n ≤ 0x001500)
      ∨ (0x002000 ≤ a ∧ a + n ≤ 0x004000) ∨ (0x004000 ≤ a ∧ a + n ≤ 0x008000)
      ∨ (0x008000 ≤ a ∧ a + n ≤ 0x00C000) ∨ (0x100000 ≤ a ∧ a + n ≤ 0x200000) := by
  simp only [inBuffer, bufferWindows, List.any_cons, List.any_nil, Bool.or_false,
      Bool.or_eq_true, Bool.and_eq_true, decide_eq_true_eq]
  exact Iff.rfl

end Sys2Proof.Machine
end

