-- ==== Sys2Proof/Laws/Host.lean ====
section
/-! SUPPORT. What the host port does with a register: the register map,
and a write while no footprint is hit. -/

namespace Sys2Proof.Machine

/-- Every register is at its offset of the map (10_state.md R34). -/
theorem admitted_reg (r : Reg) :
    admitted (Reg.offset r) .w32 = true ∧ inRegWindow (Reg.offset r) = true
      ∧ regAt (Reg.offset r) = some r := by
  cases r <;> decide

/-- With no command running there is no footprint. -/
theorem State.activeInstr_of_idle {s : State} (h : s.running = none) : s.activeInstr = none := by
  unfold State.activeInstr; rw [h]

/-- With no command running no register is in a footprint. -/
theorem State.outputReg_of_idle {s : State} (h : s.running = none) (r : Reg) :
    s.outputReg r = false := by
  unfold State.outputReg; rw [State.activeInstr_of_idle h]

/-- `STATUS` is in no footprint. -/
theorem State.outputReg_status (s : State) : s.outputReg .status = false := by
  unfold State.outputReg
  cases s.activeInstr with
  | none => rfl
  | some i => cases i <;> rfl

/-- `CMD` is in no footprint. -/
theorem State.outputReg_cmd (s : State) : s.outputReg .cmd = false := by
  unfold State.outputReg
  cases s.activeInstr with
  | none => rfl
  | some i => cases i <;> rfl

/-- A host write to a register outside the footprint is `setReg`. -/
theorem State.hostWrite_reg (s : State) (r : Reg) (d : DWord) (h : s.outputReg r = false) :
    s.hostWrite (Reg.offset r) .w32 d
      = .next { s.setReg r (d.setWidth 32) with response := some writeDone } := by
  obtain ⟨h1, h2, h3⟩ := admitted_reg r
  unfold State.hostWrite
  rw [if_pos h1, if_pos h2]
  unfold State.writeRegAt
  rw [h3]; simp only
  rw [if_neg (by rw [h]; simp)]

/-- A running command that passes its checks has its footprint. -/
theorem State.activeInstr_of_running {s : State} {r : Running} {i : Instr}
    (hr : s.running = some r) (hd : decode r.word = .instr i)
    (hc : checkOf i r.cfg s.mem = .ok) : s.activeInstr = some i := by
  unfold State.activeInstr; rw [hr]; simp only [hd, Decoded.instr?]; rw [if_pos hc]

/-- A write has as many bytes as its width says. -/
theorem writeBytesOf_length (w : Width) (d : DWord) :
    (writeBytesOf w d).length = Width.bytes w := by
  cases w <;> simp [writeBytesOf, bytesOfDWord, Width.bytes]

end Sys2Proof.Machine
end

