-- ==== Sys2Proof/Laws/Lifecycle.lean ====
section
/-! SUPPORT. What the shared operations of the command lifecycle can do: the refusal,
a read of operands, completion, and the stages of DEMODULATE. -/

namespace Sys2Proof.Machine

/-- With no failed check a command does its body. -/
theorem State.guarded_ok {s : State} {c : ErrCode} {b : Host.Outcome State Fault Refusal}
    (h : c = ErrCode.ok) : s.guarded c b = b := by simp [State.guarded, h]

/-- With a failed check a command is refused. -/
theorem State.guarded_refuses {s : State} {c : ErrCode} {b : Host.Outcome State Fault Refusal}
    (h : c ≠ ErrCode.ok) : s.guarded c b = .next (s.refuse c) := by simp [State.guarded, h]

/-- How `guarded` comes to a next state. -/
theorem State.guarded_next {s t : State} {c : ErrCode} {b : Host.Outcome State Fault Refusal}
    (h : s.guarded c b = .next t) :
    (c ≠ .ok ∧ t = s.refuse c) ∨ (c = .ok ∧ b = .next t) := by
  unfold State.guarded at h
  split at h
  · exact .inr ⟨‹_›, h⟩
  · exact .inl ⟨‹_›, (by cases h; rfl)⟩

/-- How `withRead` comes to a next state. -/
theorem withRead_next {α : Type} {i : Instr} {r : Except Nat α} {t : State}
    {b : α → Host.Outcome State Fault Refusal} (h : withRead i r b = .next t) :
    ∃ v, r = .ok v ∧ b v = .next t := by
  unfold withRead at h
  split at h
  · exact ⟨_, rfl, h⟩
  · cases h

/-- A function that commutes with the refusal commutes with `guarded`. -/
theorem guarded_mapNext (f : State → State) (s : State) (code : ErrCode)
    (b : Host.Outcome State Fault Refusal) (hf : f (s.refuse code) = (f s).refuse code) :
    (f s).guarded code (mapNext f b) = mapNext f (s.guarded code b) := by
  unfold State.guarded; split <;> simp [mapNext, hf]

/-- A function on next states passes through a read. -/
theorem withRead_mapNext {α : Type} (f : State → State) (i : Instr) (r : Except Nat α)
    (b : α → Host.Outcome State Fault Refusal) :
    withRead i r (fun a => mapNext f (b a)) = mapNext f (withRead i r b) := by
  unfold withRead; split <;> rfl

/-- What `refuse` leaves. -/
theorem refused_refuse (s : State) (c : ErrCode) : Refused s (s.refuse c) c := ⟨⟨rfl, rfl,
    rfl⟩, rfl⟩

/-- What `complete` leaves, after whatever a command has written besides `STATUS`. -/
theorem completed_complete (s t : State) (c : ErrCode) (h : t.status = s.status)
    (h' : t.irqEn = s.irqEn) : Completed s (t.complete c) c := by
  refine ⟨by simp [h], rfl, h'⟩

/-- The core runs the decoded command. -/
theorem coreRun_of_running {s : State} {r : Running} {i : Instr}
    (hr : s.running = some r) (hi : decode r.word = .instr i) : coreRun s = exec i s := by
  unfold coreRun; rw [State.fetch_of_running s r hr]; simp only; rw [hi]

/-- The core runs one stage of the decoded command. -/
theorem coreStage_of_running {s : State} {r : Running} {i : Instr}
    (hr : s.running = some r) (hi : decode r.word = .instr i) : coreStage s = stageOf i s := by
  unfold coreStage; rw [State.fetch_of_running s r hr]; simp only; rw [hi]

/-- DEMODULATE goes on after a stage that does not complete it. -/
theorem demodRun_step {n : Nat} {s u : State} (h : demodStage s = .next u)
    (hr : u.running.isSome = true) : demodRun (n + 1) s = demodRun n u := by
  rw [demodRun, h]; simp [hr]

/-- DEMODULATE ends with the stage that completes it. -/
theorem demodRun_done {n : Nat} {s u : State} (h : demodStage s = .next u)
    (hr : u.running = none) : demodRun (n + 1) s = .next u := by
  rw [demodRun, h]; simp [hr]

/-- DEMODULATE stops where a stage stops. -/
theorem demodRun_fault {n : Nat} {s : State} {f : Fault} (h : demodStage s = .fault f) :
    demodRun (n + 1) s = .fault f := by
  rw [demodRun, h]

/-- A stage of DEMODULATE answers a next state or stops at a sample that is not written. -/
theorem demodStage_stops (s : State) :
    (∃ t, demodStage s = .next t)
      ∨ ∃ a, demodStage s = .fault (.uninitRead .demodulate a) := by
  have hstart : (∃ t, demodStart s = .next t) ∨ ∃ a, demodStart s = .fault (.uninitRead
      .demodulate a) := by
    unfold demodStart State.guarded
    split
    · unfold withRead; split
      · exact .inl ⟨_, rfl⟩
      · exact .inr ⟨_, rfl⟩
    · exact .inl ⟨_, rfl⟩
  unfold demodStage
  split <;> first | exact .inl ⟨_, rfl⟩ | exact hstart

/-- The preamble has at most 16 bits (40_framing.md R219). -/
theorem PhyCfg.preambleLen_le (p : PhyCfg) : p.preambleLen ≤ 16 := by
  unfold PhyCfg.preambleLen; split <;> omega

/-- The LENGTH check of ASSEMBLE cannot fail (40_framing.md R230). -/
theorem assembleLenCheck_ok (c : CfgRegs) (l : Byte) : assembleLenCheck c l = .ok := by
  unfold assembleLenCheck CfgRegs.streamLen Config.txbitCap
  have := PhyCfg.preambleLen_le c.phycfg
  have := l.isLt
  rw [if_neg]; omega

end Sys2Proof.Machine
end

