-- ==== Sys2Proof/Laws/Number.lean ====
section
/-! SUPPORT. The parts of rounding (00_scope.md R12): the binary logarithm,
and the values of encodings. -/

namespace Sys2Proof.Machine

/-- `scaledLe` compares exactly. -/
theorem scaledLe_iff (d : Nat) (k : Int) (n : Nat) :
    scaledLe d k n = true ↔ (d : ℚ) * 2 ^ k ≤ n := by
  unfold scaledLe
  split
  · rename_i h
    obtain ⟨j, rfl⟩ := Int.eq_ofNat_of_zero_le h
    simp only [Int.toNat_natCast, decide_eq_true_eq, zpow_natCast, Nat.shiftLeft_eq]
    constructor <;> intro h <;> exact_mod_cast h
  · rename_i h
    obtain ⟨j, hj⟩ := Int.eq_ofNat_of_zero_le (show 0 ≤ -k by omega)
    obtain rfl : k = -(j : Int) := by omega
    simp only [neg_neg, Int.toNat_natCast, decide_eq_true_eq, Nat.shiftLeft_eq, zpow_neg,
        zpow_natCast]
    rw [← div_eq_mul_inv, div_le_iff₀ (by positivity)]
    constructor <;> intro h <;> exact_mod_cast h

/-- The binary logarithm of a natural number. -/
theorem log2_bounds (n : Nat) (hn : 0 < n) :
    (2 : ℚ) ^ (Nat.log2 n : ℤ) ≤ n ∧ (n : ℚ) < 2 ^ ((Nat.log2 n : ℤ) + 1) := by
  have h1 := Nat.log2_self_le (n := n) (by omega)
  have h2 := Nat.lt_log2_self (n := n)
  constructor
  · rw [zpow_natCast]; exact_mod_cast h1
  · rw [show ((Nat.log2 n : ℤ) + 1) = ((Nat.log2 n + 1 : ℕ) : ℤ) by push_cast; rfl, zpow_natCast]
    exact_mod_cast h2

/-- `floorLog2` is the floor of the binary logarithm of a quotient. -/
theorem floorLog2_bounds (n d : Nat) (hn : 0 < n) (hd : 0 < d) :
    (2 : ℚ) ^ floorLog2 n d ≤ n / d ∧ (n : ℚ) / d < 2 ^ (floorLog2 n d + 1) := by
  have hd' : (0 : ℚ) < d := by exact_mod_cast hd
  obtain ⟨a1, a2⟩ := log2_bounds n hn
  obtain ⟨b1, b2⟩ := log2_bounds d hd
  generalize hln : (Nat.log2 n : ℤ) = ln at *
  generalize hld : (Nat.log2 d : ℤ) = ld at *
  have hup : (n : ℚ) / d < 2 ^ (ln - ld + 1) := by
    rw [div_lt_iff₀ hd']
    calc (n : ℚ) < 2 ^ (ln + 1) := a2
      _ = 2 ^ (ln - ld + 1) * 2 ^ ld := by rw [← zpow_add₀ (by norm_num)]; congr 1; ring
      _ ≤ _ := by gcongr
  have hlo : (2 : ℚ) ^ (ln - ld - 1) ≤ n / d := by
    rw [le_div_iff₀ hd']
    calc (2 : ℚ) ^ (ln - ld - 1) * d ≤ 2 ^ (ln - ld - 1) * 2 ^ (ld + 1) := by gcongr
      _ = 2 ^ ln := by rw [← zpow_add₀ (by norm_num)]; congr 1; ring
      _ ≤ n := a1
  unfold floorLog2
  simp only [hln, hld]
  split
  · rename_i h
    rw [scaledLe_iff] at h
    refine ⟨?_, hup⟩
    rw [le_div_iff₀ hd', mul_comm]; exact h
  · rename_i h
    rw [scaledLe_iff] at h
    refine ⟨hlo, ?_⟩
    rw [sub_add_cancel, div_lt_iff₀ hd', mul_comm]; exact lt_of_not_ge h

/-- What the finite encodings stand for. -/
theorem funpack_fsigned (neg : Bool) (b : Nat) (h : b < 0x7FF0000000000000) :
    funpack (fsigned neg b)
      = if b / 4503599627370496 = 0 then .fin neg b (-1074)
        else .fin neg (b % 4503599627370496 + 4503599627370496)
          ((b / 4503599627370496 : Nat) - 1075) := by
  have hs : fsign (fsigned neg b) = neg := by
    unfold fsign fsigned
    rw [BitVec.msb_eq_decide]
    cases neg <;> simp [BitVec.toNat_ofNat] <;> omega
  have ht : (fsigned neg b).toNat = b + (if neg then 9223372036854775808 else 0) := by
    unfold fsigned; rw [BitVec.toNat_ofNat]; apply Nat.mod_eq_of_lt; split <;> omega
  have he : fexp (fsigned neg b) = b / 4503599627370496 := by unfold fexp; rw [ht]; split <;> omega
  have hf : ffrac (fsigned neg b) = b % 4503599627370496 := by
    unfold ffrac; rw [ht]; split <;> omega
  unfold funpack
  rw [he, hf, hs, if_neg (by omega)]
  split
  · rename_i h0; rw [Nat.mod_eq_of_lt (by omega)]
  · rfl

/-- The value of a finite encoding. -/
theorem finiteValue_of_fin {x : F64} {neg : Bool} {m : Nat} {e : Int}
    (h : funpack x = .fin neg m e) :
    finiteValue x = some (if neg then -scaled m e else scaled m e) := by
  unfold finiteValue; rw [h]

/-- `alignTo` is exact. -/
theorem alignTo_value (e0 e : Int) (neg : Bool) (m : Nat) (h : e0 ≤ e) :
    (alignTo e0 neg m e : ℚ) * 2 ^ e0 = if neg then -scaled m e else scaled m e := by
  obtain ⟨j, hj⟩ := Int.eq_ofNat_of_zero_le (show 0 ≤ e - e0 by omega)
  obtain rfl : e = e0 + j := by omega
  unfold alignTo scaled
  rw [hj]
  simp only [Int.toNat_natCast, Nat.shiftLeft_eq]
  rw [zpow_add₀ (by norm_num), zpow_natCast]
  split <;> (push_cast; ring)

/-- What a NaN unpacks to. -/
theorem funpack_nan {x : F64} (h : fisNaN x = true) : funpack x = .nan := by
  unfold fisNaN at h; simp at h
  unfold funpack; rw [if_pos h.1, if_neg h.2]

end Sys2Proof.Machine
end

