-- ==== Sys2Proof/Laws/PerInstr.lean ====
section
/-! SUPPORT. Statements made per instruction, with one lemma for each constructor. -/

/-- The word of a command decodes to it, and its reserved bits are 0 (30_encoding.md R140, R142,
R143). -/
def Sys2Proof.Laws.WordRoundTrip.Statement (i : Sys2Proof.Instr) : Prop :=
  Sys2Proof.decode (Sys2Proof.encode i) = .instr i
    ∧ (Sys2Proof.encode i).extractLsb' 8 24 = 0
    ∧ (Sys2Proof.encode i).extractLsb' 0 8 = i.opcode

namespace Sys2Proof.Laws

theorem WordRoundTrip.modulate : WordRoundTrip.Statement .modulate := by
  unfold WordRoundTrip.Statement; decide

theorem WordRoundTrip.demodulate : WordRoundTrip.Statement .demodulate := by
  unfold WordRoundTrip.Statement; decide

theorem WordRoundTrip.whiten : WordRoundTrip.Statement .whiten := by
  unfold WordRoundTrip.Statement; decide

theorem WordRoundTrip.crc24 : WordRoundTrip.Statement .crc24 := by
  unfold WordRoundTrip.Statement; decide

theorem WordRoundTrip.assemble : WordRoundTrip.Statement .assemble := by
  unfold WordRoundTrip.Statement; decide

theorem WordRoundTrip.aaDetect : WordRoundTrip.Statement .aaDetect := by
  unfold WordRoundTrip.Statement; decide

theorem WordRoundTrip.genPulse : WordRoundTrip.Statement .genPulse := by
  unfold WordRoundTrip.Statement; decide

end Sys2Proof.Laws
end

