-- ==== Sys2Proof/Tests/Slice0.lean ====
section
/-! SUPPORT. Tests: ill-formed terms are refused, the words of the opcode table decode, the examples of
95_test_vectors.md come out, and every statement with hypotheses has a state and operands that meet
them. Expected values are the spec's, never the model's. -/

namespace Sys2Proof.Tests

open Sys2Proof.Machine

/-! ## Small states -/

/-- `word` accepted after reset, with the configuration `f` makes of the reset one and `mem`. -/
def started (word : Word) (f : CfgRegs → CfgRegs) (mem : Memory) : State :=
  State.accept { State.reset with regs := f CfgRegs.reset, mem := mem } word

/-- Memory in which the bytes from `a` on have been written. -/
def bytesAt (a : Nat) (l : List Byte) : Memory := Memory.unwritten.writeBytes a l

/-- What `f` reads off the state in which a command completes. -/
def after {α : Type} (i : Instr) (s : State) (f : State → α) : Option α :=
  match exec i s with
  | .next t => some (f t)
  | .fault _ => none
  | .refused _ => none

/-! ## Ill-formed terms -/

theorem test_wf_reserved_bits : Cmd32.wf { opcode := 0x01, rsvd := 1 } = false := by decide
theorem test_wf_opcode_zero : Cmd32.wf { opcode := 0x00, rsvd := 0 } = false := by decide
theorem test_wf_opcode_eight : Cmd32.wf { opcode := 0x08, rsvd := 0 } = false := by decide
theorem test_wf_opcode_last : Cmd32.wf { opcode := 0x07, rsvd := 0 } = true := by decide
theorem test_wf_wrbytes_empty : Stmt.wf (.wrbytes 0x1000 []) = false := by decide
theorem test_wf_wrbits_empty : Stmt.wf (.wrbits 0x4000 []) = false := by decide
theorem test_wf_wrf64_no_number : Stmt.wf (.wrf64 0x100000 false 1 0) = false := by decide
theorem test_wf_run : Stmt.wf (.run .genPulse) = true := by decide

/-! ## Decoding: the words of 30_encoding.md R140 and R143, bit 31 first -/

theorem test_decode_modulate :
    decode 0b00000000000000000000000000000001 = .instr .modulate := by decide
theorem test_decode_demodulate :
    decode 0b00000000000000000000000000000010 = .instr .demodulate := by decide
theorem test_decode_whiten :
    decode 0b00000000000000000000000000000011 = .instr .whiten := by decide
theorem test_decode_crc24 :
    decode 0b00000000000000000000000000000100 = .instr .crc24 := by decide
theorem test_decode_assemble :
    decode 0b00000000000000000000000000000101 = .instr .assemble := by decide
theorem test_decode_aa_detect :
    decode 0b00000000000000000000000000000110 = .instr .aaDetect := by decide
theorem test_decode_gen_pulse :
    decode 0b00000000000000000000000000000111 = .instr .genPulse := by decide
/-- 30_encoding.md R145: one past the last opcode. -/
theorem test_decode_past_last :
    decode 0b00000000000000000000000000001000 = .illegal .illegalOpcode := by decide
/-- 30_encoding.md R142: the lowest and the highest reserved bit. -/
theorem test_decode_reserved :
    decode 0b00000000000000000000000100000100 = .illegal .reservedBits
      ∧ decode 0b10000000000000000000000000000010 = .illegal .reservedBits := by decide
theorem test_decodeTableWord :
    decodeTableWord 32 3 = some .whiten ∧ decodeTableWord 8 7 = some .genPulse
      ∧ decodeTableWord 32 0 = none := by decide

/-! ## Examples of 95_test_vectors.md -/

/-- §2.1: bits 3 to 10 of a zero buffer, channel 0. -/
theorem test_whiten_bits :
    after .whiten
      (started 3 (fun c => { c with phycfg := { c.phycfg with channel := 0 }, opOff := 3, opLen := 8 })
        (bytesAt 0x4000 [0, 0]))
      (fun t => (t.mem.byte 0x4000, t.mem.byte 0x4001)) = some (0x10, 0x01) := by decide
/-- §2.1: channel 40. -/
theorem test_whiten_bad_channel :
    after .whiten (started 3 (fun c => { c with phycfg := { c.phycfg with channel := 40 } }) .unwritten)
      (fun t => t.reg .status) = some 0x030B0506 := by decide
/-- §2.2. -/
theorem test_crc24_scenario_a :
    after .crc24 (started 4 (fun c => { c with crcNbytes := 5 }) (bytesAt 0x1000 [0, 3, 1, 2, 3]))
      (fun t => t.reg .resCrc) = some 0x00F7E11A := by decide +kernel
/-- §2.9: nothing has been written. -/
theorem test_crc24_uninit :
    exec .crc24 (started 4 (fun c => { c with crcNbytes := 1 }) .unwritten)
      = .fault (.uninitRead .crc24 0x1000) := by rfl
/-- §2.3: header `02 01`, payload `AB`. -/
theorem test_assemble_bytes :
    after .assemble (started 5 id (bytesAt 0x1000 [0x02, 0x01, 0xAB]))
      (fun t => ((List.range 11).map fun j => t.mem.byte (0x4000 + j), t.reg .txNbits))
      = some ([0xAA, 0xD6, 0xBE, 0x89, 0x8E, 0x91, 0x41, 0xCF, 0x56, 0x6A, 0x22], 88) := by
  decide +kernel
/-- §2.3: PHY_MODE 2. -/
theorem test_assemble_bad_phy :
    after .assemble (started 5 (fun c => { c with phycfg := { c.phycfg with phyMode := 2 } }) .unwritten)
      (fun t => t.reg .status) = some 0x050B0206 := by decide
/-- §2.7: `110` and then the pattern. -/
theorem test_aa_detect_hit :
    after .aaDetect
      (started 6 (fun c => { c with opLen := 43 })
        (bytesAt 0x4000 [0x53, 0xB5, 0xF6, 0x4D, 0x74, 0x04]))
      (fun t => (t.reg .resFlags, t.reg .resSyncPos, t.reg .resAa))
      = some (0x00000704, 3, 0x8E89BED6) := by decide +kernel
/-- §2.7: five mismatches. -/
theorem test_aa_detect_miss :
    after .aaDetect
      (started 6 (fun c => { c with opLen := 43 })
        (bytesAt 0x4000 [0x43, 0xA5, 0xB6, 0x4D, 0x75, 0x00]))
      (fun t => (t.reg .resFlags, t.reg .resSyncPos, t.reg .resAa)) = some (0x00000700, 0, 0) := by
  decide +kernel
/-- §2.4: the reset configuration. -/
theorem test_gen_pulse_lengths :
    after .genPulse (started 7 id .unwritten) (fun t => (t.reg .resCoefLen, t.reg .resSps))
      = some (25, 8) := by rfl
/-- §2.4: PHY_MODE 3 with SAMPLE_RATE 0. -/
theorem test_gen_pulse_first_check :
    after .genPulse
      (started 7 (fun c => { c with phycfg := { c.phycfg with phyMode := 3 }, sampleRate := 0 })
        .unwritten)
      (fun t => t.reg .status) = some 0x070B0206 := by decide
/-- §2.5: one bit, `sps = 2`, `L = 3`. -/
theorem test_modulate_length :
    after .modulate
      (started 1 (fun c => { c with sampleRate := 2000000, span := 1, txNbits := 1 })
        (bytesAt 0x4000 [1]))
      (fun t => (t.reg .iqNsamp, t.reg .status)) = some (4, 0x010B0002) := by rfl
/-- §2.5: LENGTH. -/
theorem test_modulate_length_check :
    after .modulate (started 1 (fun c => { c with iqOff := 65535, txNbits := 1 }) .unwritten)
      (fun t => t.reg .status) = some 0x010B0706 := by decide
/-- §2.6: `M = 0`. -/
theorem test_demodulate_no_samples :
    after .demodulate (started 2 id .unwritten)
      (fun t => (t.reg .resFlags, t.reg .resNbits, t.reg .status)) = some (0x00000700, 0, 0x020B0002) := by
  rfl
/-- §2.6: LENGTH. -/
theorem test_demodulate_length :
    after .demodulate (started 2 (fun c => { c with iqOff := 65000, iqNsamp := 600 }) .unwritten)
      (fun t => t.reg .status) = some 0x020B0706 := by decide
/-- §2.4: `sps` of some rates, ties to even. -/
theorem test_sps_ties :
    [3500000, 2500000, 1500000, 500000].map (fun fs => roundHalfEven fs 1000000) = [4, 2, 2, 0] := by
  decide
/-- §2.8: `wr32 STATUS, 2` clears DONE and keeps ERR. -/
theorem test_status_w1c :
    (Status.w1c ⟨true, true, false, .emptyInput, .done, 1⟩ 2).toWord false = 0x010B0604 := by
  decide
/-- §2.8: `wr64 0x0014F8`, then the byte at `0x0014FF`. -/
theorem test_port_little_endian :
    (match State.hostWrite State.reset 0x0014F8 .w64 0x0807060504030201 with
      | .next t => t.mem.byte 0x0014FF
      | .fault _ => 0
      | .refused _ => 0) = 0x08 := by decide
/-- §2.8: accesses that are bus errors. -/
theorem test_port_bus_errors :
    [admitted 0x000004 .w16, admitted 0x000006 .w32, admitted 0x000100 .w8, admitted 0x001500 .w8,
      admitted 0x0014FC .w64] = [false, false, false, false, false] := by decide
/-- The first step after placing a word runs it (log 2). -/
theorem test_step_runs_placed_word :
    step (State.withFetchWord State.reset 32 4) = exec .crc24 (State.accept State.reset 4) := by rfl

/-! ## Witnesses: the hypotheses of the statements can be met, clause by clause, at the boundaries -/

/-- `CRC24` of one byte that has been written. -/
def crcOne : State := started 4 (fun c => { c with crcNbytes := 1 }) (bytesAt 0x1000 [0x01])
/-- `DEMODULATE` at its beginning, of no samples. -/
def demodNone : State := started 2 id .unwritten
/-- `DEMODULATE` of the last sample of `IQ`. -/
def demodLast : State :=
  started 2 (fun c => { c with iqOff := 65535, iqNsamp := 1 }) (bytesAt 0x1FFFF0 (List.replicate 16 0))
/-- `ASSEMBLE` of a header without payload. -/
def assembleEmpty : State := started 5 (fun c => { c with opLen := 80 }) (bytesAt 0x1000 [0, 0])
/-- `MODULATE` of one bit. -/
def modulateOne : State := started 1 (fun c => { c with txNbits := 1 }) (bytesAt 0x4000 [1])
/-- `WHITEN` of the last bit of `TXBIT`. -/
def whitenLast : State :=
  started 3 (fun c => { c with opOff := 131071, opLen := 1 }) (bytesAt 0x7FFF [0])

theorem witness_IllegalWordCompletesAtOnce :
    State.reset.running = none ∧ (0x00000100 : Word).extractLsb' 8 24 ≠ 0
      ∧ (0x80000002 : Word).extractLsb' 8 24 ≠ 0 ∧ (0x00000000 : Word).extractLsb' 0 8 = 0
      ∧ 8 ≤ ((0x00000008 : Word).extractLsb' 0 8).toNat
      ∧ 8 ≤ ((0x000000FF : Word).extractLsb' 0 8).toNat := by decide

theorem witness_WriteToCmdRequestsACommand :
    crcOne.running.isSome = true ∧ State.reset.running = none
      ∧ (0x0000000000000007 : DWord).setWidth 32 = encode .genPulse
      ∧ ∀ i, (0x0000000000000008 : DWord).setWidth 32 ≠ encode i := by
  refine ⟨by decide, by decide, by decide, fun i => ?_⟩
  cases i <;> decide

theorem witness_OverrunIsOnlyRecorded : ∃ r, crcOne.running = some r := ⟨_, rfl⟩

theorem witness_RunningCommandReadsItsSnapshot :
    (∃ r, crcOne.running = some r) ∧ Reg.stores .crcNbytes = true ∧ Reg.stores .ctrl = true
      ∧ Reg.crcNbytes ∉ outputRegs .crc24 ∧ Reg.ctrl ∉ outputRegs .crc24 :=
  ⟨⟨_, rfl⟩, by decide, by decide, by decide, by decide⟩

/-- A command that completes with OK, and one that is refused. -/
theorem witness_EveryCommandEndsWithCompletion :
    (∃ t, exec .crc24 crcOne = .next t)
      ∧ exec .modulate (started 1 id .unwritten)
        = .next ((started 1 id .unwritten).refuse .emptyInput) := ⟨⟨_, rfl⟩, rfl⟩

theorem witness_FailedCheckRefusesTheCommand :
    checkOf .modulate (started 1 id .unwritten).cfg .unwritten ≠ .ok
      ∧ demodNone.status.stage = .start
      ∧ checkOf .demodulate { CfgRegs.reset with sampleRate := 500000 } .unwritten ≠ .ok := by
  decide

/-- The checks at the boundaries of their ranges: each fails first where it is stated to. -/
theorem witness_ChecksFollowTheTable :
    checkOf .genPulse { CfgRegs.reset with span := 33, sampleRate := 31000000 } .unwritten = .ok
      ∧ checkOf .genPulse { CfgRegs.reset with span := 128 } .unwritten = .badParam
      ∧ checkOf .whiten { CfgRegs.reset with opOff := 131072 } .unwritten = .ok
      ∧ checkOf .whiten { CfgRegs.reset with opOff := 131072, opLen := 1 } .unwritten = .length
      ∧ checkOf .crc24 { CfgRegs.reset with crcNbytes := 1024 } .unwritten = .ok
      ∧ checkOf .crc24 { CfgRegs.reset with crcNbytes := 1025 } .unwritten = .length
      ∧ checkOf .demodulate { CfgRegs.reset with iqOff := 65536 } .unwritten = .ok
      ∧ checkOf .demodulate { CfgRegs.reset with iqOff := 65536, iqNsamp := 1 } .unwritten = .length
      ∧ checkOf .modulate { CfgRegs.reset with iqOff := 65504, txNbits := 1 } .unwritten = .ok
      ∧ checkOf .modulate { CfgRegs.reset with iqOff := 65505, txNbits := 1 } .unwritten = .length := by
  decide

theorem witness_CommandCompletesIffItsInputIsWritten :
    checkOf .crc24 crcOne.cfg crcOne.mem = .ok
      ∧ Memory.Written (inputSpans .crc24 crcOne.cfg crcOne.mem) crcOne.mem
      ∧ ¬ Memory.Written (inputSpans .crc24 crcOne.cfg .unwritten) .unwritten := by
  have key := fun m => Memory.written_bytes (m := m) (base := 0x1000) (first := 0) (count := 1)
  refine ⟨by decide, (key _).2 ?_, fun h => ?_⟩
  · intro j hj
    obtain rfl : j = 0 := by omega
    decide
  · exact absurd ((key _).1 h 0 (by decide)) (by decide)

/-- With each kind of input: none, `run`, a host access of either kind, a stage, reset. -/
theorem witness_StepRunsTheDecodedCommand :
    (∃ r, crcOne.running = some r ∧ decode r.word = .instr .crc24) ∧ crcOne.inputs = []
      ∧ State.inputs { crcOne with inputs := [.run] } = .run :: [] ∧ State.reset.running = none
      ∧ decodeTableWord 32 1 = some .modulate ∧ decodeTableWord 32 7 = some .genPulse
      ∧ State.inputs { crcOne with inputs := [.access (.read 0x000004 .w32), .stage] }
        = .access (.read 0x000004 .w32) :: [.stage]
      ∧ State.inputs { crcOne with inputs := [.access (.write 0x1FFFF8 .w64 1), .reset] }
        = .access (.write 0x1FFFF8 .w64 1) :: [.reset] :=
  ⟨⟨_, rfl, rfl⟩, rfl, rfl, rfl, rfl, rfl, rfl, rfl⟩

/-- A stage that goes on and, after it, one that completes: S_DEWHITEN and S_PARSE of no bits. -/
theorem witness_DemodulatorStagesAdvanceInOrder :
    (∃ t, coreStage (demodNone.advance Work.empty .dewhiten) = .next t ∧ t.status.stage = .parse)
      ∧ ∃ t, coreStage (demodNone.advance Work.empty .parse) = .next t ∧ t.status.stage = .done :=
  ⟨⟨_, rfl, rfl⟩, ⟨_, rfl, rfl⟩⟩

theorem witness_InterruptFollowsEnableAndDone :
    (∃ t, exec .crc24 crcOne = .next t)
      ∧ (2 : DWord).getLsbD 1 = true ∧ (2 : DWord).getLsbD 0 = false :=
  ⟨⟨_, rfl⟩, rfl, rfl⟩

/-- Channel 39 is allowed and 40 is not; the last bit of `TXBIT` can be whitened and no bit past it. -/
theorem witness_WhitenWhitensItsBitRange :
    whitenLast.mem.wf = true
      ∧ 39 < (40 : BitVec 6).toNat ∧ (39 : BitVec 6).toNat ≤ 39
      ∧ 131072 < (131072 : Word).toNat + (1 : Word).toNat
      ∧ whitenLast.cfg.phycfg.channel.toNat ≤ 39
      ∧ whitenLast.cfg.opOff.toNat + whitenLast.cfg.opLen.toNat = 131072
      ∧ ∀ j, j < whitenLast.cfg.opLen.toNat →
          whitenLast.mem.bitWritten Config.txbitBase (whitenLast.cfg.opOff.toNat + j) = true := by
  decide

theorem witness_WhitenTwiceRestoresTheBuffer :
    whitenLast.mem.wf = true ∧ whitenLast.regs = whitenLast.cfg
      ∧ ∃ t, exec .whiten whitenLast = .next t ∧ t.status.errCode = .ok :=
  ⟨by decide, rfl, ⟨_, rfl, rfl⟩⟩

theorem witness_Crc24WritesTheCrcOfItsBytes :
    1024 < (1025 : Word).toNat ∧ (1024 : Word).toNat ≤ 1024
      ∧ ∀ j, j < (1024 : Word).toNat →
          (bytesAt 0x1000 (List.replicate 1024 0)).mask (Config.pduInBase + j) = 0xFF := by
  refine ⟨by decide, by decide, fun j hj => ?_⟩
  have hj : j < 1024 := hj
  rw [bytesAt, Memory.mask_writeBytes Memory.unwritten_wf, if_pos]
  rw [List.length_replicate]
  show 4096 ≤ 4096 + j ∧ 4096 + j < 4096 + 1024
  omega

theorem witness_AssembleBuildsThePacketStream :
    assembleEmpty.mem.wf = true
      ∧ 2 ≤ (2 : BitVec 2).toNat ∧ 39 < (40 : BitVec 6).toNat
      ∧ assembleEmpty.cfg.phycfg.phyMode.toNat < 2 ∧ assembleEmpty.cfg.phycfg.channel.toNat ≤ 39
      ∧ (assembleEmpty.mem.byte (Config.pduInBase + 1)).toNat = 0
      ∧ ∀ j, j < 2 + 0 → assembleEmpty.mem.mask (Config.pduInBase + j) = 0xFF := by decide

/-- The longest payload. -/
theorem witness_AssembleBuildsThePacketStream_longest :
    (bytesAt 0x1000 (List.replicate 257 0xFF)).wf = true
      ∧ ((bytesAt 0x1000 (List.replicate 257 0xFF)).byte (Config.pduInBase + 1)).toNat = 255
      ∧ ∀ j, j < 2 + 255 →
          (bytesAt 0x1000 (List.replicate 257 0xFF)).mask (Config.pduInBase + j) = 0xFF := by
  refine ⟨Memory.wf_writeBytes Memory.unwritten_wf _ _, ?_, fun j hj => ?_⟩
  · rw [bytesAt, Memory.byte_writeBytes Memory.unwritten_wf, if_pos]
    · decide
    · rw [List.length_replicate]; decide
  · rw [bytesAt, Memory.mask_writeBytes Memory.unwritten_wf, if_pos]
    rw [List.length_replicate]
    show 4096 ≤ 4096 + j ∧ 4096 + j < 4096 + 257
    omega

/-- No bit, where nothing is found; and 43 bits, where the pattern stands at bit 3. -/
theorem witness_AaDetectReportsTheLeftmostHit :
    2 ≤ (2 : BitVec 2).toNat ∧ 131072 < (131072 : Word).toNat + (1 : Word).toNat
      ∧ CfgRegs.reset.phycfg.phyMode.toNat < 2
      ∧ findSync [] (syncPattern CfgRegs.reset.accessAddr CfgRegs.reset.phycfg) = none
      ∧ (∀ j, j < 43 →
          (bytesAt 0x4000 [0x53, 0xB5, 0xF6, 0x4D, 0x74, 0x04]).bitWritten Config.txbitBase j = true)
      ∧ findSync
          ((List.range 43).map fun j =>
            (bytesAt 0x4000 [0x53, 0xB5, 0xF6, 0x4D, 0x74, 0x04]).bit Config.txbitBase j)
          (syncPattern CfgRegs.reset.accessAddr CfgRegs.reset.phycfg) = some 3 := by decide +kernel

/-- Each clause at a boundary: a rate that rounds to 0, a pulse of 1025 and one of 1024 values. -/
theorem witness_GenPulseWritesThePulse :
    Memory.unwritten.wf = true ∧ 2 ≤ (2 : BitVec 2).toNat
      ∧ roundHalfEven (500000 : Word).toNat 1000000 = 0 ∧ 0 < roundHalfEven (500001 : Word).toNat 1000000
      ∧ 1024 < (128 : Byte).toNat * roundHalfEven (8000000 : Word).toNat 1000000 + 1
      ∧ (33 : Byte).toNat * roundHalfEven (31000000 : Word).toNat 1000000 + 1 = 1024
      ∧ (33 : Byte) ≠ 0 ∧ (1 : Word) ≠ 0 := by decide

theorem witness_ModulateWritesTheWaveform :
    modulateOne.mem.wf = true ∧ modulateCheck modulateOne.cfg = .ok
      ∧ ∀ j, j < modulateOne.cfg.txNbits.toNat →
          modulateOne.mem.bitWritten Config.txbitBase j = true := by decide

/-- One bit at eight samples per symbol gives 32 samples, the first and the last. -/
theorem witness_WaveformFollowsThePhase :
    [true] ≠ [] ∧ 0 < CfgRegs.reset.sps ∧ 0 < 1 * CfgRegs.reset.sps + CfgRegs.reset.pulseLen - 1
      ∧ 31 < 1 * CfgRegs.reset.sps + CfgRegs.reset.pulseLen - 1 ∧ 7 < CfgRegs.reset.sps := by decide

theorem witness_DemodulateIsThePipeline :
    demodLast.mem.wf = true ∧ demodLast.status.stage = .start
      ∧ demodulateCheck demodLast.cfg = .ok
      ∧ (∀ j, j < 16 * demodLast.cfg.iqNsamp.toNat →
          demodLast.mem.mask (Config.iqBase + 16 * demodLast.cfg.iqOff.toNat + j) = 0xFF)
      ∧ ∃ k e, pipeline demodLast.cfg
          (samplesOf ((List.range (16 * demodLast.cfg.iqNsamp.toNat)).map
            (fun j => demodLast.mem.byte
              (Config.iqBase + 16 * demodLast.cfg.iqOff.toNat + j)))) = (k, e) :=
  ⟨by decide +kernel, by decide, by decide, by decide +kernel, ⟨_, _, rfl⟩⟩

/-- The invariant holds of a state in which a command runs. -/
theorem demodNone_inv : demodNone.Inv where
  memWf := rfl
  memMapped := fun a h => absurd rfl h
  restStage := fun h => by cases h
  idleStatus := fun h => by cases h
  doneStage := fun h => by cases h
  errCode := fun h => by cases h
  raised := fun h => by cases h
  busyStatus := fun r h => by cases h; exact ⟨rfl, rfl, rfl⟩
  runs := fun r h => by cases h; exact ⟨.demodulate, rfl, .inl ⟨rfl, rfl⟩⟩
  flags := by unfold ResFlags.Legal; decide
  pduLen := by decide

/-- `DEMODULATE` of no samples in S_PACKET_SYNC, with what the stages before have computed. -/
def demodSync : State := demodNone.advance (frontEnd demodNone.cfg []) .packetSync

/-- The invariant holds of a state in which a command has come to a later stage. -/
theorem demodSync_inv : demodSync.Inv where
  memWf := rfl
  memMapped := fun a h => absurd rfl h
  restStage := fun h => by cases h
  idleStatus := fun h => by cases h
  doneStage := fun h => by cases h
  errCode := fun h => by cases h
  raised := fun h => by cases h
  busyStatus := fun r h => by cases h; exact ⟨rfl, rfl, rfl⟩
  runs := fun r h => by cases h; exact ⟨.demodulate, rfl, .inr ⟨rfl, [], rfl, rfl⟩⟩
  flags := by unfold ResFlags.Legal; decide
  pduLen := by decide

/-- In its first and in a later stage. -/
theorem witness_InterruptedDemodulateStillGivesThePipeline :
    (demodNone.Inv ∧ ∃ r bytes k e, demodNone.running = some r ∧ r.word = encode .demodulate
        ∧ demodulateCheck r.cfg = .ok ∧ demodNone.iqBytes = .ok bytes
        ∧ pipeline r.cfg (samplesOf bytes) = (k, e))
      ∧ demodSync.Inv ∧ demodSync.status.stage = .packetSync
      ∧ ∃ r bytes k e, demodSync.running = some r ∧ r.word = encode .demodulate
        ∧ demodulateCheck r.cfg = .ok ∧ demodSync.iqBytes = .ok bytes
        ∧ pipeline r.cfg (samplesOf bytes) = (k, e) :=
  ⟨⟨demodNone_inv, _, _, _, _, rfl, rfl, rfl, rfl, rfl⟩,
    demodSync_inv, rfl, ⟨_, _, _, _, rfl, rfl, rfl, rfl, rfl⟩⟩

theorem witness_DemodulatorHasFiveOutcomes : ∃ k e, pipeline CfgRegs.reset [] = (k, e) := ⟨_, _, rfl⟩

theorem witness_AtMostOneSampleFindsNoSync :
    ([] : List Cx).length ≤ 1 ∧ [cx0].length ≤ 1 := by decide

theorem witness_ModulateAfterAssembleSendsThePacket :
    assembleEmpty.mem.wf = true ∧ assembleEmpty.regs = assembleEmpty.cfg
      ∧ (∃ t, exec .assemble assembleEmpty = .next t ∧ t.status.errCode = .ok)
      ∧ after .assemble assembleEmpty (fun t => modulateCheck t.regs) = some .ok :=
  ⟨by decide, rfl, ⟨_, rfl, rfl⟩, by decide +kernel⟩

theorem witness_DemodulateAfterModulateCompletes :
    modulateOne.mem.wf = true ∧ modulateOne.regs = modulateOne.cfg
      ∧ (∃ t, exec .modulate modulateOne = .next t ∧ t.status.errCode = .ok)
      ∧ after .modulate modulateOne (fun t => demodulateCheck t.regs) = some .ok :=
  ⟨by decide, rfl, ⟨_, rfl, rfl⟩, rfl⟩

theorem witness_AaDetectFindsAnAssembledPacket :
    assembleEmpty.mem.wf = true ∧ assembleEmpty.regs = assembleEmpty.cfg
      ∧ assembleEmpty.cfg.opOff = 0
      ∧ (∃ t, exec .assemble assembleEmpty = .next t ∧ t.status.errCode = .ok)
      ∧ after .assemble assembleEmpty (fun t => t.regs.txNbits.toNat)
        = some assembleEmpty.cfg.opLen.toNat :=
  ⟨by decide, rfl, rfl, ⟨_, rfl, rfl⟩, by decide +kernel⟩

/-- The shortest and the longest payload. -/
theorem witness_AssembledPacketIsReceived :
    IsPdu [0x00, 0x00] ∧ IsPdu (0x00 :: 0xFF :: List.replicate 255 0xAB)
      ∧ [true] ++ packetStream CfgRegs.reset [0, 0] ++ []
        = Work.bits { Work.empty with bits := true :: packetStream CfgRegs.reset [0, 0], pos := 1 } := by
  refine ⟨rfl, ?_, by simp⟩
  unfold IsPdu
  rw [List.length_cons, List.length_cons, List.length_replicate]
  rfl

theorem witness_WhiteningSequenceHasPeriod127 : 0 < 1 ∧ 1 < 127 ∧ 0 < 126 ∧ 126 < 127 := by decide

theorem witness_WhiteningIsItsOwnInverse : 0 < [true].length := by decide

theorem witness_BitsAndBytesConvert :
    0 < [(0x80 : Byte)].length ∧ 7 < 8 ∧ 0 < (List.replicate 8 true).length / 8 := by decide

theorem witness_SyncPatternIsPreambleThenAddress :
    7 < CfgRegs.reset.phycfg.preambleLen ∧ 31 < 32 ∧ CfgRegs.reset.phycfg.phyMode = 0
      ∧ PhyCfg.phyMode { CfgRegs.reset.phycfg with phyMode := 1 } = 1 := by decide

theorem witness_RoundHalfEvenIsNearestTiesToEven : 0 < 1 := by decide

theorem witness_CrcDetectsEverySingleBitFlip : 0 < [(0 : Byte)].length ∧ 0 < 8 ∧ 7 < 8 := by decide

theorem witness_CrcIsTheReversedRegister :
    0 < 24 ∧ 23 < 24 ∧ crcBytes 0xF7E11A = [0x1A, 0xE1, 0xF7] := by decide

theorem witness_HitMeansAtMostFourMismatches :
    CfgRegs.reset.phycfg.phyMode.toNat < 2
      ∧ CfgRegs.reset.phycfg.syncLen ≤ (List.replicate 40 false).length := by decide

/-- The exact pattern with one bit before and one bit after it. -/
theorem witness_PositionNextToThePatternIsNoHit :
    ((false :: syncPattern 0x8E89BED6 CfgRegs.reset.phycfg ++ [false]).drop 1).take
        CfgRegs.reset.phycfg.syncLen = syncPattern 0x8E89BED6 CfgRegs.reset.phycfg
      ∧ 1 + 1 + CfgRegs.reset.phycfg.syncLen
        ≤ (false :: syncPattern 0x8E89BED6 CfgRegs.reset.phycfg ++ [false]).length := by decide

/-- A third and, as the other number, 1; as operands 1 and −2, and as a divisor not 0 the latter. -/
theorem witness_RoundingIsToNearest :
    (0 < 3 ∧ ∃ r, finiteValue (fround false 1 3 0) = some r)
      ∧ finiteValue f1 = some 1 ∧ finiteValue (fneg f2) = some (-2) ∧ (-2 : ℚ) ≠ 0 := by
  refine ⟨⟨by decide, _, rfl⟩, ?_, ?_, by norm_num⟩
  · exact congrArg some (show scaled (2 ^ 52) (-52) = 1 by norm_num [scaled])
  · exact congrArg some (show -scaled (2 ^ 52) (-51) = -2 by norm_num [scaled])

theorem witness_ComparisonIsOfValues :
    (∃ a b, finiteValue f1 = some a ∧ finiteValue (fneg f2) = some b) ∧ fisNaN fnan = true
      ∧ fisZero f0 = true ∧ fisZero (fneg f0) = true :=
  ⟨⟨_, _, rfl, rfl⟩, by decide, by decide, by decide⟩

/-- Two phases, of which the second has the greater energy. -/
theorem witness_TimingPicksTheFirstPhaseOfGreatestEnergy :
    0 < 2 ∧ 1 < 2 ∧ bestPhase [f0, f1] 2 = 1 := by decide +kernel

theorem witness_DecidedBitsFitTheBuffer :
    demodulateCheck CfgRegs.reset = .ok ∧ ([] : List Cx).length = CfgRegs.reset.iqNsamp.toNat
      ∧ demodulateCheck { CfgRegs.reset with iqNsamp := 2 } = .ok
      ∧ [cx0, cx0].length = (CfgRegs.iqNsamp { CfgRegs.reset with iqNsamp := 2 }).toNat := by decide

/-- The first byte past the register window, a misaligned access, and one past the last buffer. -/
theorem witness_BusErrorChangesNothing :
    admitted 0x000100 .w32 = false ∧ admitted 0x001001 .w16 = false
      ∧ admitted 0x200000 .w8 = false := by decide

/-- A written byte while a command runs that does not write it, and a register that it does not write;
the first and the last bytes of the buffers, and the last register offset. -/
theorem witness_BufferReadReturnsTheLastWrite :
    (admitted 0x001000 .w8 = true ∧ crcOne.mem.mask 0x001000 = 0xFF
        ∧ ∀ i, crcOne.activeInstr = some i →
            spansMask (outputSpans i crcOne.cfg crcOne.mem) 0x001000 = 0 ∧ Reg.resSps ∉ outputRegs i)
      ∧ State.reset.mem.wf = true ∧ State.reset.running = none ∧ admitted 0x001000 .w64 = true
      ∧ admitted 0x1FFFF8 .w64 = true ∧ admitted 0x0000FC .w32 = true := by
  refine ⟨⟨by decide, by decide, fun i hi => ?_⟩, by decide, rfl, by decide, by decide, by decide⟩
  obtain rfl : Instr.crc24 = i := Option.some.inj hi
  decide

/-- The first and the last code, and the first and the last stage. -/
theorem witness_StatusWordHoldsItsFields :
    State.reset.status.errCode = .ok ∧ State.reset.status.stage = .idle ∧ crcOne.status.stage = .exec
      ∧ (State.complete crcOne .length).status.errCode = .length := by decide

theorem witness_RegisterWriteStoresTheFieldBits :
    State.reset.running = none ∧ Reg.stores .ctrl = true ∧ Reg.stores .crcNbytes = true
      ∧ Reg.readOnly .resFlags = true ∧ Reg.readOnly .resFreqHi = true
      ∧ regAt 0x044 = none ∧ regAt 0x0AC = none ∧ regAt 0x0FC = none := by decide

/-- The one byte that a running CRC24 reads, the byte after it, and a register of each kind. -/
theorem witness_FootprintWriteFaults :
    crcOne.activeInstr = some .crc24 ∧ admitted 0x001000 .w8 = true ∧ admitted 0x001001 .w8 = true
      ∧ spansMask (inputSpans .crc24 crcOne.cfg crcOne.mem
          ++ outputSpans .crc24 crcOne.cfg crcOne.mem) 0x001000 ≠ 0
      ∧ spansMask (inputSpans .crc24 crcOne.cfg crcOne.mem
          ++ outputSpans .crc24 crcOne.cfg crcOne.mem) 0x001001 = 0
      ∧ Reg.resCrc ∈ outputRegs .crc24 ∧ Reg.resCrcRx ∉ outputRegs .crc24 := by decide

/-- A command that passes its checks and one that does not. -/
theorem witness_CommandWritesOnlyItsOutputFootprint :
    crcOne.mem.wf = true ∧ (∃ t, exec .crc24 crcOne = .next t)
      ∧ checkOf .crc24 crcOne.cfg crcOne.mem = .ok
      ∧ (∃ t, exec .modulate (started 1 id .unwritten) = .next t)
      ∧ checkOf .modulate (started 1 id .unwritten).cfg .unwritten ≠ .ok :=
  ⟨by decide, ⟨_, rfl⟩, by decide, ⟨_, rfl⟩, by decide⟩

/-- The other memory differs at the byte after the one that CRC24 reads. -/
theorem witness_CommandDependsOnlyOnItsInputFootprint :
    crcOne.mem.wf = true ∧ (bytesAt 0x1000 [0x01, 0x02]).wf = true
      ∧ checkOf .crc24 crcOne.cfg crcOne.mem = .ok
      ∧ (∀ a k, k < 8 → ∀ sp ∈ inputSpans .crc24 crcOne.cfg crcOne.mem, sp.covers a k = true →
          ((bytesAt 0x1000 [0x01, 0x02]).byte a).getLsbD k = (crcOne.mem.byte a).getLsbD k
            ∧ ((bytesAt 0x1000 [0x01, 0x02]).mask a).getLsbD k = (crcOne.mem.mask a).getLsbD k)
      ∧ ∃ t, exec .crc24 crcOne = .next t := by
  refine ⟨by decide, by decide, by decide, ?_, ⟨_, rfl⟩⟩
  intro a k hk sp hsp hc
  have hs : sp = ⟨0x1000, 0, 8⟩ := List.mem_singleton.1 hsp
  subst hs
  obtain ⟨h1, h2⟩ := BitSpan.covers_range hk hc
  obtain rfl : a = 0x1000 := by
    have h1 : 0x1000 ≤ a := h1
    have h2 : 8 * (a - 0x1000) < 0 + 8 := h2
    omega
  exact ⟨by congr 1, by congr 1⟩

theorem witness_PollingEndsOnceTheCommandCompletes :
    (∃ r, crcOne.running = some r) ∧ crcOne.status.done = false := ⟨⟨_, rfl⟩, rfl⟩

theorem witness_PacketScanEnds : State.reset.running = none ∧ 0 < State.reset.regs.sps := by decide

theorem witness_ResetAbandonsEverything :
    State.inputs { crcOne with inputs := [.reset] } = .reset :: [] := rfl

theorem witness_EveryStepKeepsTheInvariant :
    demodNone.Inv ∧ ∃ t, step demodNone = .next t := ⟨demodNone_inv, _, rfl⟩

end Sys2Proof.Tests
end

section
/-! SUPPORT. The decoder and the encoder together: a word that decodes to a command is that
command's word (30_encoding.md R140 to R145). -/

namespace Sys2Proof

/-- What the word of a command decodes to, whichever command it is. -/
theorem wordRoundTrip (i : Instr) : Laws.WordRoundTrip.Statement i := by
  cases i with
  | modulate => exact Laws.WordRoundTrip.modulate
  | demodulate => exact Laws.WordRoundTrip.demodulate
  | whiten => exact Laws.WordRoundTrip.whiten
  | crc24 => exact Laws.WordRoundTrip.crc24
  | assemble => exact Laws.WordRoundTrip.assemble
  | aaDetect => exact Laws.WordRoundTrip.aaDetect
  | genPulse => exact Laws.WordRoundTrip.genPulse

@[simp] theorem decode_encode (i : Instr) : decode (encode i) = .instr i := (wordRoundTrip i).1

@[simp] theorem extractLsb'_opcode_encode (i : Instr) : (encode i).extractLsb' 0 8 = i.opcode :=
  (wordRoundTrip i).2.2

/-- A word is its two fields put together (30_encoding.md R140). -/
theorem Cmd32.toWord_ofWord (w : Word) : Cmd32.toWord (Cmd32.ofWord w) = w :=
  calc w.extractLsb' 8 24 ++ w.extractLsb' 0 8
    _ = w.extractLsb' 0 32 := BitVec.extractLsb'_append_extractLsb'_eq_extractLsb' rfl
    _ = w := BitVec.extractLsb'_eq_self

/-- An opcode of the map is the opcode of its command (30_encoding.md R143). -/
theorem opcode_of_decodeOpcode {op : Byte} {i : Instr} (h : decodeOpcode op = some i) :
    op = i.opcode := by
  unfold decodeOpcode at h
  split_ifs at h <;> cases h <;> assumption

/-- Only the word of a command decodes to it. -/
theorem eq_encode_of_decode {w : Word} {i : Instr} (h : decode w = .instr i) : w = encode i := by
  unfold decode at h
  split at h
  case isTrue => cases h
  case isFalse hrsvd =>
    split at h
    case h_2 => cases h
    case h_1 j hop =>
      cases h
      have hfields : Cmd32.ofWord w = { opcode := i.opcode, rsvd := 0 } := by
        rw [← opcode_of_decodeOpcode hop, ← not_not.1 hrsvd]
      rw [encode, ← hfields, Cmd32.toWord_ofWord]

/-- A word that is no command's word is illegal (30_encoding.md R142, R145). -/
theorem decode_illegal {w : Word} (h : ∀ i, w ≠ encode i) : ∃ e, decode w = .illegal e := by
  cases hd : decode w with
  | instr i => exact absurd (eq_encode_of_decode hd) (h i)
  | illegal e => exact ⟨e, rfl⟩

end Sys2Proof
end

section
/-! SUPPORT. What a request for a command does (10_state.md R51): one equation per case, and what it
leaves unchanged in each of them. -/

namespace Sys2Proof.Machine

/-- DEMODULATE starts in S_START, every other command in S_EXEC (10_state.md R51). -/
theorem firstStage_encode (i : Instr) :
    firstStage (encode i) = if i = .demodulate then .start else .exec := by
  cases i <;> rfl

theorem State.request_of_busy {s : State} (h : s.running.isSome = true) (w : Word) :
    s.request w = { s with status := { s.status with cmdOvr := true } } := by
  unfold State.request; rw [if_pos h]

theorem State.request_encode {s : State} (h : s.running = none) (i : Instr) :
    s.request (encode i) = s.accept (encode i) := by
  unfold State.request; rw [h, decode_encode]; rfl

theorem State.request_illegal {s : State} (h : s.running = none) {w : Word} {e : DecodeError}
    (hw : decode w = .illegal e) : s.request w = (s.accept w).refuse .illegalCmd := by
  unfold State.request; rw [h, hw]; rfl

/-- The three cases of a request. -/
theorem State.request_cases (s : State) (w : Word) :
    s.request w = { s with status := { s.status with cmdOvr := true } }
      ∨ s.request w = s.accept w ∨ s.request w = (s.accept w).refuse .illegalCmd := by
  by_cases hbusy : s.running.isSome = true
  · exact .inl (State.request_of_busy hbusy w)
  · have hidle : s.running = none := by simpa using hbusy
    cases hw : decode w with
    | instr i =>
      obtain rfl := eq_encode_of_decode hw
      exact .inr (.inl (State.request_encode hidle i))
    | illegal e => exact .inr (.inr (State.request_illegal hidle hw))

@[simp] theorem State.request_irqEn (s : State) (w : Word) : (s.request w).irqEn = s.irqEn := by
  rcases State.request_cases s w with h | h | h <;> simp [h]

@[simp] theorem State.request_regs (s : State) (w : Word) : (s.request w).regs = s.regs := by
  rcases State.request_cases s w with h | h | h <;> simp [h]

@[simp] theorem State.request_res (s : State) (w : Word) : (s.request w).res = s.res := by
  rcases State.request_cases s w with h | h | h <;> simp [h]

@[simp] theorem State.request_mem (s : State) (w : Word) : (s.request w).mem = s.mem := by
  rcases State.request_cases s w with h | h | h <;> simp [h]

/-- A host write to `CMD` is a request for the word written; `CMD` is in no footprint. -/
theorem State.hostWrite_cmd (s : State) (d : DWord) :
    s.hostWrite 0x000 .w32 d
      = .next { s.request (d.setWidth 32) with response := some writeDone } :=
  State.hostWrite_reg s .cmd d (State.outputReg_cmd s)

end Sys2Proof.Machine
end

section
/-! SUPPORT. How a command that checks, reads and writes in one go ends (10_state.md R56,
60_exceptions.md R404). -/

namespace Sys2Proof.Machine

/-- A next state in the outcome is either `s` completed with OK or `s` refused. -/
def EndsFrom (s : State) (o : Host.Outcome State Fault Refusal) : Prop :=
  ∀ t, o = .next t → Completed s t .ok ∨ ∃ code, code ≠ .ok ∧ t = s.refuse code

/-- A body that has left `STATUS` and `CTRL` alone ends well by completing. -/
theorem EndsFrom.complete {s t : State} (hst : t.status = s.status) (hirq : t.irqEn = s.irqEn) :
    EndsFrom s (.next (t.complete .ok)) := by
  intro u hu
  cases hu
  exact .inl (completed_complete s t .ok hst hirq)

theorem EndsFrom.guarded {s : State} {code : ErrCode} {b : Host.Outcome State Fault Refusal}
    (hb : EndsFrom s b) : EndsFrom s (s.guarded code b) := by
  intro t ht
  rcases State.guarded_next ht with ⟨hcode, rfl⟩ | ⟨-, ht⟩
  · exact .inr ⟨code, hcode, rfl⟩
  · exact hb t ht

theorem EndsFrom.withRead {α : Type} {s : State} {i : Instr} {r : Except Nat α}
    {b : α → Host.Outcome State Fault Refusal} (hb : ∀ v, EndsFrom s (b v)) :
    EndsFrom s (withRead i r b) := by
  intro t ht
  obtain ⟨v, -, hv⟩ := withRead_next ht
  exact hb v t hv

theorem execModulate_ends (s : State) : EndsFrom s (execModulate s) :=
  .guarded <| .withRead fun bits => .complete (modulated_status s bits) (modulated_irqEn s bits)

theorem execWhiten_ends (s : State) : EndsFrom s (execWhiten s) :=
  .guarded <| .withRead fun _ => .complete rfl rfl

theorem execCrc24_ends (s : State) : EndsFrom s (execCrc24 s) :=
  .guarded <| .withRead fun _ => .complete rfl rfl

theorem execAssemble_ends (s : State) : EndsFrom s (execAssemble s) :=
  .guarded <| .withRead fun _ => .guarded <| .withRead fun pdu =>
    .complete (assembled_status s pdu) (assembled_irqEn s pdu)

theorem execAaDetect_ends (s : State) : EndsFrom s (execAaDetect s) :=
  .guarded <| .withRead fun _ => .complete rfl rfl

theorem execGenPulse_ends (s : State) : EndsFrom s (execGenPulse s) :=
  .guarded <| .complete (pulseGenerated_status s) (pulseGenerated_irqEn s)

end Sys2Proof.Machine
end

section
/-! SUPPORT. The stages of DEMODULATE: what one stage can do, and that ten of them complete the
command (10_state.md R33, 43_demodulator.md R310). -/

namespace Sys2Proof.Machine

/-- How many stages of DEMODULATE are left at the beginning of a stage, that one included; the
control points outside the pipeline begin it anew, as `demodStage` does. -/
def Stage.stagesLeft : Stage → Nat
  | .freqSync => 9
  | .demod => 8
  | .filter => 7
  | .timingSync => 6
  | .bitDecision => 5
  | .packetSync => 4
  | .dewhiten => 3
  | .parse => 2
  | .crcCheck => 1
  | .start | .idle | .done | .exec => 10

theorem Stage.stagesLeft_pos (g : Stage) : 0 < g.stagesLeft := by cases g <;> decide

theorem Stage.stagesLeft_le (g : Stage) : g.stagesLeft ≤ 10 := by cases g <;> decide

/-- `t` is `s` at the next stage of DEMODULATE, with what has been computed so far; of the rest of
the block only the buffers may differ. -/
def AdvancedTo (s t : State) (g : Stage) : Prop :=
  ∃ (m : Memory) (k : Work), t = State.advance { s with mem := m } k g

theorem advancedTo_advance (s : State) (k : Work) (g : Stage) : AdvancedTo s (s.advance k g) g :=
  ⟨s.mem, k, rfl⟩

theorem AdvancedTo.stage {s t : State} {g : Stage} (h : AdvancedTo s t g) : t.status.stage = g := by
  obtain ⟨m, k, rfl⟩ := h
  rfl

theorem AdvancedTo.running {s t : State} {g : Stage} (h : AdvancedTo s t g) : t.running ≠ none := by
  obtain ⟨m, k, rfl⟩ := h
  exact Option.some_ne_none _

/-- `complete(code)` after a stage's end is `complete(code)` before it: it sets `STAGE` itself. -/
theorem AdvancedTo.completed {s t u : State} {g : Stage} {code : ErrCode} (h : AdvancedTo s t g)
    (hu : Completed t u code) : Completed s u code := by
  obtain ⟨m, k, rfl⟩ := h
  obtain ⟨hst, hrun, hirq⟩ := hu
  exact ⟨hst, hrun, hirq⟩

/-- What an exit of the pipeline leaves (43_demodulator.md R340). -/
theorem completed_demodExit (s : State) (k : Work) (e : DemodExit) :
    Completed s (demodExit s k e) .ok :=
  completed_complete s _ .ok rfl rfl

/-- S_PACKET_SYNC goes on after a hit and exits without one (43_demodulator.md R330, R331). -/
theorem demodPacketSync_cases (s : State) :
    AdvancedTo s (demodPacketSync s) .dewhiten ∨ Completed s (demodPacketSync s) .ok := by
  unfold demodPacketSync
  split
  case h_1 => exact .inr (completed_demodExit ..)
  case h_2 => exact .inl (advancedTo_advance ..)

/-- S_PARSE exits if the header or the announced bytes are missing (43_demodulator.md R333). -/
theorem demodParse_cases (s : State) :
    AdvancedTo s (demodParse s) .crcCheck ∨ Completed s (demodParse s) .ok := by
  unfold demodParse
  split_ifs
  · exact .inr (completed_demodExit ..)
  · exact .inr (completed_demodExit ..)
  · exact .inl (advancedTo_advance ..)

/-- The start of DEMODULATE is refused or goes on to S_FREQ_SYNC (43_demodulator.md R310, R312). -/
theorem demodStart_next {s t : State} (h : demodStart s = .next t) :
    (∃ code, code ≠ .ok ∧ t = s.refuse code) ∨ AdvancedTo s t .freqSync := by
  rcases State.guarded_next h with ⟨hcode, rfl⟩ | ⟨-, hread⟩
  · exact .inl ⟨_, hcode, rfl⟩
  · obtain ⟨bytes, -, ht⟩ := withRead_next hread
    cases ht
    exact .inr (advancedTo_advance ..)

/-- With all ten stages left the stage is the start of DEMODULATE. -/
theorem demodStage_eq_demodStart {s : State} (h : s.status.stage.stagesLeft = 10) :
    demodStage s = demodStart s := by
  unfold demodStage
  split
  case h_10 | h_11 | h_12 | h_13 => rfl
  all_goals rename_i hg; rw [hg] at h; cases h

/-- A stage of DEMODULATE goes on to the next stage, completes the command, or, as the first one
only, refuses it. -/
theorem demodStage_next {s t : State} (h : demodStage s = .next t) :
    (∃ g, AdvancedTo s t g ∧ g.stagesLeft + 1 = s.status.stage.stagesLeft)
      ∨ Completed s t .ok
      ∨ (s.status.stage.stagesLeft = 10 ∧ ∃ code, code ≠ .ok ∧ t = s.refuse code) := by
  by_cases hleft : s.status.stage.stagesLeft = 10
  · rw [demodStage_eq_demodStart hleft] at h
    rcases demodStart_next h with hrefused | hadv
    · exact .inr (.inr ⟨hleft, hrefused⟩)
    · exact .inl ⟨.freqSync, hadv, hleft.symm⟩
  · cases hg : s.status.stage with
    | freqSync => rw [demodStage, hg] at h; cases h; exact .inl ⟨.demod, advancedTo_advance .., rfl⟩
    | demod => rw [demodStage, hg] at h; cases h; exact .inl ⟨.filter, advancedTo_advance .., rfl⟩
    | filter =>
      rw [demodStage, hg] at h; cases h; exact .inl ⟨.timingSync, advancedTo_advance .., rfl⟩
    | timingSync =>
      rw [demodStage, hg] at h; cases h; exact .inl ⟨.bitDecision, advancedTo_advance .., rfl⟩
    | bitDecision =>
      rw [demodStage, hg] at h; cases h; exact .inl ⟨.packetSync, ⟨_, _, rfl⟩, rfl⟩
    | packetSync =>
      rw [demodStage, hg] at h; cases h
      exact (demodPacketSync_cases s).imp (fun hadv => ⟨.dewhiten, hadv, rfl⟩) .inl
    | dewhiten => rw [demodStage, hg] at h; cases h; exact .inl ⟨.parse, advancedTo_advance .., rfl⟩
    | parse =>
      rw [demodStage, hg] at h; cases h
      exact (demodParse_cases s).imp (fun hadv => ⟨.crcCheck, hadv, rfl⟩) .inl
    | crcCheck => rw [demodStage, hg] at h; cases h; exact .inr (.inl (completed_demodExit ..))
    | start | idle | done | exec => exact absurd (by rw [hg]; rfl) hleft

/-- How a run of stages comes to a next state: its first stage does, and either ends the command or
leaves it to the stages after it. -/
theorem demodRun_next {n : Nat} {s t : State} (h : demodRun (n + 1) s = .next t) :
    ∃ u, demodStage s = .next u
      ∧ ((u.running ≠ none ∧ demodRun n u = .next t) ∨ (u.running = none ∧ u = t)) := by
  cases hu : demodStage s with
  | next u =>
    refine ⟨u, rfl, ?_⟩
    by_cases hr : u.running = none
    · rw [demodRun_done hu hr] at h; cases h
      exact .inr ⟨hr, rfl⟩
    · rw [demodRun_step hu (Option.isSome_iff_ne_none.2 hr)] at h
      exact .inl ⟨hr, h⟩
  | fault f => rw [demodRun, hu] at h; cases h
  | refused r => rw [demodRun, hu] at h; cases h

/-- As many stages as are left complete the command, unless its first one refuses it. -/
theorem demodRun_ends {n : Nat} {s t : State} (hn : s.status.stage.stagesLeft ≤ n)
    (h : demodRun n s = .next t) :
    Completed s t .ok
      ∨ (s.status.stage.stagesLeft = 10 ∧ ∃ code, code ≠ .ok ∧ t = s.refuse code) := by
  induction n generalizing s with
  | zero => have := s.status.stage.stagesLeft_pos; omega
  | succ n ih =>
    obtain ⟨u, hu, hrest⟩ := demodRun_next h
    rcases demodStage_next hu with ⟨g, hadv, hg⟩ | hdone | ⟨hleft, code, hcode, rfl⟩
    · have hbound := s.status.stage.stagesLeft_le
      rw [← hadv.stage] at hg
      obtain ⟨-, ht⟩ | ⟨hnone, -⟩ := hrest
      · rcases ih (by omega) ht with hdone | ⟨hleft, -⟩
        · exact .inl (hadv.completed hdone)
        · omega
      · exact absurd hnone hadv.running
    · obtain ⟨-, hnone, -⟩ := id hdone
      obtain ⟨hsome, -⟩ | ⟨-, rfl⟩ := hrest
      · exact absurd hnone hsome
      · exact .inl hdone
    · obtain ⟨hsome, -⟩ | ⟨-, rfl⟩ := hrest
      · exact absurd rfl hsome
      · exact .inr ⟨hleft, code, hcode, rfl⟩

theorem execDemodulate_ends (s : State) : EndsFrom s (execDemodulate s) := fun _ h =>
  (demodRun_ends s.status.stage.stagesLeft_le h).imp_right fun hrefused => hrefused.2

end Sys2Proof.Machine
end

section
/-! SUPPORT. What every command has in common, and what a buffer reads as after reset. -/

namespace Sys2Proof.Machine

/-- Every command that ends completes with OK or is refused. -/
theorem exec_ends (i : Instr) (s : State) : EndsFrom s (exec i s) := by
  cases i with
  | modulate => exact execModulate_ends s
  | demodulate => exact execDemodulate_ends s
  | whiten => exact execWhiten_ends s
  | crc24 => exact execCrc24_ends s
  | assemble => exact execAssemble_ends s
  | aaDetect => exact execAaDetect_ends s
  | genPulse => exact execGenPulse_ends s

@[simp] theorem Memory.mask_unwritten (a : Nat) : Memory.unwritten.mask a = 0 := getCell_nil a

end Sys2Proof.Machine
end

section
/-! The statements of the state, the command lifecycle and reset (10_state.md R51, R56, R61). -/

namespace Sys2Proof.Proofs

open Sys2Proof.Machine

/-- Settles O4: a write to `CMD` is a request, whose three cases are `request_of_busy`,
`request_encode` and `request_illegal`. -/
theorem writeToCmdRequestsACommand : Obligations.WriteToCmdRequestsACommand := by
  unfold Obligations.WriteToCmdRequestsACommand
  intro s d
  refine ⟨_, State.hostWrite_cmd s d, State.request_irqEn s _, State.request_regs s _,
    State.request_res s _, State.request_mem s _, fun hbusy => ?_, fun i hidle hw => ?_,
    fun hidle hw => ?_⟩
  · simp [State.request_of_busy hbusy]
  · rw [hw, State.request_encode hidle]
    exact ⟨by simp [firstStage_encode], rfl, coreRun_of_running rfl (decode_encode i)⟩
  · obtain ⟨e, he⟩ := decode_illegal hw
    have hlow : (d.setWidth 32).extractLsb' 0 8 = d.extractLsb' 0 8 :=
      BitVec.extractLsb'_setWidth_of_le (by decide)
    rw [State.request_illegal hidle he]
    exact ⟨rfl, by simp [hlow]⟩

/-- Settles O7: by `exec_ends` the code is OK or that of the refusal. -/
theorem everyCommandEndsWithCompletion : Obligations.EveryCommandEndsWithCompletion := by
  unfold Obligations.EveryCommandEndsWithCompletion
  intro i s t h
  rcases exec_ends i s t h with hok | ⟨code, -, rfl⟩
  · exact ⟨.ok, hok, fun hne => absurd rfl hne⟩
  · have hrefused := refused_refuse s code
    exact ⟨code, hrefused.1, fun _ => hrefused⟩

/-- Settles O57: the reset values of the registers by evaluation, the empty buffers by
`Memory.mask_unwritten`. -/
theorem resetRegisterValues : Obligations.ResetRegisterValues := by
  unfold Obligations.ResetRegisterValues
  refine ⟨by decide, by decide, rfl, rfl, rfl, by decide, rfl, by decide, rfl, fun a => ?_⟩
  exact Memory.mask_unwritten a

end Sys2Proof.Proofs
end

section
/-! SUPPORT. Which words are illegal, and what a refusal right after acceptance leaves of an idle
core (30_encoding.md R142, R145; 60_exceptions.md R404). -/

namespace Sys2Proof

/-- The opcodes of the map are 0x01 to 0x07 (30_encoding.md R143). -/
theorem Instr.opcode_bounds (i : Instr) : 0 < i.opcode.toNat ∧ i.opcode.toNat < 8 := by
  cases i <;> decide

/-- A word with a reserved bit set, or with an opcode outside the map, is no command's word. -/
theorem ne_encode_of_malformed {w : Word}
    (h : w.extractLsb' 8 24 ≠ 0 ∨ w.extractLsb' 0 8 = 0 ∨ 8 ≤ (w.extractLsb' 0 8).toNat)
    (i : Instr) : w ≠ encode i := by
  rintro rfl
  obtain ⟨-, hrsvd, hop⟩ := wordRoundTrip i
  have hbounds := i.opcode_bounds
  rw [hrsvd, hop] at h
  rcases h with hset | hzero | hlarge
  · exact hset rfl
  · rw [hzero] at hbounds
    exact absurd hbounds.1 (by decide)
  · omega

end Sys2Proof

namespace Sys2Proof.Machine

/-- On an idle core acceptance followed by a refusal leaves no running command, as before. -/
theorem State.refuse_accept {s : State} (h : s.running = none) (w : Word) (code : ErrCode) :
    (s.accept w).refuse code
      = { s with
          status :=
            { s.status with
              done := true
              err := decide (code ≠ .ok)
              errCode := code
              stage := .done
              lastOp := w.extractLsb' 0 8 } } := by
  obtain ⟨status, irqEn, regs, res, mem, running, inputs, response, draws⟩ := s
  obtain rfl : running = none := h
  rfl

end Sys2Proof.Machine
end

section
/-! SUPPORT. The check table (30_encoding.md R147): the checks of every command are a search for the
first failing row in the order of the codes (60_exceptions.md R403). -/

namespace Sys2Proof.Machine

/-! ### The first failing code of a list -/

/-- The first code of the list whose check fails; OK if none does. -/
def firstFailing (fails : ErrCode → Prop) [DecidablePred fails] : List ErrCode → ErrCode
  | [] => .ok
  | code :: rest => if fails code then code else firstFailing fails rest

section
variable {fails : ErrCode → Prop} [DecidablePred fails] {l : List ErrCode} {code : ErrCode}

@[simp] theorem firstFailing_nil : firstFailing fails [] = .ok := rfl

@[simp] theorem firstFailing_cons :
    firstFailing fails (code :: l) = if fails code then code else firstFailing fails l := rfl

theorem firstFailing_cons_of_fails (h : fails code) : firstFailing fails (code :: l) = code :=
  if_pos h

theorem firstFailing_cons_of_passes (h : ¬ fails code) :
    firstFailing fails (code :: l) = firstFailing fails l := if_neg h

theorem fails_of_firstFailing (h : firstFailing fails l = code) (hok : code ≠ .ok) :
    fails code := by
  induction l with
  | nil => exact absurd h.symm hok
  | cons a rest ih =>
    by_cases ha : fails a
    · rw [firstFailing_cons_of_fails ha] at h
      exact h ▸ ha
    · rw [firstFailing_cons_of_passes ha] at h
      exact ih h

theorem firstFailing_eq_ok_iff (hok : .ok ∉ l) :
    firstFailing fails l = .ok ↔ ∀ code ∈ l, ¬ fails code := by
  induction l with
  | nil => simp
  | cons a rest ih =>
    obtain ⟨hne, hrest⟩ := List.ne_and_not_mem_of_not_mem_cons hok
    by_cases ha : fails a
    · simp [firstFailing_cons_of_fails ha, ha, hne.symm]
    · simp [firstFailing_cons_of_passes ha, ha, ih hrest]

/-- In a list that rises in the number of the codes, the code found is the failing one of the least
number. -/
theorem firstFailing_eq_iff (hrise : l.Pairwise fun a b => a.code.toNat < b.code.toNat)
    (hok : .ok ∉ l) (hmem : code ∈ l) :
    firstFailing fails l = code ↔
      fails code ∧ ∀ earlier ∈ l, earlier.code.toNat < code.code.toNat → ¬ fails earlier := by
  induction l with
  | nil => cases hmem
  | cons a rest ih =>
    obtain ⟨hbelow, hrise⟩ := List.pairwise_cons.1 hrise
    have hok' : .ok ∉ rest := fun h => hok (List.mem_cons_of_mem a h)
    by_cases ha : fails a
    · rw [firstFailing_cons_of_fails ha]
      rcases List.mem_cons.1 hmem with rfl | hmem
      · simp only [true_iff, List.forall_mem_cons, lt_irrefl, false_implies, true_and]
        exact ⟨ha, fun b hb hlt => absurd (hbelow b hb) (by omega)⟩
      · have hlt := hbelow code hmem
        have hne : a ≠ code := fun h => by simp [h] at hlt
        simp [hne, ha, hlt]
    · rw [firstFailing_cons_of_passes ha]
      rcases List.mem_cons.1 hmem with rfl | hmem
      · have hne : code ≠ .ok := fun h => hok (h ▸ hmem)
        simp only [ha, false_and, iff_false]
        exact fun h => ha (fails_of_firstFailing h hne)
      · simp [ih hrise hok' hmem, ha]

end

/-- The codes other than OK, in the order of their numbers (60_exceptions.md R401). -/
def errorCodes : List ErrCode :=
  [.illegalCmd, .badPhy, .badRate, .badParam, .badChannel, .emptyInput, .length]

theorem errorCodes_rise : errorCodes.Pairwise fun a b => a.code.toNat < b.code.toNat := by decide

theorem mem_errorCodes {code : ErrCode} : code ∈ errorCodes ↔ code ≠ .ok := by
  cases code <;> decide

/-! ### The rows of the table, in the terms of the model's checks -/

section
variable (i : Instr) (c : CfgRegs) (m : Memory)

@[simp] theorem checkFails_ok : ¬ checkFails i c m .ok := id

@[simp] theorem checkFails_illegalCmd : ¬ checkFails i c m .illegalCmd := id

@[simp] theorem checkFails_badPhy :
    checkFails i c m .badPhy ↔
      i ∈ [Instr.modulate, .demodulate, .assemble, .aaDetect, .genPulse] ∧ c.badPhy = true := by
  rw [CfgRegs.badPhy, decide_eq_true_eq]
  rfl

@[simp] theorem checkFails_badRate :
    checkFails i c m .badRate ↔
      i ∈ [Instr.modulate, .demodulate, .genPulse] ∧ c.badRate = true := by
  rw [CfgRegs.badRate, decide_eq_true_eq]
  rfl

@[simp] theorem checkFails_badParam :
    checkFails i c m .badParam ↔
      (i ∈ [Instr.modulate, .genPulse] ∨ (i = .demodulate ∧ c.phycfg.mfEn = true))
          ∧ c.badPulse = true
        ∨ (i = .demodulate ∧ c.phycfg.mfEn = false) ∧ c.badBoxcar = true := by
  rw [CfgRegs.badPulse, CfgRegs.badBoxcar, Bool.or_eq_true, Bool.or_eq_true, or_assoc]
  simp only [decide_eq_true_eq]
  rfl

@[simp] theorem checkFails_badChannel :
    checkFails i c m .badChannel ↔
      (i = .whiten ∨ ((i = .assemble ∨ i = .demodulate) ∧ c.phycfg.whitenEn = true))
        ∧ c.badChannel = true := by
  rw [CfgRegs.badChannel, decide_eq_true_eq]
  rfl

@[simp] theorem checkFails_emptyInput :
    checkFails i c m .emptyInput ↔ i = .modulate ∧ c.txNbits = 0 := Iff.rfl

@[simp] theorem checkFails_length :
    checkFails i c m .length ↔
      match i with
      | .modulate =>
        Config.txbitCap < c.txNbits.toNat ∨ Config.iqCap < c.iqOff.toNat + c.modulatedLen
      | .demodulate => Config.iqCap < c.iqOff.toNat + c.iqNsamp.toNat
      | .whiten | .aaDetect => c.badOpRange = true
      | .crc24 => Config.pduInCap < c.crcNbytes.toNat
      | .assemble => Config.txbitCap < c.streamLen (m.byte (Config.pduInBase + 1))
      | .genPulse => False := by
  cases i with
  | modulate =>
    have hlen : c.iqOff.toNat + c.modulatedLen
        = c.iqOff.toNat + c.txNbits.toNat * c.sps + (c.span.toNat * c.sps + 1) - 1 := by
      unfold CfgRegs.modulatedLen CfgRegs.pulseLen
      omega
    simp only [hlen]
    rfl
  | whiten | aaDetect => simp [checkFails, CfgRegs.badOpRange]
  | demodulate | crc24 | assemble | genPulse => rfl

/-- No check has the code OK, so what holds along the list of codes holds of every code. -/
theorem forall_errorCodes_iff (p : ErrCode → Prop) :
    (∀ code ∈ errorCodes, p code → ¬ checkFails i c m code)
      ↔ ∀ code, p code → ¬ checkFails i c m code := by
  refine ⟨fun h code hp => ?_, fun h code _ => h code⟩
  by_cases hcode : code = .ok
  · exact hcode ▸ checkFails_ok i c m
  · exact h code (mem_errorCodes.2 hcode) hp

/-! ### Every command's checks are the search through the table -/

/-- The checks of ASSEMBLE as one chain, with the LENGTH check last (60_exceptions.md R403). -/
theorem checkOf_assemble :
    checkOf .assemble c m
      = if c.badPhy then .badPhy
        else if c.phycfg.whitenEn && c.badChannel then .badChannel
        else assembleLenCheck c (m.byte (Config.pduInBase + 1)) := by
  unfold checkOf assembleCheck
  by_cases hphy : c.badPhy = true
  · simp [hphy]
  · by_cases hchannel : (c.phycfg.whitenEn && c.badChannel) = true
    · simp [hphy, hchannel]
    · simp [hphy, hchannel]

/-- With the rows that its command does not apply left out, the search is the command's own chain
of checks. -/
theorem checkOf_eq_firstFailing [DecidablePred (checkFails i c m)] :
    checkOf i c m = firstFailing (checkFails i c m) errorCodes := by
  unfold errorCodes
  cases i with
  | modulate => simp [checkOf, modulateCheck]
  | demodulate =>
    cases hfilter : c.phycfg.mfEn with
    | true => simp [checkOf, demodulateCheck, hfilter]
    | false => simp [checkOf, demodulateCheck, hfilter]
  | whiten => simp [checkOf, whitenCheck]
  | crc24 => simp [checkOf, crc24Check]
  | assemble => simp [checkOf_assemble, assembleLenCheck]
  | aaDetect => simp [checkOf, aaDetectCheck]
  | genPulse => simp [checkOf, genPulseCheck]

end

end Sys2Proof.Machine
end

section
/-! The statements of the encoding: command words, illegal words and the check table
(30_encoding.md R142, R143, R145, R147). -/

namespace Sys2Proof.Proofs

open Sys2Proof.Machine

/-- Settles O1: one direction is `eq_encode_of_decode`, the other `decode_encode`; the seven words
by evaluation. -/
theorem wordIsACommandIffItIsItsEncoding : Obligations.WordIsACommandIffItIsItsEncoding := by
  unfold Obligations.WordIsACommandIffItIsItsEncoding
  refine ⟨fun w i => ⟨eq_encode_of_decode, ?_⟩, by decide⟩
  rintro rfl
  exact decode_encode i

/-- Settles O3: a malformed word is no command's word, so its request is refused on the spot. -/
theorem illegalWordCompletesAtOnce : Obligations.IllegalWordCompletesAtOnce := by
  unfold Obligations.IllegalWordCompletesAtOnce
  intro s w hidle hmalformed
  have hne := ne_encode_of_malformed hmalformed
  obtain ⟨e, he⟩ := decode_illegal hne
  refine ⟨fun i hi => hne i (eq_encode_of_decode hi), ?_⟩
  rw [State.request_illegal hidle he, State.refuse_accept hidle]
  rfl

/-- Settles O9: the checks are a search through the table (`checkOf_eq_firstFailing`), and the
codes rise along it. -/
theorem checksFollowTheTable : Obligations.ChecksFollowTheTable := by
  classical
  unfold Obligations.ChecksFollowTheTable
  intro i c m
  have hok : .ok ∉ errorCodes := by decide
  rw [checkOf_eq_firstFailing]
  refine ⟨?_, fun code hcode => ?_⟩
  · rw [firstFailing_eq_ok_iff hok]
    simpa using forall_errorCodes_iff i c m fun _ => True
  · rw [firstFailing_eq_iff errorCodes_rise hok (mem_errorCodes.2 hcode),
      forall_errorCodes_iff]

end Sys2Proof.Proofs
end

section
/-! SUPPORT. Bits and bytes (40_framing.md R220): which bits `bitsOf` and `bytesOf` give, and that
the one undoes the other. -/

namespace Sys2Proof.Machine

@[simp] theorem bitsOfByte_length (v : Byte) : (bitsOfByte v).length = 8 := by simp [bitsOfByte]

@[simp] theorem bitsOf_cons (v : Byte) (l : List Byte) :
    bitsOf (v :: l) = bitsOfByte v ++ bitsOf l := rfl

@[simp] theorem bitsOf_length (l : List Byte) : (bitsOf l).length = 8 * l.length := by
  induction l with
  | nil => rfl
  | cons v l ih =>
    rw [bitsOf_cons, List.length_append, bitsOfByte_length, ih, List.length_cons]
    ring

theorem bitsOf_getD (l : List Byte) (m : Nat) {k : Nat} (hk : k < 8) :
    (bitsOf l).getD (8 * m + k) false = (l.getD m 0).getLsbD k := by
  induction l generalizing m with
  | nil => simp [bitsOf]
  | cons v l ih =>
    rw [bitsOf_cons]
    cases m with
    | zero =>
      rw [List.getD_append _ _ _ _ (by simpa using hk), Nat.mul_zero, Nat.zero_add]
      exact range_map_getD 8 k v.getLsbD false hk
    | succ m =>
      rw [List.getD_append_right _ _ _ _ (by simp; omega), List.getD_cons_succ, ← ih m,
        bitsOfByte_length, show 8 * (m + 1) + k - 8 = 8 * m + k by omega]

theorem bytesOf_of_length_lt {c : List Bool} (h : c.length < 8) : bytesOf c = [] := by
  unfold bytesOf
  split
  · simp only [List.length_cons] at h; omega
  · rfl

theorem bytesOf_append {v : List Bool} (hv : v.length = 8) (c : List Bool) :
    bytesOf (v ++ c) = BitVec.ofNat 8 (natOfBits v) :: bytesOf c := by
  match v, hv with
  | [_, _, _, _, _, _, _, _], _ => rfl

/-- The first eight bits give the first byte. -/
theorem bytesOf_of_le_length {c : List Bool} (h : 8 ≤ c.length) :
    bytesOf c = BitVec.ofNat 8 (natOfBits (c.take 8)) :: bytesOf (c.drop 8) := by
  rw [← bytesOf_append (List.length_take_of_le h), List.take_append_drop]

theorem bytesOf_length (c : List Bool) : (bytesOf c).length = c.length / 8 := by
  induction hq : c.length / 8 generalizing c with
  | zero => rw [bytesOf_of_length_lt (by omega), List.length_nil]
  | succ q ih =>
    rw [bytesOf_of_le_length (by omega), List.length_cons,
      ih (c.drop 8) (by rw [List.length_drop]; omega)]

theorem bytesOf_getD {c : List Bool} {m k : Nat} (hm : m < c.length / 8) (hk : k < 8) :
    ((bytesOf c).getD m 0).getLsbD k = c.getD (8 * m + k) false := by
  induction m generalizing c with
  | zero =>
    rw [bytesOf_of_le_length (by omega), List.getD_cons_zero, BitVec.getLsbD_ofNat,
      testBit_natOfBits]
    simp [hk, List.getD_eq_getElem?_getD]
  | succ m ih =>
    rw [bytesOf_of_le_length (by omega), List.getD_cons_succ,
      ih (by rw [List.length_drop]; omega)]
    simp only [List.getD_eq_getElem?_getD, List.getElem?_drop]
    congr 2
    ring

theorem bytesOf_bitsOf (l : List Byte) : bytesOf (bitsOf l) = l := by
  have hlen : (bitsOf l).length / 8 = l.length := by rw [bitsOf_length]; omega
  refine list_ext_getD 0 (by rw [bytesOf_length, hlen]) fun m hm => byte_ext fun k hk => ?_
  rw [bytesOf_length] at hm
  rw [bytesOf_getD hm hk, bitsOf_getD l m hk]

end Sys2Proof.Machine
end

section
/-! SUPPORT. Whitening (40_framing.md R200 to R203): the outputs of the LFSR one by one, and
whitening bit by bit. -/

namespace Sys2Proof.Machine

@[simp] theorem lfsrOutputs_length (s : BitVec 7) (n : Nat) : (lfsrOutputs s n).length = n := by
  induction n generalizing s with
  | zero => rfl
  | succ n ih => rw [lfsrOutputs, List.length_cons, ih]

/-- Output `k` is bit 0 of the state after `k` steps (40_framing.md R202). -/
theorem lfsrOutputs_getD (s : BitVec 7) {n k : Nat} (hk : k < n) :
    (lfsrOutputs s n).getD k false = (lfsrStep^[k] s).getLsbD 0 := by
  induction n generalizing s k with
  | zero => omega
  | succ n ih =>
    cases k with
    | zero => rfl
    | succ k => rw [lfsrOutputs, List.getD_cons_succ, ih _ (by omega), Function.iterate_succ_apply]

theorem whiteningBit_eq (ch : BitVec 6) (k : Nat) :
    whiteningBit ch k = (lfsrStep^[k] (lfsrSeed ch)).getLsbD 0 :=
  lfsrOutputs_getD _ (Nat.lt_succ_self k)

@[simp] theorem whiteningSequence_length (ch : BitVec 6) (n : Nat) :
    (whiteningSequence ch n).length = n := lfsrOutputs_length _ n

/-- A longer sequence begins as a shorter one does. -/
theorem whiteningSequence_getD (ch : BitVec 6) {n k : Nat} (hk : k < n) :
    (whiteningSequence ch n).getD k false = whiteningBit ch k := by
  rw [whiteningBit_eq]
  exact lfsrOutputs_getD _ hk

@[simp] theorem applyWhitening_length (c : List Bool) (ch : BitVec 6) :
    (applyWhitening c ch).length = c.length := by
  simp [applyWhitening]

theorem applyWhitening_getD {c : List Bool} {k : Nat} (hk : k < c.length) (ch : BitVec 6) :
    (applyWhitening c ch).getD k false = (c.getD k false ^^ whiteningBit ch k) := by
  rw [← whiteningSequence_getD ch hk]
  simp [applyWhitening, hk]

theorem applyWhitening_applyWhitening (c : List Bool) (ch : BitVec 6) :
    applyWhitening (applyWhitening c ch) ch = c := by
  refine list_ext_getD false (by simp) fun k hk => ?_
  have hk : k < c.length := by simpa using hk
  rw [applyWhitening_getD (by simpa using hk), applyWhitening_getD hk,
    Bool.xor_assoc, Bool.xor_self, Bool.xor_false]

end Sys2Proof.Machine
end

section
/-! SUPPORT. CRC-24 (40_framing.md R210 to R214): the register bit by bit, its reversal, and the
three bytes sent for it. -/

namespace Sys2Proof.Machine

@[simp] theorem crcRegister_nil (init : BitVec 24) : crcRegister init [] = init := rfl

theorem crcRegister_concat (init : BitVec 24) (l : List Bool) (b : Bool) :
    crcRegister init (l ++ [b]) = crcStep (crcRegister init l) b :=
  List.foldl_concat _ _ _ _

theorem reverse24_getLsbD (v : BitVec 24) {i : Nat} (hi : i < 24) :
    (reverse24 v).getLsbD i = v.getLsbD (23 - i) := by
  rw [reverse24, BitVec.getLsbD_ofNat, testBit_natOfBits, range_map_getD _ _ _ _ hi]
  simp [hi]

theorem crc24_getLsbD (bytes : List Byte) (init : BitVec 24) {i : Nat} (hi : i < 24) :
    (crc24 bytes init).getLsbD i = (crcRegister init (bitsOf bytes)).getLsbD (23 - i) :=
  reverse24_getLsbD _ hi

theorem crc24_nil (init : BitVec 24) : crc24 [] init = reverse24 init := rfl

@[simp] theorem crcBytes_length (c : BitVec 24) : (crcBytes c).length = 3 := rfl

/-- The receiver puts the bytes of a CRC together again (40_framing.md R214). -/
theorem crcOfBytes_extractLsb' (c : BitVec 24) :
    crcOfBytes (c.extractLsb' 0 8) (c.extractLsb' 8 8) (c.extractLsb' 16 8) = c := by
  have hupper : (c.extractLsb' 16 8 ++ c.extractLsb' 8 8 : BitVec 16) = c.extractLsb' 8 16 :=
    BitVec.extractLsb'_append_extractLsb'_eq_extractLsb' rfl
  calc (c.extractLsb' 16 8 ++ c.extractLsb' 8 8 ++ c.extractLsb' 0 8 : BitVec 24)
    _ = (c.extractLsb' 8 16 ++ c.extractLsb' 0 8 : BitVec 24) := by rw [hupper]
    _ = c.extractLsb' 0 24 := BitVec.extractLsb'_append_extractLsb'_eq_extractLsb' rfl
    _ = c := BitVec.extractLsb'_eq_self

end Sys2Proof.Machine
end

section
/-! SUPPORT. The patterns of a packet (40_framing.md R218, R219, R221) and the length of its stream
(R226, R230). -/

namespace Sys2Proof.Machine

@[simp] theorem aaBits_length (aa : Word) : (aaBits aa).length = 32 := by simp [aaBits]

theorem aaBits_getD (aa : Word) {i : Nat} (hi : i < 32) :
    (aaBits aa).getD i false = aa.getLsbD i := range_map_getD _ _ _ _ hi

@[simp] theorem preamble_length (aa : Word) (p : PhyCfg) :
    (preamble aa p).length = p.preambleLen := by simp [preamble]

theorem preamble_getD (aa : Word) {p : PhyCfg} {i : Nat} (hi : i < p.preambleLen) :
    (preamble aa p).getD i false = decide (((aa.getLsbD 0).toNat + i) % 2 = 1) :=
  range_map_getD _ _ _ _ hi

@[simp] theorem syncPattern_length (aa : Word) (p : PhyCfg) :
    (syncPattern aa p).length = p.preambleLen + 32 := by simp [syncPattern]

theorem syncPattern_getD_preamble (aa : Word) {p : PhyCfg} {i : Nat} (hi : i < p.preambleLen) :
    (syncPattern aa p).getD i false = decide (((aa.getLsbD 0).toNat + i) % 2 = 1) := by
  rw [syncPattern, List.getD_append _ _ _ _ (by simpa using hi), preamble_getD aa hi]

theorem syncPattern_getD_address (aa : Word) (p : PhyCfg) {i : Nat} (hi : i < 32) :
    (syncPattern aa p).getD (p.preambleLen + i) false = aa.getLsbD i := by
  rw [syncPattern, List.getD_append_right _ _ _ _ (by simp), preamble_length,
    Nat.add_sub_cancel_left, aaBits_getD aa hi]

theorem PhyCfg.preambleLen_of_le1M {p : PhyCfg} (h : p.phyMode = 0) : p.preambleLen = 8 :=
  if_pos h

theorem PhyCfg.preambleLen_of_ne_le1M {p : PhyCfg} (h : p.phyMode ≠ 0) : p.preambleLen = 16 :=
  if_neg h

/-- Both lengths of the preamble are even, and neither is 0 (40_framing.md R219). -/
theorem PhyCfg.preambleLen_cases (p : PhyCfg) : p.preambleLen = 8 ∨ p.preambleLen = 16 := by
  by_cases h : p.phyMode = 0
  · exact .inl (PhyCfg.preambleLen_of_le1M h)
  · exact .inr (PhyCfg.preambleLen_of_ne_le1M h)

@[simp] theorem packetTail_length (c : CfgRegs) (pdu : List Byte) :
    (packetTail c pdu).length = 8 * (pdu.length + 3) := by
  unfold packetTail
  split <;> simp

/-- The stream is the sync pattern with the header, payload and CRC after it. -/
theorem packetStream_eq (c : CfgRegs) (pdu : List Byte) :
    packetStream c pdu = syncPattern c.accessAddr c.phycfg ++ packetTail c pdu := rfl

@[simp] theorem packetStream_length (c : CfgRegs) (pdu : List Byte) :
    (packetStream c pdu).length = c.phycfg.preambleLen + 32 + 8 * (pdu.length + 3) := by
  rw [packetStream_eq, List.length_append, syncPattern_length, packetTail_length]

end Sys2Proof.Machine
end

section
/-! The statements of framing that are about bit streams (40_framing.md R203, R210 to R214, R218 to
R221). -/

namespace Sys2Proof.Proofs

open Sys2Proof.Machine

/-- Settles O30: `applyWhitening_applyWhitening` holds because each bit meets the same bit of the
sequence twice. -/
theorem whiteningIsItsOwnInverse : Obligations.WhiteningIsItsOwnInverse := by
  unfold Obligations.WhiteningIsItsOwnInverse
  intro c ch
  exact ⟨applyWhitening_length c ch, fun _ hk => applyWhitening_getD hk ch,
    applyWhitening_applyWhitening c ch⟩

/-- Settles O33: the register is a fold over the bits, and the CRC its reversal. -/
theorem crcIsTheReversedRegister : Obligations.CrcIsTheReversedRegister := by
  unfold Obligations.CrcIsTheReversedRegister
  refine ⟨crcRegister_nil, crcRegister_concat, fun bytes init _ => crc24_getLsbD bytes init,
    crc24_nil, by decide, fun c b0 b1 b2 h => ?_⟩
  obtain ⟨rfl, rfl, rfl⟩ : c.extractLsb' 0 8 = b0 ∧ c.extractLsb' 8 8 = b1
      ∧ c.extractLsb' 16 8 = b2 := by
    simpa [crcBytes] using h
  exact crcOfBytes_extractLsb' c

/-- Settles O34: both conversions place eight bits per byte, so they agree bit by bit. -/
theorem bitsAndBytesConvert : Obligations.BitsAndBytesConvert := by
  unfold Obligations.BitsAndBytesConvert
  exact ⟨fun l m _ _ hk => bitsOf_getD l m hk, bytesOf_length, fun _ _ _ => bytesOf_getD,
    bytesOf_bitsOf⟩

/-- Settles O35: the preamble has an even number of bits, so its last one differs from its first,
which is the first bit of the access address. -/
theorem syncPatternIsPreambleThenAddress : Obligations.SyncPatternIsPreambleThenAddress := by
  unfold Obligations.SyncPatternIsPreambleThenAddress
  intro aa p
  have hlen := p.preambleLen_cases
  refine ⟨syncPattern_length aa p, fun i hi => ?_, fun i => syncPattern_getD_address aa p, ?_,
    fun h => ?_, fun h => ?_⟩
  · rw [syncPattern_getD_preamble aa hi]
    rcases Nat.mod_two_eq_zero_or_one ((aa.getLsbD 0).toNat + i) with h | h <;> rw [h] <;> rfl
  · have hodd : (p.preambleLen - 1) % 2 = 1 := by omega
    rw [syncPattern_getD_preamble aa (by omega), Nat.add_mod, hodd]
    cases aa.getLsbD 0 <;> decide
  · rw [syncPattern_length, PhyCfg.preambleLen_of_le1M h]
  · rw [syncPattern_length, PhyCfg.preambleLen_of_ne_le1M (by rw [h]; decide)]

end Sys2Proof.Proofs
end

section
/-! SUPPORT. The framing commands WHITEN (40_framing.md R205), CRC24 (R215) and ASSEMBLE (R230): the
codes their checks give, and the state each completes with. -/

namespace Sys2Proof.Machine

/-- A command whose checks give a code other than OK is refused with it (60_exceptions.md R404). -/
theorem State.guarded_refused {s : State} {check code : ErrCode}
    {b : Host.Outcome State Fault Refusal} (h : check = code) (hne : code ≠ .ok) :
    ∃ t, s.guarded check b = .next t ∧ Refused s t code := by
  subst h
  exact ⟨_, State.guarded_refuses hne, refused_refuse s check⟩

/-- With its operands written a command goes on with them. -/
theorem withRead_ok {α : Type} (i : Instr) (v : α) (body : α → Host.Outcome State Fault Refusal) :
    withRead i (.ok v) body = body v := rfl

/-- What a write of bits leaves in the range it writes. -/
theorem Memory.bit_writeBits_at {m : Memory} (h : m.wf = true) (base i : Nat) {l : List Bool}
    {j : Nat} (hj : j < l.length) :
    (m.writeBits base i l).bit base (i + j) = l.getD j false
      ∧ (m.writeBits base i l).bitWritten base (i + j) = true := by
  have hin : i ≤ i + j ∧ i + j < i + l.length := by omega
  rw [Memory.bit_writeBits h, Memory.bitWritten_writeBits h, if_pos hin, if_pos hin,
    Nat.add_sub_cancel_left]
  exact ⟨rfl, rfl⟩

/-! ### The checks -/

section
variable {c : CfgRegs}

@[simp] theorem CfgRegs.badPhy_iff : c.badPhy = true ↔ 2 ≤ c.phycfg.phyMode.toNat :=
  decide_eq_true_iff

@[simp] theorem CfgRegs.badChannel_iff : c.badChannel = true ↔ 39 < c.phycfg.channel.toNat :=
  decide_eq_true_iff

@[simp] theorem CfgRegs.badOpRange_iff :
    c.badOpRange = true ↔ 131072 < c.opOff.toNat + c.opLen.toNat := decide_eq_true_iff

theorem whitenCheck_badChannel (h : 39 < c.phycfg.channel.toNat) : whitenCheck c = .badChannel :=
  if_pos (CfgRegs.badChannel_iff.2 h)

theorem whitenCheck_length (hch : c.phycfg.channel.toNat ≤ 39)
    (h : 131072 < c.opOff.toNat + c.opLen.toNat) : whitenCheck c = .length := by
  rw [whitenCheck, if_neg (by rw [CfgRegs.badChannel_iff]; omega),
    if_pos (CfgRegs.badOpRange_iff.2 h)]

theorem whitenCheck_ok (hch : c.phycfg.channel.toNat ≤ 39)
    (h : c.opOff.toNat + c.opLen.toNat ≤ 131072) : whitenCheck c = .ok := by
  rw [whitenCheck, if_neg (by rw [CfgRegs.badChannel_iff]; omega),
    if_neg (by rw [CfgRegs.badOpRange_iff]; omega)]

theorem crc24Check_length (h : 1024 < c.crcNbytes.toNat) : crc24Check c = .length :=
  if_pos h

theorem crc24Check_ok (h : c.crcNbytes.toNat ≤ 1024) : crc24Check c = .ok :=
  if_neg (Nat.not_lt.2 h)

theorem assembleCheck_badPhy (h : 2 ≤ c.phycfg.phyMode.toNat) : assembleCheck c = .badPhy :=
  if_pos (CfgRegs.badPhy_iff.2 h)

theorem assembleCheck_badChannel (hphy : c.phycfg.phyMode.toNat < 2)
    (hwhiten : c.phycfg.whitenEn = true) (h : 39 < c.phycfg.channel.toNat) :
    assembleCheck c = .badChannel := by
  rw [assembleCheck, if_neg (by rw [CfgRegs.badPhy_iff]; omega), if_pos (by simp [hwhiten, h])]

theorem assembleCheck_ok (hphy : c.phycfg.phyMode.toNat < 2)
    (hch : c.phycfg.whitenEn = true → c.phycfg.channel.toNat ≤ 39) : assembleCheck c = .ok := by
  rw [assembleCheck, if_neg (by rw [CfgRegs.badPhy_iff]; omega), if_neg (by simpa using hch)]

end

/-! ### WHITEN -/

/-- The bits WHITEN reads (40_framing.md R205). -/
def State.opBits (s : State) : List Bool :=
  (List.range s.cfg.opLen.toNat).map fun j => s.mem.bit Config.txbitBase (s.cfg.opOff.toNat + j)

@[simp] theorem State.opBits_length (s : State) : s.opBits.length = s.cfg.opLen.toNat := by
  simp [State.opBits]

theorem State.opBits_getD (s : State) {j : Nat} (hj : j < s.cfg.opLen.toNat) :
    s.opBits.getD j false = s.mem.bit Config.txbitBase (s.cfg.opOff.toNat + j) :=
  range_map_getD _ _ _ _ hj

theorem State.readBits_opBits {s : State}
    (hw : ∀ j, j < s.cfg.opLen.toNat →
      s.mem.bitWritten Config.txbitBase (s.cfg.opOff.toNat + j) = true) :
    s.mem.readBits Config.txbitBase s.cfg.opOff.toNat s.cfg.opLen.toNat = .ok s.opBits :=
  Memory.readBits_ok hw

theorem exec_whiten_of_written {s : State} (hcheck : whitenCheck s.cfg = .ok)
    (hw : ∀ j, j < s.cfg.opLen.toNat →
      s.mem.bitWritten Config.txbitBase (s.cfg.opOff.toNat + j) = true) :
    exec .whiten s = .next (State.complete
      { s with
        mem := s.mem.writeBits Config.txbitBase s.cfg.opOff.toNat
          (applyWhitening s.opBits s.cfg.phycfg.channel) } .ok) := by
  show execWhiten s = _
  rw [execWhiten, State.guarded_ok hcheck, State.readBits_opBits hw, withRead_ok]

/-! ### CRC24 -/

theorem exec_crc24_of_written {s : State} (hcheck : crc24Check s.cfg = .ok)
    (hw : ∀ j, j < s.cfg.crcNbytes.toNat → s.mem.mask (Config.pduInBase + j) = 0xFF) :
    exec .crc24 s = .next (State.complete
      { s with
        res :=
          { s.res with
            crc := crc24
              ((List.range s.cfg.crcNbytes.toNat).map fun j => s.mem.byte (Config.pduInBase + j))
              s.cfg.crcInit } } .ok) := by
  show execCrc24 s = _
  rw [execCrc24, State.guarded_ok hcheck, Memory.readBytes_ok hw, withRead_ok]

/-! ### ASSEMBLE -/

/-- The header in `PDU_IN` and the payload that its byte 1 announces (40_framing.md R225, R230). -/
def Memory.pduIn (m : Memory) : List Byte :=
  (List.range (2 + (m.byte (Config.pduInBase + 1)).toNat)).map fun j =>
    m.byte (Config.pduInBase + j)

@[simp] theorem Memory.pduIn_length (m : Memory) :
    m.pduIn.length = 2 + (m.byte (Config.pduInBase + 1)).toNat := by
  simp [Memory.pduIn]

theorem Memory.readBytes_pduIn {m : Memory}
    (hw : ∀ j, j < 2 + (m.byte (Config.pduInBase + 1)).toNat →
      m.mask (Config.pduInBase + j) = 0xFF) :
    m.readBytes Config.pduInBase (2 + (m.byte (Config.pduInBase + 1)).toNat) = .ok m.pduIn :=
  Memory.readBytes_ok hw

/-- ASSEMBLE reads the length byte first, and then the PDU with that byte in it. -/
theorem exec_assemble_of_written {s : State} (hcheck : assembleCheck s.cfg = .ok)
    (hw : ∀ j, j < 2 + (s.mem.byte (Config.pduInBase + 1)).toNat →
      s.mem.mask (Config.pduInBase + j) = 0xFF) :
    exec .assemble s = .next ((assembled s s.mem.pduIn).complete .ok) := by
  have hlen : s.mem.readBytes (Config.pduInBase + 1) 1
      = .ok [s.mem.byte (Config.pduInBase + 1)] :=
    Memory.readBytes_ok fun i hi => by
      obtain rfl : i = 0 := by omega
      exact hw 1 (by omega)
  show execAssemble s = _
  rw [execAssemble, State.guarded_ok hcheck, hlen, withRead_ok, List.headD_cons,
    State.guarded_ok (assembleLenCheck_ok _ _), Memory.readBytes_pduIn hw, withRead_ok]

/-- The stream of an assembled packet, in numbers (40_framing.md R230). -/
theorem packetStream_pduIn_length (c : CfgRegs) (m : Memory) :
    (packetStream c m.pduIn).length
      = c.phycfg.preambleLen + 32 + 8 * (5 + (m.byte (Config.pduInBase + 1)).toNat) := by
  rw [packetStream_length, Memory.pduIn_length]
  omega

end Sys2Proof.Machine
end

section
/-! The statements of the framing commands (40_framing.md R205, R215, R230). -/

namespace Sys2Proof.Proofs

open Sys2Proof.Machine

/-- Settles O14: the whitened bits go back to the range they were read from
(`exec_whiten_of_written`), and `Memory.writeBits_outside` is the frame. -/
theorem whitenWhitensItsBitRange : Obligations.WhitenWhitensItsBitRange := by
  unfold Obligations.WhitenWhitensItsBitRange
  intro s hwf
  refine ⟨fun hch => State.guarded_refused (whitenCheck_badChannel hch) (by decide),
    fun hch hlen => State.guarded_refused (whitenCheck_length hch hlen) (by decide),
    fun hch hlen hw => ⟨_, exec_whiten_of_written (whitenCheck_ok hch hlen) hw,
      completed_complete s _ .ok rfl rfl, rfl, rfl, fun j hj => ?_, ?_⟩⟩
  · have hj' := hj.trans_eq s.opBits_length.symm
    have hwrite := Memory.bit_writeBits_at hwf Config.txbitBase s.cfg.opOff.toNat
      (l := applyWhitening s.opBits s.cfg.phycfg.channel) (by rwa [applyWhitening_length])
    rwa [applyWhitening_getD hj', State.opBits_getD s hj] at hwrite
  · have hframe := Memory.writeBits_outside hwf Config.txbitBase s.cfg.opOff.toNat
      (applyWhitening s.opBits s.cfg.phycfg.channel)
    rwa [applyWhitening_length, State.opBits_length] at hframe

/-- Settles O16: by `exec_crc24_of_written` only `RES_CRC` is written. -/
theorem crc24WritesTheCrcOfItsBytes : Obligations.Crc24WritesTheCrcOfItsBytes := by
  unfold Obligations.Crc24WritesTheCrcOfItsBytes
  intro s
  exact ⟨fun hlen => State.guarded_refused (crc24Check_length hlen) (by decide),
    fun hlen hw => ⟨_, exec_crc24_of_written (crc24Check_ok hlen) hw,
      completed_complete s _ .ok rfl rfl, rfl, rfl, rfl⟩⟩

/-- Settles O17: the PDU is `Memory.pduIn`, whose length gives that of the stream; what is written is
said by the lemmas about `assembled`. -/
theorem assembleBuildsThePacketStream : Obligations.AssembleBuildsThePacketStream := by
  unfold Obligations.AssembleBuildsThePacketStream
  rintro s len pdu hwf rfl hpdu
  obtain rfl : pdu = s.mem.pduIn := hpdu
  have hlen := packetStream_pduIn_length s.cfg s.mem
  refine ⟨fun hphy => State.guarded_refused (assembleCheck_badPhy hphy) (by decide),
    fun hphy hwhiten hch =>
      State.guarded_refused (assembleCheck_badChannel hphy hwhiten hch) (by decide),
    fun hphy hch hw => ⟨_, exec_assemble_of_written (assembleCheck_ok hphy hch) hw,
      completed_complete s _ .ok (assembled_status s _) (assembled_irqEn s _), hlen, ?_, ?_,
      fun j hj => ?_, ?_⟩⟩
  · rw [State.complete_regs, assembled_regs, hlen]
  · rw [State.complete_res, assembled_res]
  · rw [State.complete_mem, assembled_mem]
    simpa using Memory.bit_writeBits_at hwf Config.txbitBase 0 (hlen ▸ hj)
  · rw [State.complete_mem, assembled_mem, ← hlen]
    exact Memory.writeBits_outside hwf Config.txbitBase 0 _

end Sys2Proof.Proofs
end

section
/-! SUPPORT. AA_DETECT (43_demodulator.md R345): the codes its checks give, the result registers it
writes with and without a hit, and the state it completes with. -/

namespace Sys2Proof.Machine

/-! ### The checks -/

section
variable {c : CfgRegs}

theorem aaDetectCheck_badPhy (h : 2 ≤ c.phycfg.phyMode.toNat) : aaDetectCheck c = .badPhy :=
  if_pos (CfgRegs.badPhy_iff.2 h)

theorem aaDetectCheck_length (hphy : c.phycfg.phyMode.toNat < 2)
    (h : 131072 < c.opOff.toNat + c.opLen.toNat) : aaDetectCheck c = .length := by
  rw [aaDetectCheck, if_neg (by rw [CfgRegs.badPhy_iff]; omega),
    if_pos (CfgRegs.badOpRange_iff.2 h)]

theorem aaDetectCheck_ok (hphy : c.phycfg.phyMode.toNat < 2)
    (h : c.opOff.toNat + c.opLen.toNat ≤ 131072) : aaDetectCheck c = .ok := by
  rw [aaDetectCheck, if_neg (by rw [CfgRegs.badPhy_iff]; omega),
    if_neg (by rw [CfgRegs.badOpRange_iff]; omega)]

end

/-! ### The result registers -/

/-- `RES_FLAGS` of AA_DETECT: S_PACKET_SYNC as the exit stage, and whether there was a hit. -/
def aaFlags (hit : Bool) : ResFlags :=
  { success := false, crcValid := false, syncFound := hit, hdrValid := false,
    exitStage := .packetSync }

theorem aaFlags_toWord (hit : Bool) :
    (aaFlags hit).toWord = if hit then 0x00000704 else 0x00000700 := by
  cases hit with
  | false => decide
  | true => decide

section
variable {cfg : CfgRegs} {c : List Bool} (old : Results)

theorem aaResults_of_none (h : findSync c (syncPattern cfg.accessAddr cfg.phycfg) = none) :
    aaResults cfg c old = { old with flags := aaFlags false, syncPos := 0, aa := 0 } := by
  rw [aaResults, h]
  rfl

theorem aaResults_of_some {pos : Nat}
    (h : findSync c (syncPattern cfg.accessAddr cfg.phycfg) = some pos) :
    aaResults cfg c old
      = { old with
          flags := aaFlags true
          syncPos := BitVec.ofNat 32 pos
          aa := receivedAa cfg.phycfg c pos } := by
  rw [aaResults, h]
  rfl

end

/-! ### AA_DETECT -/

/-- AA_DETECT examines the bit range that WHITEN would whiten. -/
theorem exec_aaDetect_of_written {s : State} (hcheck : aaDetectCheck s.cfg = .ok)
    (hw : ∀ j, j < s.cfg.opLen.toNat →
      s.mem.bitWritten Config.txbitBase (s.cfg.opOff.toNat + j) = true) :
    exec .aaDetect s
      = .next (State.complete { s with res := aaResults s.cfg s.opBits s.res } .ok) := by
  show execAaDetect s = _
  rw [execAaDetect, State.guarded_ok hcheck, State.readBits_opBits hw, withRead_ok]

end Sys2Proof.Machine
end

section
/-! The statement of AA_DETECT (43_demodulator.md R345). -/

namespace Sys2Proof.Proofs

open Sys2Proof.Machine

/-- Settles O18: by `exec_aaDetect_of_written` only the result registers are written, with
`aaResults_of_none` or `aaResults_of_some`. -/
theorem aaDetectReportsTheLeftmostHit : Obligations.AaDetectReportsTheLeftmostHit := by
  unfold Obligations.AaDetectReportsTheLeftmostHit
  intro s c hc
  obtain rfl : c = s.opBits := hc
  refine ⟨fun hphy => State.guarded_refused (aaDetectCheck_badPhy hphy) (by decide),
    fun hphy hlen => State.guarded_refused (aaDetectCheck_length hphy hlen) (by decide),
    fun hphy hlen hw => ⟨_, exec_aaDetect_of_written (aaDetectCheck_ok hphy hlen) hw,
      completed_complete s _ .ok rfl rfl, rfl, rfl, fun hnone => ?_, fun pos hsome => ?_⟩⟩
  · rw [aaResults_of_none s.res hnone]
    exact ⟨aaFlags_toWord false, rfl⟩
  · rw [aaResults_of_some s.res hsome]
    exact ⟨aaFlags_toWord true, rfl, fun i hi => receivedAa_getLsbD s.cfg.phycfg s.opBits pos i hi⟩

end Sys2Proof.Proofs
end

section
/-! SUPPORT. The port and the interrupt output: an access that is not admitted (60_exceptions.md
R407), and the bits of `CTRL` and `STATUS` that `irq` combines (R410). -/

namespace Sys2Proof.Machine

/-- A read that is not admitted is answered with a bus error (60_exceptions.md R407). -/
theorem State.hostRead_of_not_admitted {a : Nat} {w : Width} (h : admitted a w = false)
    (s : State) : s.hostRead a w = { s with response := some busError } := by
  simp [State.hostRead, h]

/-- A write that is not admitted is answered with a bus error (60_exceptions.md R407). -/
theorem State.hostWrite_of_not_admitted {a : Nat} {w : Width} (h : admitted a w = false) (s : State)
    (d : DWord) : s.hostWrite a w d = .next { s with response := some busError } := by
  simp [State.hostWrite, h]

/-- A register that no command writes is in no footprint. -/
theorem State.outputReg_of_unwritten {r : Reg} (h : ∀ i, r ∉ outputRegs i) (s : State) :
    s.outputReg r = false := by
  unfold State.outputReg
  cases s.activeInstr with
  | none => rfl
  | some i => simpa using h i

/-- `CTRL` is in no footprint. -/
theorem State.outputReg_ctrl (s : State) : s.outputReg .ctrl = false :=
  State.outputReg_of_unwritten (fun i => by cases i <;> decide) s

/-- A host write to `STATUS` clears the bits written as 1 (10_state.md R37). -/
theorem State.hostWrite_status (s : State) (d : DWord) :
    s.hostWrite 0x004 .w32 d
      = .next { s with status := s.status.w1c (d.setWidth 32), response := some writeDone } :=
  State.hostWrite_reg s .status d (State.outputReg_status s)

/-- A host write to `CTRL` stores `IRQ_EN` (10_state.md R38). -/
theorem State.hostWrite_ctrl (s : State) (d : DWord) :
    s.hostWrite 0x008 .w32 d
      = .next { s with irqEn := (d.setWidth 32).getLsbD 0, response := some writeDone } :=
  State.hostWrite_reg s .ctrl d (State.outputReg_ctrl s)

/-- `IRQ_EN` is bit 0 of `CTRL` (10_state.md R38). -/
theorem State.reg_ctrl_irqEn (s : State) : (s.reg .ctrl).getLsbD 0 = s.irqEn := by
  simp [State.reg]

/-- `DONE` is bit 1 of `STATUS` (10_state.md R37). -/
theorem Status.toWord_done (st : Status) (busy : Bool) : (st.toWord busy).getLsbD 1 = st.done := by
  rw [Status.toWord, BitVec.getLsbD_append, BitVec.getLsbD_append]
  simp

/-- Completion leaves `irq` at `IRQ_EN`, whatever its code (60_exceptions.md R410). -/
theorem Completed.irq {s t : State} {code : ErrCode} (h : Completed s t code) :
    t.irq = s.irqEn := by
  obtain ⟨hst, -, hirq⟩ := h
  simp [State.irq, hst, hirq]

end Sys2Proof.Machine
end

section
/-! SUPPORT. A command that fails a check is refused (60_exceptions.md R404). -/

namespace Sys2Proof.Machine

/-- DEMODULATE makes its checks in S_START, where they refuse it at once (10_state.md R33). -/
theorem execDemodulate_refuses {s : State} (hstart : s.status.stage = .start)
    (h : demodulateCheck s.cfg ≠ .ok) :
    execDemodulate s = .next (s.refuse (demodulateCheck s.cfg)) := by
  have hstage : demodStage s = .next (s.refuse (demodulateCheck s.cfg)) :=
    calc demodStage s
      _ = demodStart s := demodStage_eq_demodStart (by rw [hstart]; rfl)
      _ = .next (s.refuse (demodulateCheck s.cfg)) := State.guarded_refuses h
  exact demodRun_done hstage rfl

/-- The LENGTH check of ASSEMBLE cannot fail, so its checks are the ones before it. -/
theorem checkOf_assemble_eq (c : CfgRegs) (m : Memory) :
    checkOf .assemble c m = assembleCheck c := by
  unfold checkOf
  split_ifs with h
  · rw [assembleLenCheck_ok, h]
  · rfl

/-- A command with a failed check is refused with its code. -/
theorem exec_refuses {i : Instr} {s : State} (hstart : i = .demodulate → s.status.stage = .start)
    (h : checkOf i s.cfg s.mem ≠ .ok) : exec i s = .next (s.refuse (checkOf i s.cfg s.mem)) := by
  cases i with
  | demodulate => exact execDemodulate_refuses (hstart rfl) h
  | assemble =>
    rw [checkOf_assemble_eq] at h ⊢
    exact State.guarded_refuses h
  | modulate | whiten | crc24 | aaDetect | genPulse => exact State.guarded_refuses h

end Sys2Proof.Machine
end

section
/-! SUPPORT. `CMD_OVR` set before a command runs is `CMD_OVR` set after it: no command reads or
writes that bit (10_state.md R37, 60_exceptions.md R408). -/

namespace Sys2Proof.Machine

/-- The state with `STATUS.CMD_OVR` set: what a request leaves while a command runs
(`State.request_recordOverrun`). -/
def State.recordOverrun (s : State) : State :=
  { s with status := { s.status with cmdOvr := true } }

theorem State.request_recordOverrun {s : State} (h : s.running.isSome = true) (w : Word) :
    s.request w = s.recordOverrun := State.request_of_busy h w

@[simp] theorem State.recordOverrun_running (s : State) : s.recordOverrun.running = s.running := rfl

@[simp] theorem State.recordOverrun_stage (s : State) :
    s.recordOverrun.status.stage = s.status.stage := rfl

@[simp] theorem State.recordOverrun_cfg (s : State) : s.recordOverrun.cfg = s.cfg := rfl

@[simp] theorem State.recordOverrun_work (s : State) : s.recordOverrun.work = s.work := rfl

theorem guarded_recordOverrun {s : State} {code : ErrCode}
    {b b' : Host.Outcome State Fault Refusal} (hb : b' = mapNext State.recordOverrun b) :
    s.recordOverrun.guarded code b' = mapNext State.recordOverrun (s.guarded code b) := by
  rw [hb, guarded_mapNext State.recordOverrun s code b rfl]

theorem withRead_recordOverrun {α : Type} {i : Instr} {r : Except Nat α}
    {b b' : α → Host.Outcome State Fault Refusal}
    (hb : ∀ v, b' v = mapNext State.recordOverrun (b v)) :
    withRead i r b' = mapNext State.recordOverrun (withRead i r b) := by
  rw [← withRead_mapNext, funext hb]

/-! ### The stages of DEMODULATE -/

theorem demodStart_recordOverrun (s : State) :
    demodStart s.recordOverrun = mapNext State.recordOverrun (demodStart s) :=
  guarded_recordOverrun <| withRead_recordOverrun fun _ => rfl

theorem demodPacketSync_recordOverrun (s : State) :
    demodPacketSync s.recordOverrun = (demodPacketSync s).recordOverrun := by
  unfold demodPacketSync
  rw [State.recordOverrun_work, State.recordOverrun_cfg]
  cases findSync s.work.bits (syncPattern s.cfg.accessAddr s.cfg.phycfg) with
  | none => rfl
  | some pos => rfl

theorem demodParse_recordOverrun (s : State) :
    demodParse s.recordOverrun = (demodParse s).recordOverrun := by
  unfold demodParse
  rw [State.recordOverrun_work]
  split_ifs
  all_goals rfl

theorem demodStage_recordOverrun (s : State) :
    demodStage s.recordOverrun = mapNext State.recordOverrun (demodStage s) := by
  unfold demodStage
  rw [State.recordOverrun_stage]
  cases s.status.stage with
  | packetSync => exact congrArg _ (demodPacketSync_recordOverrun s)
  | parse => exact congrArg _ (demodParse_recordOverrun s)
  | start | idle | done | exec => exact demodStart_recordOverrun s
  | freqSync | demod | filter | timingSync | bitDecision | dewhiten | crcCheck => rfl

theorem demodRun_recordOverrun (n : Nat) (s : State) :
    demodRun n s.recordOverrun = mapNext State.recordOverrun (demodRun n s) := by
  induction n generalizing s with
  | zero => rfl
  | succ n ih =>
    rw [demodRun, demodRun, demodStage_recordOverrun]
    cases demodStage s with
    | fault f => rfl
    | refused r => rfl
    | next t =>
      by_cases hrun : t.running.isSome = true
      · simpa [mapNext, hrun] using ih t
      · simp [mapNext, hrun]

/-- What any command does is what it would have done, with `CMD_OVR` set. -/
theorem exec_recordOverrun (i : Instr) (s : State) :
    exec i s.recordOverrun = mapNext State.recordOverrun (exec i s) := by
  cases i with
  | demodulate => exact demodRun_recordOverrun 10 s
  | assemble =>
    exact guarded_recordOverrun <| withRead_recordOverrun fun _ =>
      guarded_recordOverrun <| withRead_recordOverrun fun _ => rfl
  | modulate | whiten | crc24 | aaDetect =>
    exact guarded_recordOverrun <| withRead_recordOverrun fun _ => rfl
  | genPulse => exact guarded_recordOverrun rfl

end Sys2Proof.Machine
end

section
/-! The statements of the exceptions (60_exceptions.md R404, R407, R408, R410). -/

namespace Sys2Proof.Proofs

open Sys2Proof.Machine

/-- Settles O5: the write is a request on a busy core, and every command commutes with the record of
the overrun (`exec_recordOverrun`). -/
theorem overrunIsOnlyRecorded : Obligations.OverrunIsOnlyRecorded := by
  unfold Obligations.OverrunIsOnlyRecorded
  intro s r d hrun
  have hbusy : s.running.isSome = true := by rw [hrun]; rfl
  refine ⟨?_, fun i => exec_recordOverrun i s⟩
  rw [State.hostWrite_cmd, State.request_recordOverrun hbusy]
  rfl

/-- Settles O8: by `exec_refuses` the next state is the refusal with the code of the checks. -/
theorem failedCheckRefusesTheCommand : Obligations.FailedCheckRefusesTheCommand := by
  unfold Obligations.FailedCheckRefusesTheCommand
  intro i s hstart hcheck
  exact ⟨_, exec_refuses hstart hcheck, refused_refuse s _⟩

/-- Settles O13: the two bits are `IRQ_EN` and `DONE`; every command that ends, ends with
completion (O7), which sets `DONE`; acceptance and the two host writes clear one of the bits. -/
theorem interruptFollowsEnableAndDone : Obligations.InterruptFollowsEnableAndDone := by
  unfold Obligations.InterruptFollowsEnableAndDone
  refine ⟨fun s => ?_, fun i s t h => ?_, fun s w => ?_, fun s d hd => ?_, fun s d hd => ?_, rfl⟩
  · rw [State.reg_ctrl_irqEn, State.reg, Status.toWord_done, State.irq]
  · obtain ⟨code, hcompleted, -⟩ := everyCommandEndsWithCompletion i s t h
    exact hcompleted.irq
  · simp [State.irq]
  · exact ⟨_, State.hostWrite_status s d, by simp [State.irq, Status.w1c, hd]⟩
  · have hbit : d[0] = false := hd
    exact ⟨_, State.hostWrite_ctrl s d, by simp [State.irq, hbit]⟩

/-- Settles O46: neither a read nor a write passes the test of `admitted`. -/
theorem busErrorChangesNothing : Obligations.BusErrorChangesNothing := by
  unfold Obligations.BusErrorChangesNothing
  intro s a w h
  exact ⟨State.hostRead_of_not_admitted h s, State.hostWrite_of_not_admitted h s⟩

end Sys2Proof.Proofs
end

section
/-! SUPPORT. The reset input (70_reset_and_hazards.md R450): the step it is, and what the views of the
state (the registers, `irq`) show after it. -/

namespace Sys2Proof.Machine

/-- A step with an input left takes it off the list and lets it take effect. -/
theorem step_of_inputs_cons {s : State} {i : Input} {rest : List Input}
    (h : s.inputs = i :: rest) : step s = { s with inputs := rest }.input i := by
  rw [step, h]

/-- A reset is never refused and never a fault. -/
@[simp] theorem State.input_reset (s : State) : s.input .reset = .next s.applyReset := rfl

/-- No register shows the model's own fields, which are all that reset keeps. -/
@[simp] theorem State.applyReset_reg (s : State) (r : Reg) :
    s.applyReset.reg r = State.reset.reg r := by
  cases r <;> rfl

@[simp] theorem State.applyReset_irq (s : State) : s.applyReset.irq = false := by
  simp [State.irq]

end Sys2Proof.Machine
end

section
/-! The statement of reset at any time (70_reset_and_hazards.md R450). -/

namespace Sys2Proof.Proofs

open Sys2Proof.Machine

/-- Settles O58: the step is `applyReset`, whatever runs, and its empty buffers are
`Memory.mask_unwritten`. -/
theorem resetAbandonsEverything : Obligations.ResetAbandonsEverything := by
  unfold Obligations.ResetAbandonsEverything
  intro s rest hinputs
  have hstep := step_of_inputs_cons hinputs
  rw [State.input_reset] at hstep
  exact ⟨_, hstep, State.applyReset_running _, State.applyReset_irq _, State.applyReset_reg _,
    Memory.mask_unwritten⟩

end Sys2Proof.Proofs
end

section
/-! SUPPORT. How many samples, coefficients and bits the formulas of the sample domain give
(41_pulse_shaper.md R262, 42_modulator.md R283, 43_demodulator.md R320 to R325). -/

namespace Sys2Proof.Machine

/-! ### Checks that pass -/

section
variable {c : CfgRegs}

theorem CfgRegs.badPhy_eq_false : c.badPhy = false ↔ c.phycfg.phyMode.toNat < 2 := by
  simp [CfgRegs.badPhy]

theorem CfgRegs.badRate_eq_false : c.badRate = false ↔ 0 < c.sps := by
  simp [CfgRegs.badRate, Nat.pos_iff_ne_zero]

theorem CfgRegs.badPulse_eq_false :
    c.badPulse = false ↔ c.span ≠ 0 ∧ c.bt ≠ 0 ∧ c.pulseLen ≤ 1024 := by
  simp [CfgRegs.badPulse, and_assoc]

theorem modulateCheck_eq_ok_iff :
    modulateCheck c = .ok ↔
      c.badPhy = false ∧ 0 < c.sps ∧ c.badPulse = false ∧ c.txNbits ≠ 0
        ∧ c.txNbits.toNat ≤ 131072 ∧ c.iqOff.toNat + c.modulatedLen ≤ 65536 := by
  rw [← CfgRegs.badRate_eq_false]
  unfold modulateCheck Config.txbitCap Config.iqCap
  split_ifs <;> simp_all [-CfgRegs.badPhy_iff, not_or]
  omega

theorem demodulateCheck_eq_ok_iff :
    demodulateCheck c = .ok ↔
      c.badPhy = false ∧ 0 < c.sps ∧ (if c.phycfg.mfEn then c.badPulse else c.badBoxcar) = false
        ∧ (c.phycfg.whitenEn && c.badChannel) = false
        ∧ c.iqOff.toNat + c.iqNsamp.toNat ≤ 65536 := by
  rw [← CfgRegs.badRate_eq_false]
  unfold demodulateCheck Config.iqCap
  split_ifs <;> simp_all [-CfgRegs.badPhy_iff, -CfgRegs.badChannel_iff]

theorem genPulseCheck_eq_ok_iff :
    genPulseCheck c = .ok ↔ c.badPhy = false ∧ 0 < c.sps ∧ c.badPulse = false := by
  rw [genPulseCheck, ← CfgRegs.badRate_eq_false]
  split_ifs <;> simp_all [-CfgRegs.badPhy_iff]

theorem whitenCheck_eq_ok_iff :
    whitenCheck c = .ok ↔
      c.phycfg.channel.toNat ≤ 39 ∧ c.opOff.toNat + c.opLen.toNat ≤ 131072 := by
  simp only [whitenCheck, CfgRegs.badChannel_iff, CfgRegs.badOpRange_iff]
  split_ifs <;> simp <;> omega

theorem CfgRegs.one_le_pulseLen (c : CfgRegs) : 1 ≤ c.pulseLen := Nat.le_add_left 1 _

end

/-! ### The modulator -/

theorem upsample_cons (sps : Nat) (b : Bool) (l : List Bool) :
    upsample sps (b :: l) = nrzF64 b :: List.replicate (sps - 1) f0 ++ upsample sps l := rfl

theorem upsample_length {sps : Nat} (h : 0 < sps) (l : List Bool) :
    (upsample sps l).length = l.length * sps := by
  induction l with
  | nil => simp [upsample]
  | cons b l ih =>
    rw [upsample_cons, List.length_append, ih, List.length_cons, List.length_cons,
      List.length_replicate, Nat.add_mul]
    omega

@[simp] theorem pulse_length (b : F64) (sps len : Nat) : (pulse b sps len).length = len := by
  simp [pulse]

@[simp] theorem CfgRegs.pulse_length (c : CfgRegs) : c.pulse.length = c.pulseLen :=
  Machine.pulse_length ..

theorem conv_length {u h : List F64} (hh : h ≠ []) :
    (conv u h).length = if u.length = 0 then 0 else u.length + h.length - 1 := by
  unfold conv
  cases u <;> simp [hh]

theorem conv_getD {u h : List F64} {n : Nat} (hn : n < (conv u h).length) :
    (conv u h).getD n f0 = convAt u h n := by
  unfold conv at hn ⊢
  split at hn
  · cases hn
  · rename_i hne
    rw [if_neg hne]
    exact range_map_getD _ _ _ _ (by simpa using hn)

@[simp] theorem cumsumFrom_length (acc : F64) (l : List F64) :
    (cumsumFrom acc l).length = l.length := by
  induction l generalizing acc with
  | nil => rfl
  | cons v l ih => simp [cumsumFrom, ih]

theorem CfgRegs.modulated_length {c : CfgRegs} {bits : List Bool} (hbits : bits ≠ [])
    (hsps : 0 < c.sps) :
    (c.modulated bits).length = bits.length * c.sps + c.pulseLen - 1 := by
  have hpulse : c.pulse ≠ [] := List.ne_nil_of_length_pos (by rw [CfgRegs.pulse_length]; exact c.one_le_pulseLen)
  have hup : bits.length * c.sps ≠ 0 :=
    Nat.mul_ne_zero (List.length_pos_iff.2 hbits).ne' hsps.ne'
  rw [CfgRegs.modulated, List.length_mapIdx, cumsumFrom_length, conv_length hpulse,
    upsample_length hsps, if_neg hup, CfgRegs.pulse_length]

@[simp] theorem partsOf_length (l : List Cx) : (partsOf l).length = 2 * l.length := by
  simp [partsOf, List.length_flatMap, Nat.mul_comm]

/-! ### The demodulator -/

@[simp] theorem lagProducts_length (x : List Cx) : (lagProducts x).length = x.length - 1 := by
  simp [lagProducts]

@[simp] theorem compensate_length (c : CfgRegs) (fhat : F64) (x : List Cx) :
    (compensate c fhat x).length = x.length := by
  simp [compensate]

@[simp] theorem trackFn_length (c : CfgRegs) (y : List Cx) : (trackFn c y).length = y.length := by
  simp [trackFn]

@[simp] theorem discriminate_length (y : List Cx) :
    (discriminate y).length = y.length - 1 := by
  simp [discriminate]

theorem CfgRegs.filter_length (c : CfgRegs) :
    c.filter.length = if c.phycfg.mfEn then c.pulseLen else c.sps := by
  unfold CfgRegs.filter
  split <;> simp

theorem CfgRegs.filter_ne_nil {c : CfgRegs} (hsps : 0 < c.sps) : c.filter ≠ [] := by
  refine List.ne_nil_of_length_pos ?_
  rw [CfgRegs.filter_length]
  split
  · exact c.one_le_pulseLen
  · exact hsps

@[simp] theorem phaseSamples_length (z : List F64) (sps p : Nat) :
    (phaseSamples z sps p).length = z.length / sps := by
  simp [phaseSamples]

theorem frontEnd_y_length (c : CfgRegs) (x : List Cx) : (frontEnd c x).y.length = x.length := by
  show (if c.phycfg.trackEn then trackFn c (compensate c _ x) else compensate c _ x).length = _
  split <;> simp

theorem frontEnd_d (c : CfgRegs) (x : List Cx) :
    (frontEnd c x).d = discriminate (frontEnd c x).y := rfl

theorem frontEnd_d_length (c : CfgRegs) (x : List Cx) :
    (frontEnd c x).d.length = x.length - 1 := by
  rw [frontEnd_d, discriminate_length, frontEnd_y_length]

theorem frontEnd_z (c : CfgRegs) (x : List Cx) :
    (frontEnd c x).z = conv (frontEnd c x).d c.filter := rfl

theorem frontEnd_z_length {c : CfgRegs} (hsps : 0 < c.sps) (x : List Cx) :
    (frontEnd c x).z.length
      = if x.length ≤ 1 then 0
        else (x.length - 1) + (if c.phycfg.mfEn then c.pulseLen else c.sps) - 1 := by
  rw [frontEnd_z, conv_length (CfgRegs.filter_ne_nil hsps), frontEnd_d_length,
    CfgRegs.filter_length]
  have h : x.length - 1 = 0 ↔ x.length ≤ 1 := by omega
  simp only [h]

theorem frontEnd_pstar (c : CfgRegs) (x : List Cx) :
    (frontEnd c x).pstar = bestPhase (frontEnd c x).z c.sps := rfl

theorem frontEnd_r (c : CfgRegs) (x : List Cx) :
    (frontEnd c x).r = phaseSamples (frontEnd c x).z c.sps (frontEnd c x).pstar := rfl

theorem frontEnd_bits (c : CfgRegs) (x : List Cx) :
    (frontEnd c x).bits = (frontEnd c x).r.map decideBit := rfl

theorem frontEnd_bits_length (c : CfgRegs) (x : List Cx) :
    (frontEnd c x).bits.length = (frontEnd c x).z.length / c.sps := by
  rw [frontEnd_bits, List.length_map, frontEnd_r, phaseSamples_length]

/-- The decided bits are as many as the footprint says (43_demodulator.md R325). -/
theorem frontEnd_bits_length_eq_symbolCount {c : CfgRegs} (hsps : 0 < c.sps) {x : List Cx}
    (hx : x.length = c.iqNsamp.toNat) : (frontEnd c x).bits.length = c.symbolCount := by
  rw [frontEnd_bits_length, frontEnd_z_length hsps, hx]
  rfl

/-- With a filter of at most 1024 coefficients and at most 65536 samples the symbols fit `RXBIT`. -/
theorem CfgRegs.symbolCount_le {c : CfgRegs} (h : demodulateCheck c = .ok) :
    c.symbolCount ≤ 131072 := by
  obtain ⟨-, hsps, hfilter, -, hlen⟩ := demodulateCheck_eq_ok_iff.1 h
  have hfilterLen : (if c.phycfg.mfEn then c.pulseLen else c.sps) ≤ 1024 := by
    cases hmf : c.phycfg.mfEn
    · simpa [hmf, CfgRegs.badBoxcar] using hfilter
    · simp only [hmf, if_true, CfgRegs.badPulse_eq_false] at hfilter
      exact hfilter.2.2
  unfold CfgRegs.symbolCount
  refine (Nat.div_le_self _ _).trans ?_
  split <;> omega

/-! ### Samples from bytes -/

/-- The first sixteen bytes give the first sample (20_memory.md R103). -/
theorem samplesOf_append {u v : List Byte} (hu : u.length = 8) (hv : v.length = 8)
    (l : List Byte) :
    samplesOf (u ++ v ++ l) = { re := dwordOfBytes u, im := dwordOfBytes v } :: samplesOf l := by
  match u, hu, v, hv with
  | [_, _, _, _, _, _, _, _], _, [_, _, _, _, _, _, _, _], _ => rfl

theorem samplesOf_of_length_lt {l : List Byte} (h : l.length < 16) : samplesOf l = [] := by
  unfold samplesOf
  split
  · simp only [List.length_cons] at h; omega
  · rfl

theorem samplesOf_of_le_length {l : List Byte} (h : 16 ≤ l.length) :
    samplesOf l
      = { re := dwordOfBytes (l.take 8), im := dwordOfBytes ((l.drop 8).take 8) }
          :: samplesOf (l.drop 16) := by
  rw [← samplesOf_append (List.length_take_of_le (by omega))
    (List.length_take_of_le (by rw [List.length_drop]; omega)), List.append_assoc,
    ← List.drop_drop (i := 8) (j := 8), List.take_append_drop, List.take_append_drop]

theorem samplesOf_length (l : List Byte) : (samplesOf l).length = l.length / 16 := by
  induction hq : l.length / 16 generalizing l with
  | zero => rw [samplesOf_of_length_lt (by omega), List.length_nil]
  | succ q ih =>
    rw [samplesOf_of_le_length (by omega), List.length_cons,
      ih (l.drop 16) (by rw [List.length_drop]; omega)]

theorem samplesOf_length_of_readBytes {m : Memory} {a n : Nat} {bytes : List Byte}
    (h : m.readBytes a (16 * n) = .ok bytes) : (samplesOf bytes).length = n := by
  rw [samplesOf_length, Memory.readBytes_length h]
  omega

end Sys2Proof.Machine
end

section
/-! SUPPORT. What the invariant says of the buffers and the result registers alone, and that every
command's writes keep it (10_state.md R53, R57; 20_memory.md R104). -/

namespace Sys2Proof.Machine

/-! ### Only buffer bytes are written -/

/-- Only bytes of the buffers have been written (20_memory.md R104, R113). -/
def Memory.Mapped (m : Memory) : Prop := ∀ a, m.mask a ≠ 0 → inBuffer a 1 = true

/-- Every byte of which the span holds a bit is a byte of a buffer. -/
def BitSpan.Mapped (sp : BitSpan) : Prop :=
  ∀ a k, k < 8 → sp.covers a k = true → inBuffer a 1 = true

/-- Writes inside mapped spans leave the memory mapped. -/
theorem Memory.Mapped.of_sameOutside {m m' : Memory} {l : List BitSpan} (h : m.Mapped)
    (hsame : Memory.SameOutside l m m') (hl : ∀ sp ∈ l, sp.Mapped) : m'.Mapped := by
  intro a ha
  by_contra hout
  refine ha (byte_ext fun k hk => ?_)
  have huncovered : ∀ sp ∈ l, sp.covers a k = false := fun sp hsp =>
    Bool.eq_false_iff.2 fun hc => hout (hl sp hsp a k hk hc)
  have hold : m.mask a = 0 := by
    by_contra hne
    exact hout (h a hne)
  rw [(hsame a k hk huncovered).2, hold]

theorem Memory.Mapped.writeBits {m : Memory} (h : m.Mapped) (hwf : m.wf = true) {base i : Nat}
    {l : List Bool} (hsp : (BitSpan.mk base i l.length).Mapped) : (m.writeBits base i l).Mapped :=
  h.of_sameOutside (Memory.writeBits_outside hwf base i l) (by simpa using hsp)

theorem Memory.Mapped.writeBytes {m : Memory} (h : m.Mapped) (hwf : m.wf = true) {a : Nat}
    {l : List Byte} (hsp : (BitSpan.mk a 0 (8 * l.length)).Mapped) : (m.writeBytes a l).Mapped :=
  h.of_sameOutside (Memory.writeBytes_outside hwf a l) (by simpa using hsp)

/-- A span of whole bytes inside a buffer is mapped. -/
theorem BitSpan.mapped_bytes {a n : Nat} (h : inBuffer a n = true) :
    (BitSpan.mk a 0 (8 * n)).Mapped := by
  intro b k hk hc
  simp only [BitSpan.covers, Bool.and_eq_true, decide_eq_true_eq] at hc
  rw [inBuffer_iff] at h ⊢
  omega

theorem BitSpan.mapped_txbit {i n : Nat} (h : i + n ≤ 131072) :
    (BitSpan.mk Config.txbitBase i n).Mapped := by
  intro b k hk hc
  simp only [BitSpan.covers, Bool.and_eq_true, decide_eq_true_eq] at hc
  rw [inBuffer_iff]
  unfold Config.txbitBase at hc
  omega

theorem BitSpan.mapped_rxbit {n : Nat} (h : n ≤ 131072) :
    (BitSpan.mk Config.rxbitBase 0 n).Mapped := by
  intro b k hk hc
  simp only [BitSpan.covers, Bool.and_eq_true, decide_eq_true_eq] at hc
  rw [inBuffer_iff]
  unfold Config.rxbitBase at hc
  omega

/-! ### The buffers and the result registers -/

/-- What the invariant says of the buffers and the result registers. -/
structure StoredWell (m : Memory) (res : Results) : Prop where
  wf : m.wf = true
  mapped : m.Mapped
  flags : res.flags.Legal
  pduLen : res.pduLen.toNat ≤ 255

theorem State.Inv.storedWell {s : State} (h : s.Inv) : StoredWell s.mem s.res :=
  ⟨h.memWf, h.memMapped, h.flags, h.pduLen⟩

section
variable {m : Memory} {res : Results}

theorem StoredWell.writeBits (h : StoredWell m res) {base i : Nat} {l : List Bool}
    (hsp : (BitSpan.mk base i l.length).Mapped) : StoredWell (m.writeBits base i l) res :=
  ⟨Memory.wf_writeBits h.wf base i l, h.mapped.writeBits h.wf hsp, h.flags, h.pduLen⟩

theorem StoredWell.writeBytes (h : StoredWell m res) {a : Nat} {l : List Byte}
    (hin : inBuffer a l.length = true) : StoredWell (m.writeBytes a l) res :=
  ⟨Memory.wf_writeBytes h.wf a l, h.mapped.writeBytes h.wf (BitSpan.mapped_bytes hin), h.flags,
    h.pduLen⟩

/-- Only two of the result registers are constrained. -/
theorem StoredWell.withRes (h : StoredWell m res) {res' : Results} (hflags : res'.flags.Legal)
    (hpdu : res'.pduLen.toNat ≤ 255) : StoredWell m res' :=
  ⟨h.wf, h.mapped, hflags, hpdu⟩

end

/-! ### The bodies of the commands -/

theorem modulated_mem (s : State) (bits : List Bool) :
    (modulated s bits).mem
      = s.mem.writeBytes (Config.iqBase + 16 * s.cfg.iqOff.toNat)
          (storedBytes s.draws (partsOf (s.cfg.modulated bits))) := by
  unfold modulated; rfl

theorem pulseGenerated_mem (s : State) :
    (pulseGenerated s).mem
      = s.mem.writeBytes Config.coefBase (storedBytes s.draws s.cfg.pulse) := by
  unfold pulseGenerated; rfl

/-- With its checks passed, MODULATE makes as many samples as its footprint says (42_modulator.md
R283). -/
theorem modulated_length_of_check {c : CfgRegs} (hc : modulateCheck c = .ok) {bits : List Bool}
    (hlen : bits.length = c.txNbits.toNat) : (c.modulated bits).length = c.modulatedLen := by
  obtain ⟨-, hsps, -, hne, -, -⟩ := modulateCheck_eq_ok_iff.1 hc
  have hpos : c.txNbits.toNat ≠ 0 := fun h => hne (BitVec.eq_of_toNat_eq h)
  have hbits : bits ≠ [] := List.ne_nil_of_length_pos (by omega)
  rw [CfgRegs.modulated_length hbits hsps, hlen, CfgRegs.modulatedLen]

theorem StoredWell.modulated {s : State} {bits : List Bool} (h : StoredWell s.mem s.res)
    (hc : modulateCheck s.cfg = .ok) (hlen : bits.length = s.cfg.txNbits.toNat) :
    StoredWell (modulated s bits).mem (modulated s bits).res := by
  obtain ⟨-, -, -, -, -, hroom⟩ := modulateCheck_eq_ok_iff.1 hc
  rw [modulated_mem, modulated_res]
  refine (h.writeBytes ?_).withRes h.flags h.pduLen
  rw [storedBytes_length, partsOf_length, modulated_length_of_check hc hlen, inBuffer_iff]
  unfold Config.iqBase
  omega

theorem StoredWell.pulseGenerated {s : State} (h : StoredWell s.mem s.res)
    (hc : genPulseCheck s.cfg = .ok) :
    StoredWell (pulseGenerated s).mem (pulseGenerated s).res := by
  obtain ⟨-, -, hpulse⟩ := genPulseCheck_eq_ok_iff.1 hc
  obtain ⟨-, -, hlen⟩ := CfgRegs.badPulse_eq_false.1 hpulse
  rw [pulseGenerated_mem, pulseGenerated_res]
  refine (h.writeBytes ?_).withRes h.flags h.pduLen
  rw [storedBytes_length, CfgRegs.pulse_length, inBuffer_iff]
  unfold Config.coefBase
  omega

theorem StoredWell.assembled {s : State} (h : StoredWell s.mem s.res) {pdu : List Byte}
    (hlen : pdu.length ≤ 257) : StoredWell (assembled s pdu).mem (assembled s pdu).res := by
  rw [assembled_mem, assembled_res]
  refine (h.writeBits (BitSpan.mapped_txbit ?_)).withRes h.flags h.pduLen
  have := PhyCfg.preambleLen_le s.cfg.phycfg
  rw [packetStream_length]
  omega

theorem StoredWell.whitened {s : State} (h : StoredWell s.mem s.res)
    (hc : whitenCheck s.cfg = .ok) {bits : List Bool} (hlen : bits.length = s.cfg.opLen.toNat) :
    StoredWell (s.mem.writeBits Config.txbitBase s.cfg.opOff.toNat
      (applyWhitening bits s.cfg.phycfg.channel)) s.res := by
  obtain ⟨-, hrange⟩ := whitenCheck_eq_ok_iff.1 hc
  refine h.writeBits (BitSpan.mapped_txbit ?_)
  rwa [applyWhitening_length, hlen]

theorem aaFlags_legal (hit : Bool) : (aaFlags hit).Legal := by
  cases hit <;> simp [ResFlags.Legal, aaFlags]

theorem StoredWell.aaResults {m : Memory} {res : Results} (h : StoredWell m res) (cfg : CfgRegs)
    (c : List Bool) : StoredWell m (aaResults cfg c res) :=
  h.withRes (aaFlags_legal _) h.pduLen

/-! ### The exits of DEMODULATE -/

/-- The flags of an exit are one of the combinations that occur, and its PDU has at most 255
bytes. -/
structure DemodExit.Legal (e : DemodExit) : Prop where
  flags : e.flags.Legal
  pduLen : e.pdu.length ≤ 255

theorem exitNoSync_legal : exitNoSync.Legal :=
  ⟨by simp [ResFlags.Legal, exitNoSync], by decide⟩

theorem exitShort_legal (c : CfgRegs) (k : Work) : (exitShort c k).Legal :=
  ⟨by simp [ResFlags.Legal, exitShort], by simp [exitShort]⟩

theorem exitTruncated_legal (c : CfgRegs) (k : Work) : (exitTruncated c k).Legal :=
  ⟨by simp [ResFlags.Legal, exitTruncated], by simp [exitTruncated]⟩

theorem Work.payloadLen_le (k : Work) : k.payloadLen ≤ 255 := Nat.le_of_lt_succ (k.byte 1).isLt

theorem exitFull_legal (c : CfgRegs) (k : Work) : (exitFull c k).Legal :=
  ⟨by simp [ResFlags.Legal, exitFull],
    (List.length_take_le _ _).trans k.payloadLen_le⟩

theorem StoredWell.demodExit {s : State} (h : StoredWell s.mem s.res) (k : Work) {e : DemodExit}
    (he : e.Legal) :
    StoredWell (s.mem.writeBytes Config.pduOutBase e.pdu)
      (exitResults s.cfg k e s.draws s.res) := by
  have hpdu := he.pduLen
  refine (h.writeBytes ?_).withRes he.flags ?_
  · rw [inBuffer_iff]
    unfold Config.pduOutBase
    omega
  · simpa [exitResults] using (Nat.mod_le _ _).trans hpdu

end Sys2Proof.Machine
end

section
/-! SUPPORT. The invariant is kept by acceptance, by completion and by a stage's end (10_state.md
R33, R51, R56). -/

namespace Sys2Proof.Machine

theorem decodeOpcode_opcode (i : Instr) : decodeOpcode i.opcode = some i := by cases i <;> rfl

/-! ### What a running command is -/

section
variable {s t : State} {r : Running}

/-- A running command is legal, so its word is a command's word. -/
theorem State.Inv.running_word (h : s.Inv) (hr : s.running = some r) :
    ∃ i, decode r.word = .instr i := by
  obtain ⟨i, hi, -⟩ := h.runs r hr
  exact ⟨i, hi⟩

/-- A running DEMODULATE stands at its start, or has computed what its samples give. -/
theorem State.runsWell_demodulate (hd : decode r.word = .instr .demodulate) :
    s.RunsWell r ↔
      (s.status.stage = .start ∧ r.work = Work.empty)
        ∨ (demodulateCheck r.cfg = .ok
            ∧ ∃ bytes, s.iqBytes = .ok bytes
                ∧ workAt r.cfg (samplesOf bytes) s.status.stage = some r.work) := by
  simp [State.RunsWell, hd]

/-- The bytes of the samples that a DEMODULATE with snapshot `c` reads. -/
def CfgRegs.readIq (c : CfgRegs) (m : Memory) : Except Nat (List Byte) :=
  m.readBytes (Config.iqBase + 16 * c.iqOff.toNat) (16 * c.iqNsamp.toNat)

/-- The samples of a running command are those of its snapshot. -/
theorem State.iqBytes_of_running (hr : s.running = some r) : s.iqBytes = r.cfg.readIq s.mem := by
  rw [State.iqBytes, State.cfg_of_running s r hr, CfgRegs.readIq]

/-- What a running command has done depends on the stage and on the samples alone. -/
theorem State.RunsWell.congr (h : s.RunsWell r) (hs : s.running = some r)
    (ht : t.running = some r) (hstage : t.status.stage = s.status.stage)
    (hiq : decode r.word = .instr .demodulate → demodulateCheck r.cfg = .ok →
      r.cfg.readIq t.mem = r.cfg.readIq s.mem) : t.RunsWell r := by
  obtain ⟨i, hi, hrest⟩ := h
  by_cases hdemod : i = .demodulate
  · subst hdemod
    refine (State.runsWell_demodulate hi).2 (hrest.imp (fun hs => hstage ▸ hs) ?_)
    rintro ⟨hcheck, hwork⟩
    rw [State.iqBytes_of_running hs] at hwork
    rw [State.iqBytes_of_running ht, hiq hi hcheck, hstage]
    exact ⟨hcheck, hwork⟩
  · refine ⟨i, hi, ?_⟩
    cases i with
    | demodulate => exact absurd rfl hdemod
    | modulate | whiten | crc24 | assemble | aaDetect | genPulse => exact hstage.trans hrest

/-- With `STATUS` and the running command as they were, the invariant asks for the buffers, the
results and the samples. -/
theorem State.Inv.of_same (h : s.Inv) (hstatus : t.status = s.status)
    (hrunning : t.running = s.running) (hstored : StoredWell t.mem t.res)
    (hiq : ∀ r, s.running = some r → decode r.word = .instr .demodulate →
      demodulateCheck r.cfg = .ok → r.cfg.readIq t.mem = r.cfg.readIq s.mem) : t.Inv where
  memWf := hstored.wf
  memMapped := hstored.mapped
  restStage := by rw [hstatus, hrunning]; exact h.restStage
  idleStatus := by rw [hstatus]; exact h.idleStatus
  doneStage := by rw [hstatus]; exact h.doneStage
  errCode := by rw [hstatus]; exact h.errCode
  raised := by rw [hstatus]; exact h.raised
  busyStatus := by rw [hstatus, hrunning]; exact h.busyStatus
  runs := fun r hr => by
    have hr' := hrunning ▸ hr
    exact (h.runs r hr').congr hr' hr (by rw [hstatus]) (hiq r hr')
  flags := hstored.flags
  pduLen := hstored.pduLen

/-- While a command runs, a write to the configuration registers reaches none of it (10_state.md
R52). -/
theorem State.Inv.withRegs (h : s.Inv) (c : CfgRegs) (e : Bool) :
    State.Inv { s with regs := c, irqEn := e } :=
  h.of_same rfl rfl h.storedWell fun _ _ _ _ => rfl

/-- The model's own fields are outside the invariant. -/
theorem State.Inv.withOwn (h : s.Inv) (inputs : List Input) (response : Option Response)
    (draws : Nat) :
    State.Inv { s with inputs := inputs, response := response, draws := draws } :=
  h.of_same rfl rfl h.storedWell fun _ _ _ _ => rfl

/-! ### Completion -/

/-- `complete(code)` with a code the running command can raise keeps the invariant. -/
theorem State.Inv.complete {i : Instr} {code : ErrCode} (h : s.Inv) (hr : s.running = some r)
    (hd : decode r.word = .instr i) (hstatus : t.status = s.status)
    (hstored : StoredWell t.mem t.res) (hcode : code ∈ raisedBy i) : (t.complete code).Inv where
  memWf := hstored.wf
  memMapped := hstored.mapped
  restStage := fun _ => .inr rfl
  idleStatus := fun hidle => by cases hidle
  doneStage := fun _ => rfl
  errCode := fun herr => ⟨rfl, by simpa using herr⟩
  raised := fun _ => .inr ⟨i, by
    obtain ⟨-, -, hlast⟩ := h.busyStatus r hr
    rw [State.complete_status, hstatus, hlast, eq_encode_of_decode hd, extractLsb'_opcode_encode]
    exact decodeOpcode_opcode i, hcode⟩
  busyStatus := fun _ hnone => by cases hnone
  runs := fun _ hnone => by cases hnone
  flags := hstored.flags
  pduLen := hstored.pduLen

/-! ### Acceptance -/

theorem State.Inv.accept (h : s.Inv) (i : Instr) : (s.accept (encode i)).Inv where
  memWf := h.memWf
  memMapped := h.memMapped
  restStage := fun hnone => by cases hnone
  idleStatus := fun hidle => by
    rw [State.accept_status, firstStage_encode] at hidle
    split at hidle <;> cases hidle
  doneStage := fun hdone => by cases hdone
  errCode := fun herr => by cases herr
  raised := fun hdone => by
    rw [State.accept_status, firstStage_encode] at hdone
    split at hdone <;> cases hdone
  busyStatus := fun r hr => by
    cases hr
    exact ⟨rfl, rfl, rfl⟩
  runs := fun r hr => by
    cases hr
    refine ⟨i, decode_encode i, ?_⟩
    cases i with
    | demodulate => exact .inl ⟨rfl, rfl⟩
    | modulate | whiten | crc24 | assemble | aaDetect | genPulse => rfl
  flags := h.flags
  pduLen := h.pduLen

/-- An illegal word completes at once with ILLEGAL_CMD (30_encoding.md R142, R145). -/
theorem State.Inv.refuse_illegalCmd (h : s.Inv) (w : Word) :
    ((s.accept w).refuse .illegalCmd).Inv where
  memWf := h.memWf
  memMapped := h.memMapped
  restStage := fun _ => .inr rfl
  idleStatus := fun hidle => by cases hidle
  doneStage := fun _ => rfl
  errCode := fun _ => ⟨rfl, by simp⟩
  raised := fun _ => .inl rfl
  busyStatus := fun _ hnone => by cases hnone
  runs := fun _ hnone => by cases hnone
  flags := h.flags
  pduLen := h.pduLen

/-- A running command is at none of the control points outside a command. -/
theorem State.Inv.stage_of_running (h : s.Inv) (hr : s.running = some r) :
    s.status.stage ≠ .idle ∧ s.status.stage ≠ .done := by
  obtain ⟨i, hi, hrest⟩ := h.runs r hr
  cases i with
  | demodulate =>
    rcases hrest with ⟨hstart, -⟩ | ⟨-, bytes, -, hwork⟩
    · rw [hstart]
      exact ⟨by decide, by decide⟩
    · constructor
      · intro hidle
        rw [hidle] at hwork
        cases hwork
      · intro hdone
        rw [hdone] at hwork
        cases hwork
  | modulate | whiten | crc24 | assemble | aaDetect | genPulse =>
    have hexec : s.status.stage = .exec := hrest
    rw [hexec]
    exact ⟨by decide, by decide⟩

/-- `CMD_OVR` is outside the invariant but for S_IDLE, where no command runs. -/
theorem State.Inv.recordOverrun (h : s.Inv) (hr : s.running = some r) : s.recordOverrun.Inv where
  memWf := h.memWf
  memMapped := h.memMapped
  restStage := h.restStage
  idleStatus := fun hidle => absurd hidle (h.stage_of_running hr).1
  doneStage := h.doneStage
  errCode := h.errCode
  raised := h.raised
  busyStatus := h.busyStatus
  runs := fun q hq => (h.runs q hq).congr hq hq rfl fun _ _ => rfl
  flags := h.flags
  pduLen := h.pduLen

theorem State.Inv.request (h : s.Inv) (w : Word) : (s.request w).Inv := by
  cases hr : s.running with
  | some r =>
    rw [State.request_recordOverrun (by rw [hr]; rfl)]
    exact h.recordOverrun hr
  | none =>
    cases hw : decode w with
    | instr i =>
      obtain rfl := eq_encode_of_decode hw
      rw [State.request_encode hr]
      exact h.accept i
    | illegal e =>
      rw [State.request_illegal hr hw]
      exact h.refuse_illegalCmd w

/-! ### A stage's end -/

/-- DEMODULATE goes on to a stage with what its samples give there. -/
theorem State.Inv.advance {m : Memory} {k : Work} {g : Stage} {bytes : List Byte} (h : s.Inv)
    (hr : s.running = some r) (hd : decode r.word = .instr .demodulate)
    (hstored : StoredWell m s.res) (hcheck : demodulateCheck r.cfg = .ok)
    (hread : r.cfg.readIq m = .ok bytes)
    (hk : workAt r.cfg (samplesOf bytes) g = some k) :
    (State.advance { s with mem := m } k g).Inv := by
  obtain ⟨hdone, herr, hlast⟩ := h.busyStatus r hr
  have hcfg : State.cfg { s with mem := m } = r.cfg := State.cfg_of_running _ r hr
  have hword : State.commandWord { s with mem := m } = r.word :=
    State.commandWord_of_running _ r hr
  exact
    { memWf := hstored.wf
      memMapped := hstored.mapped
      restStage := fun hnone => by cases hnone
      idleStatus := fun hidle => by
        obtain rfl : g = .idle := hidle
        cases hk
      doneStage := fun htrue => absurd (hdone.symm.trans htrue) (by decide)
      errCode := fun htrue => absurd (herr.symm.trans htrue) (by decide)
      raised := fun hend => by
        obtain rfl : g = .done := hend
        cases hk
      busyStatus := fun q hq => by
        cases hq
        exact ⟨hdone, herr, by rw [hword]; exact hlast⟩
      runs := fun q hq => by
        cases hq
        refine (State.runsWell_demodulate (by rw [hword]; exact hd)).2 (.inr ?_)
        refine ⟨by rw [hcfg]; exact hcheck, bytes, ?_, by rw [hcfg]; exact hk⟩
        rw [State.iqBytes_of_running rfl, hcfg]
        exact hread
      flags := hstored.flags
      pduLen := hstored.pduLen }

end

end Sys2Proof.Machine
end

section
/-! SUPPORT. Every command, and every stage of DEMODULATE, keeps the invariant. -/

namespace Sys2Proof.Machine

/-! ### The commands of one stage -/

/-- A next state in the outcome is that of a command `i` that has left `STATUS` alone, the buffers
and results well stored, and then completed with a code it can raise. -/
def EndsWell (s : State) (i : Instr) (o : Host.Outcome State Fault Refusal) : Prop :=
  ∀ t, o = .next t → ∃ (u : State) (code : ErrCode), t = u.complete code ∧ u.status = s.status
    ∧ StoredWell u.mem u.res ∧ code ∈ raisedBy i

section
variable {s : State} {i : Instr}

theorem EndsWell.complete {u : State} (hstatus : u.status = s.status)
    (hstored : StoredWell u.mem u.res) : EndsWell s i (.next (u.complete .ok)) := by
  rintro t ⟨⟩
  exact ⟨u, .ok, rfl, hstatus, hstored, by cases i <;> decide⟩

theorem EndsWell.guarded {code : ErrCode} {b : Host.Outcome State Fault Refusal}
    (hs : StoredWell s.mem s.res) (hcode : code ∈ raisedBy i) (hb : code = .ok → EndsWell s i b) :
    EndsWell s i (s.guarded code b) := by
  intro t ht
  rcases State.guarded_next ht with ⟨-, rfl⟩ | ⟨hok, ht⟩
  · exact ⟨s, code, rfl, rfl, hs, hcode⟩
  · exact hb hok t ht

theorem EndsWell.withRead {α : Type} {r : Except Nat α} {b : α → Host.Outcome State Fault Refusal}
    (hb : ∀ v, r = .ok v → EndsWell s i (b v)) : EndsWell s i (withRead i r b) := by
  intro t ht
  obtain ⟨v, hv, ht⟩ := withRead_next ht
  exact hb v hv t ht

/-- Every code of the check table is one its command can raise. -/
theorem checkOf_mem_raisedBy (i : Instr) (c : CfgRegs) (m : Memory) :
    checkOf i c m ∈ raisedBy i := by
  cases i with
  | modulate => show modulateCheck c ∈ _; unfold modulateCheck; split_ifs <;> decide
  | demodulate => show demodulateCheck c ∈ _; unfold demodulateCheck; split_ifs <;> decide
  | whiten => show whitenCheck c ∈ _; unfold whitenCheck; split_ifs <;> decide
  | crc24 => show crc24Check c ∈ _; unfold crc24Check; split_ifs <;> decide
  | assemble => rw [checkOf_assemble_eq]; unfold assembleCheck; split_ifs <;> decide
  | aaDetect => show aaDetectCheck c ∈ _; unfold aaDetectCheck; split_ifs <;> decide
  | genPulse => show genPulseCheck c ∈ _; unfold genPulseCheck; split_ifs <;> decide

theorem execModulate_endsWell (hs : StoredWell s.mem s.res) :
    EndsWell s .modulate (execModulate s) :=
  .guarded hs (checkOf_mem_raisedBy .modulate s.cfg s.mem) fun hok => .withRead fun bits hbits =>
    .complete (modulated_status s bits) (hs.modulated hok (Memory.readBits_length hbits))

theorem execWhiten_endsWell (hs : StoredWell s.mem s.res) : EndsWell s .whiten (execWhiten s) :=
  .guarded hs (checkOf_mem_raisedBy .whiten s.cfg s.mem) fun hok => .withRead fun _ hbits =>
    .complete rfl (hs.whitened hok (Memory.readBits_length hbits))

theorem execCrc24_endsWell (hs : StoredWell s.mem s.res) : EndsWell s .crc24 (execCrc24 s) :=
  .guarded hs (checkOf_mem_raisedBy .crc24 s.cfg s.mem) fun _ => .withRead fun _ _ =>
    .complete rfl (hs.withRes hs.flags hs.pduLen)

theorem execAssemble_endsWell (hs : StoredWell s.mem s.res) :
    EndsWell s .assemble (execAssemble s) := by
  have hcode := checkOf_mem_raisedBy .assemble s.cfg s.mem
  rw [checkOf_assemble_eq] at hcode
  refine .guarded hs hcode fun _ => .withRead fun len _ =>
    .guarded hs (by rw [assembleLenCheck_ok]; decide) fun _ => .withRead fun pdu hpdu =>
      .complete (assembled_status s pdu) (hs.assembled ?_)
  have hlen := (len.headD 0).isLt
  rw [Memory.readBytes_length hpdu]
  omega

theorem execAaDetect_endsWell (hs : StoredWell s.mem s.res) :
    EndsWell s .aaDetect (execAaDetect s) :=
  .guarded hs (checkOf_mem_raisedBy .aaDetect s.cfg s.mem) fun _ => .withRead fun bits _ =>
    .complete rfl (hs.aaResults s.cfg bits)

theorem execGenPulse_endsWell (hs : StoredWell s.mem s.res) :
    EndsWell s .genPulse (execGenPulse s) :=
  .guarded hs (checkOf_mem_raisedBy .genPulse s.cfg s.mem) fun hok =>
    .complete (pulseGenerated_status s) (hs.pulseGenerated hok)

theorem exec_endsWell (hi : i ≠ .demodulate) (hs : StoredWell s.mem s.res) :
    EndsWell s i (exec i s) := by
  cases i with
  | demodulate => exact absurd rfl hi
  | modulate => exact execModulate_endsWell hs
  | whiten => exact execWhiten_endsWell hs
  | crc24 => exact execCrc24_endsWell hs
  | assemble => exact execAssemble_endsWell hs
  | aaDetect => exact execAaDetect_endsWell hs
  | genPulse => exact execGenPulse_endsWell hs

end

section
variable {s t : State} {r : Running}

theorem State.Inv.of_endsWell {i : Instr} {o : Host.Outcome State Fault Refusal} (h : s.Inv)
    (hr : s.running = some r) (hd : decode r.word = .instr i) (ho : EndsWell s i o)
    (ht : o = .next t) : t.Inv := by
  obtain ⟨u, code, rfl, hstatus, hstored, hcode⟩ := ho t ht
  exact h.complete hr hd hstatus hstored hcode

/-! ### The stages of DEMODULATE -/

/-- A write to `RXBIT` leaves the samples alone (20_memory.md R104). -/
theorem Memory.readBytes_iq_writeBits_rxbit {m : Memory} (h : m.wf = true) {l : List Bool}
    (hl : l.length ≤ 131072) (off n : Nat) :
    (m.writeBits Config.rxbitBase 0 l).readBytes (Config.iqBase + off) n
      = m.readBytes (Config.iqBase + off) n := by
  have hout : ∀ i, ∀ j, 0 ≤ j → j < 0 + l.length →
      Config.iqBase + off + i ≠ Config.rxbitBase + j / 8 := by
    unfold Config.iqBase Config.rxbitBase
    omega
  exact Memory.readBytes_congr
    (fun i _ => (Memory.byte_writeBits_of_outside h _ _ _ _ (hout i)).1)
    (fun i _ => (Memory.byte_writeBits_of_outside h _ _ _ _ (hout i)).2)

@[simp] theorem paddedBits_length (c : List Bool) :
    (paddedBits c).length = 8 * ((c.length + 7) / 8) := by
  simp only [paddedBits, List.length_append, List.length_replicate]
  omega

theorem State.Inv.demodExit (h : s.Inv) (hr : s.running = some r)
    (hd : decode r.word = .instr .demodulate) (k : Work) {e : DemodExit} (he : e.Legal) :
    (demodExit s k e).Inv :=
  h.complete hr hd rfl (h.storedWell.demodExit k he) (by decide)

/-- The first stage: the checks and the samples (43_demodulator.md R310, R312). -/
theorem State.Inv.demodStart (h : s.Inv) (hr : s.running = some r)
    (hd : decode r.word = .instr .demodulate) (ht : demodStart s = .next t) : t.Inv := by
  have hcfg := State.cfg_of_running s r hr
  rcases State.guarded_next ht with ⟨-, rfl⟩ | ⟨hok, ht⟩
  · exact h.complete hr hd rfl h.storedWell (checkOf_mem_raisedBy .demodulate s.cfg s.mem)
  · obtain ⟨bytes, hbytes, ht⟩ := withRead_next ht
    cases ht
    rw [hcfg] at hok hbytes
    exact h.advance hr hd h.storedWell hok hbytes rfl

/-- Every later stage goes on to what the samples give at the next one, or takes an exit. -/
theorem State.Inv.demodStage_of_workAt {bytes : List Byte} (h : s.Inv) (hr : s.running = some r)
    (hd : decode r.word = .instr .demodulate) (hcheck : demodulateCheck r.cfg = .ok)
    (hread : s.iqBytes = .ok bytes)
    (hwork : workAt r.cfg (samplesOf bytes) s.status.stage = some r.work)
    (ht : demodStage s = .next t) : t.Inv := by
  have hcfg := State.cfg_of_running s r hr
  have hkw := State.work_of_running s r hr
  have hread' := hread
  rw [State.iqBytes_of_running hr] at hread'
  have hadvance : ∀ {k g}, workAt r.cfg (samplesOf bytes) g = some k → (s.advance k g).Inv :=
    fun hk => h.advance hr hd h.storedWell hcheck hread' hk
  cases hg : s.status.stage with
  | freqSync =>
    rw [hg] at hwork; rw [demodStage, hg, hcfg, hkw] at ht; cases ht
    exact hadvance (congrArg (some <| freqSyncWork r.cfg ·) (Option.some.inj hwork))
  | demod =>
    rw [hg] at hwork; rw [demodStage, hg, hkw] at ht; cases ht
    exact hadvance (congrArg (some <| demodWork ·) (Option.some.inj hwork))
  | filter =>
    rw [hg] at hwork; rw [demodStage, hg, hcfg, hkw] at ht; cases ht
    exact hadvance (congrArg (some <| filterWork r.cfg ·) (Option.some.inj hwork))
  | timingSync =>
    rw [hg] at hwork; rw [demodStage, hg, hcfg, hkw] at ht; cases ht
    exact hadvance (congrArg (some <| timingWork r.cfg ·) (Option.some.inj hwork))
  | bitDecision =>
    rw [hg] at hwork; rw [demodStage, hg, hkw] at ht; cases ht
    have hkend : frontEnd r.cfg (samplesOf bytes) = decisionWork r.work :=
      congrArg decisionWork (Option.some.inj hwork)
    have hlen : (paddedBits (decisionWork r.work).bits).length ≤ 131072 := by
      obtain ⟨-, hsps, -⟩ := demodulateCheck_eq_ok_iff.1 hcheck
      have hsamples := samplesOf_length_of_readBytes hread'
      have hcount := CfgRegs.symbolCount_le hcheck
      rw [paddedBits_length, ← hkend, frontEnd_bits_length_eq_symbolCount hsps hsamples]
      omega
    refine h.advance hr hd (h.storedWell.writeBits (BitSpan.mapped_rxbit hlen)) hcheck
      (bytes := bytes) ?_ (congrArg some hkend)
    rw [CfgRegs.readIq, Memory.readBytes_iq_writeBits_rxbit h.memWf hlen]
    exact hread'
  | packetSync =>
    rw [hg] at hwork; rw [demodStage, hg] at ht; cases ht
    have hkend : frontEnd r.cfg (samplesOf bytes) = r.work := Option.some.inj hwork
    unfold demodPacketSync
    rw [hcfg, hkw]
    cases hhit : findSync r.work.bits (syncPattern r.cfg.accessAddr r.cfg.phycfg) with
    | none => exact h.demodExit hr hd _ exitNoSync_legal
    | some pos =>
      refine hadvance ?_
      rw [← hkend] at hhit ⊢
      simp only [workAt, hhit, Option.map_some]
  | dewhiten =>
    rw [hg] at hwork; rw [demodStage, hg, hcfg, hkw] at ht; cases ht
    obtain ⟨pos, hhit, hk⟩ := Option.map_eq_some_iff.1 hwork
    refine hadvance ?_
    simp only [workAt, hhit, Option.map_some, hk]
  | parse =>
    rw [hg] at hwork; rw [demodStage, hg] at ht; cases ht
    obtain ⟨pos, hhit, hk⟩ := Option.map_eq_some_iff.1 hwork
    unfold demodParse
    rw [hcfg, hkw]
    split_ifs with hshort htrunc
    · exact h.demodExit hr hd _ (exitShort_legal _ _)
    · exact h.demodExit hr hd _ (exitTruncated_legal _ _)
    · refine hadvance ?_
      simp only [workAt, hhit, Option.map_some, hk]
      simp [hshort, htrunc]
  | crcCheck =>
    rw [demodStage, hg] at ht; cases ht
    exact h.demodExit hr hd _ (exitFull_legal _ _)
  | start | idle | done | exec => rw [hg] at hwork; cases hwork

/-- A stage of DEMODULATE keeps the invariant. -/
theorem State.Inv.demodStage (h : s.Inv) (hr : s.running = some r)
    (hd : decode r.word = .instr .demodulate) (ht : demodStage s = .next t) : t.Inv := by
  rcases (State.runsWell_demodulate hd).1 (h.runs r hr) with
    ⟨hstart, -⟩ | ⟨hcheck, bytes, hread, hwork⟩
  · rw [demodStage_eq_demodStart (by rw [hstart]; rfl)] at ht
    exact h.demodStart hr hd ht
  · exact h.demodStage_of_workAt hr hd hcheck hread hwork ht

/-- A stage that does not complete DEMODULATE leaves the same command running. -/
theorem demodStage_running (hr : s.running = some r) (ht : demodStage s = .next t) :
    t.running = none ∨ ∃ q, t.running = some q ∧ q.word = r.word ∧ q.cfg = r.cfg := by
  rcases demodStage_next ht with ⟨g, ⟨m, k, rfl⟩, -⟩ | ⟨-, hnone, -⟩ | ⟨-, code, -, rfl⟩
  · exact .inr ⟨_, rfl, State.commandWord_of_running _ r hr, State.cfg_of_running _ r hr⟩
  · exact .inl hnone
  · exact .inl rfl

theorem State.Inv.demodRun {n : Nat} (h : s.Inv) (hr : s.running = some r)
    (hd : decode r.word = .instr .demodulate) (ht : demodRun n s = .next t) : t.Inv := by
  induction n generalizing s r with
  | zero => cases ht; exact h
  | succ n ih =>
    obtain ⟨u, hu, hrest⟩ := demodRun_next ht
    have hinv := h.demodStage hr hd hu
    rcases hrest with ⟨hsome, hrest⟩ | ⟨-, rfl⟩
    · rcases demodStage_running hr hu with hnone | ⟨q, hq, hword, -⟩
      · exact absurd hnone hsome
      · exact ih hinv hq (hword ▸ hd) hrest
    · exact hinv

/-! ### The core -/

theorem State.Inv.exec {i : Instr} (h : s.Inv) (hr : s.running = some r)
    (hd : decode r.word = .instr i) (ht : exec i s = .next t) : t.Inv := by
  by_cases hi : i = .demodulate
  · subst hi
    exact h.demodRun hr hd ht
  · exact h.of_endsWell hr hd (exec_endsWell hi h.storedWell) ht

theorem State.Inv.stageOf {i : Instr} (h : s.Inv) (hr : s.running = some r)
    (hd : decode r.word = .instr i) (ht : stageOf i s = .next t) : t.Inv := by
  cases i with
  | demodulate => exact h.demodStage hr hd ht
  | modulate | whiten | crc24 | assemble | aaDetect | genPulse => exact h.exec hr hd ht

theorem coreRun_of_idle (h : s.running = none) : coreRun s = .next s := by
  simp [coreRun, State.fetch, h]

theorem coreStage_of_idle (h : s.running = none) : coreStage s = .next s := by
  simp [coreStage, State.fetch, h]

theorem State.Inv.coreRun (h : s.Inv) (ht : coreRun s = .next t) : t.Inv := by
  cases hr : s.running with
  | none =>
    rw [coreRun_of_idle hr] at ht
    cases ht
    exact h
  | some r =>
    obtain ⟨i, hd⟩ := h.running_word hr
    rw [coreRun_of_running hr hd] at ht
    exact h.exec hr hd ht

theorem State.Inv.coreStage (h : s.Inv) (ht : coreStage s = .next t) : t.Inv := by
  cases hr : s.running with
  | none =>
    rw [coreStage_of_idle hr] at ht
    cases ht
    exact h
  | some r =>
    obtain ⟨i, hd⟩ := h.running_word hr
    rw [coreStage_of_running hr hd] at ht
    exact h.stageOf hr hd ht

end

end Sys2Proof.Machine
end

section
/-! SUPPORT. Every host access keeps the invariant: a write to a buffer cannot reach the samples of a
running DEMODULATE without the fault FOOTPRINT_WRITE (70_reset_and_hazards.md R462). -/

namespace Sys2Proof.Machine

variable {s t : State}

/-! ### Registers -/

theorem Status.w1c_reset (w : Word) : Status.reset.w1c w = Status.reset := by
  simp [Status.w1c, Status.reset]

theorem State.Inv.w1c (h : s.Inv) (w : Word) :
    State.Inv { s with status := s.status.w1c w } where
  memWf := h.memWf
  memMapped := h.memMapped
  restStage := h.restStage
  idleStatus := fun hidle => by
    have hreset := h.idleStatus hidle
    show s.status.w1c w = Status.reset
    rw [hreset, Status.w1c_reset]
  doneStage := fun hdone => h.doneStage (Bool.and_eq_true_iff.1 hdone).1
  errCode := fun herr => h.errCode (Bool.and_eq_true_iff.1 herr).1
  raised := h.raised
  busyStatus := fun r hr => by
    obtain ⟨hdone, herr, hlast⟩ := h.busyStatus r hr
    simp [Status.w1c, hdone, herr, hlast]
  runs := fun r hr => (h.runs r hr).congr hr hr rfl fun _ _ => rfl
  flags := h.flags
  pduLen := h.pduLen

theorem State.Inv.setReg (h : s.Inv) (r : Reg) (w : Word) : (s.setReg r w).Inv := by
  cases r with
  | cmd => exact h.request w
  | status => exact h.w1c w
  | ctrl | phycfg | sampleRate | modIndex | bt | span | accessAddr | crcInit | txFoff | txNbits
  | iqNsamp | iqOff | opOff | opLen | crcNbytes => exact h.withRegs _ _
  | resFlags | resTiming | resSyncPos | resAa | resHdr | resPduLen | resNbits | resCrc | resCrcRx
  | resSps | resCoefLen | resRssiLo | resRssiHi | resFreqLo | resFreqHi => exact h

/-- An admitted write to the register window stores to the register, ignores a reserved offset, or
stops with a fault. -/
theorem State.writeRegAt_next {off : Nat} {w : Word} (ht : s.writeRegAt off w = .next t) :
    t = { s with response := some writeDone }
      ∨ ∃ r, t = { s.setReg r w with response := some writeDone } := by
  unfold State.writeRegAt at ht
  split at ht
  · cases ht
    exact .inl rfl
  · rename_i r _
    split at ht
    · cases ht
    · cases ht
      exact .inr ⟨r, rfl⟩

/-! ### Buffers -/

/-- A write that stores hits no byte of either footprint (70_reset_and_hazards.md R462). -/
theorem State.footprintHit_eq_none {a n : Nat} :
    s.footprintHit a n = none ↔
      ∀ b, a ≤ b → b < a + n → s.inputMask b = 0 ∧ s.outputMask b = 0 := by
  simp only [State.footprintHit, List.find?_eq_none, List.mem_map, List.mem_range,
    Bool.or_eq_true, decide_eq_true_eq, forall_exists_index, and_imp, not_or, not_not]
  constructor
  · intro h b hab hb
    exact h b (b - a) (by omega) (by omega)
  · rintro h b j hj rfl
    exact h _ (by omega) (by omega)

theorem State.writeBufferAt_next {a : Nat} {w : Width} {d : DWord}
    (ht : s.writeBufferAt a w d = .next t) :
    s.footprintHit a (Width.bytes w) = none
      ∧ t = { s with
          mem := s.mem.writeBytes a (writeBytesOf w d), response := some writeDone } := by
  unfold State.writeBufferAt at ht
  split at ht
  · cases ht
  · cases ht
    exact ⟨‹_›, rfl⟩

/-- A byte of the samples is in the input footprint of a running DEMODULATE. -/
theorem State.inputMask_iq {r : Running} (hr : s.running = some r)
    (hd : decode r.word = .instr .demodulate) (hcheck : demodulateCheck r.cfg = .ok) {j : Nat}
    (hj : j < 16 * r.cfg.iqNsamp.toNat) :
    s.inputMask (Config.iqBase + 16 * r.cfg.iqOff.toNat + j) ≠ 0 := by
  unfold State.inputMask
  rw [State.activeInstr_of_running hr hd hcheck, State.cfg_of_running s r hr]
  refine spansMask_ne_zero (k := 0) (by decide) (List.mem_singleton.2 rfl) ?_
  rw [BitSpan.covers_iff (by decide)]
  exact ⟨8 * j, by omega, by omega, by omega⟩

theorem State.Inv.writeBuffer {a : Nat} {w : Width} {d : DWord} (h : s.Inv)
    (hin : inBuffer a (Width.bytes w) = true)
    (hhit : s.footprintHit a (Width.bytes w) = none) :
    State.Inv { s with mem := s.mem.writeBytes a (writeBytesOf w d) } := by
  have hstored : StoredWell (s.mem.writeBytes a (writeBytesOf w d)) s.res :=
    h.storedWell.writeBytes (by rwa [writeBytesOf_length])
  refine h.of_same rfl rfl hstored fun r hr hd hcheck => ?_
  have hout : ∀ j, j < 16 * r.cfg.iqNsamp.toNat →
      ¬ (a ≤ Config.iqBase + 16 * r.cfg.iqOff.toNat + j
        ∧ Config.iqBase + 16 * r.cfg.iqOff.toNat + j < a + (writeBytesOf w d).length) := by
    rintro j hj ⟨hle, hlt⟩
    rw [writeBytesOf_length] at hlt
    exact State.inputMask_iq hr hd hcheck hj (State.footprintHit_eq_none.1 hhit _ hle hlt).1
  refine Memory.readBytes_congr (fun j hj => ?_) fun j hj => ?_
  · rw [Memory.byte_writeBytes h.memWf, if_neg (hout j hj)]
  · rw [Memory.mask_writeBytes h.memWf, if_neg (hout j hj)]

/-! ### The port -/

theorem State.Inv.hostRead (h : s.Inv) (a : Nat) (w : Width) : (s.hostRead a w).Inv := by
  unfold State.hostRead
  split
  · exact h.withOwn _ _ _
  · exact h.withOwn _ _ _

theorem State.Inv.hostWrite {a : Nat} {w : Width} {d : DWord} (h : s.Inv)
    (ht : s.hostWrite a w d = .next t) : t.Inv := by
  unfold State.hostWrite at ht
  split_ifs at ht with hadm hwin
  · rcases State.writeRegAt_next ht with rfl | ⟨r, rfl⟩
    · exact h.withOwn _ _ _
    · exact (h.setReg r _).withOwn _ _ _
  · obtain ⟨hhit, rfl⟩ := State.writeBufferAt_next ht
    have hin : inBuffer a (Width.bytes w) = true := by
      rw [admitted, if_neg hwin, Bool.and_eq_true] at hadm
      exact hadm.2
    exact (h.writeBuffer hin hhit).withOwn _ _ _
  · cases ht
    exact h.withOwn _ _ _

theorem State.Inv.access {a : HostAccess} (h : s.Inv) (ht : s.access a = .next t) : t.Inv := by
  cases a with
  | read a w =>
    cases ht
    exact h.hostRead a.toNat w
  | write a w d => exact h.hostWrite ht

/-! ### Reset -/

theorem State.reset_inv : State.reset.Inv where
  memWf := Memory.unwritten_wf
  memMapped := fun a ha => absurd (Memory.mask_unwritten a) ha
  restStage := fun _ => .inl rfl
  idleStatus := fun _ => rfl
  doneStage := fun hdone => by cases hdone
  errCode := fun herr => by cases herr
  raised := fun hdone => by cases hdone
  busyStatus := fun _ hr => by cases hr
  runs := fun _ hr => by cases hr
  flags := by simp [ResFlags.Legal, State.reset, Results.reset]
  pduLen := by decide

theorem State.applyReset_inv (s : State) : s.applyReset.Inv :=
  State.reset_inv.withOwn _ _ _

end Sys2Proof.Machine
end

section
/-! The statements of the invariant (10_state.md section 2, section 6; 43_demodulator.md
section 5). -/

namespace Sys2Proof.Proofs

open Sys2Proof.Machine

/-- Settles O59: field by field, `State.reset_inv`. -/
theorem resetSatisfiesTheInvariant : Obligations.ResetSatisfiesTheInvariant := State.reset_inv

/-- Settles O60: by the kind of the input, each of which keeps the invariant: an access
(`State.Inv.access`), a stage (`State.Inv.coreStage`), a run (`State.Inv.coreRun`) or reset. -/
theorem everyStepKeepsTheInvariant : Obligations.EveryStepKeepsTheInvariant := by
  unfold Obligations.EveryStepKeepsTheInvariant
  intro s t h ht
  cases hin : s.inputs with
  | nil =>
    rw [step, hin] at ht
    exact h.coreRun ht
  | cons i rest =>
    rw [step_of_inputs_cons hin] at ht
    have hrest : State.Inv { s with inputs := rest } := h.withOwn rest s.response s.draws
    cases i with
    | access a => exact hrest.access ht
    | stage => exact hrest.coreStage ht
    | run => exact hrest.coreRun ht
    | reset =>
      cases ht
      exact State.applyReset_inv _

end Sys2Proof.Proofs
end

section
/-! SUPPORT. Rounding to nearest, ties to even (00_scope.md R12, R13): of a quotient to an integer, and
of a rational to binary64. -/

namespace Sys2Proof.Machine

/-! ### `round_half_even` -/

theorem roundHalfEven_near (a : Nat) {b : Nat} (hb : 0 < b) :
    2 * ((roundHalfEven a b : Int) * b - a).natAbs ≤ b
      ∧ (2 * ((roundHalfEven a b : Int) * b - a).natAbs = b → roundHalfEven a b % 2 = 0) := by
  have hdiv : ((a / b : Nat) : Int) * b + (a % b : Nat) = a := by
    exact_mod_cast Nat.div_add_mod' a b
  have hlt := Nat.mod_lt a hb
  have hsucc : (((a / b : Nat) : Int) + 1) * b = (a / b : Nat) * b + b := by ring
  unfold roundHalfEven
  generalize (a / b : Nat) = q at *
  generalize (a % b : Nat) = r at *
  simp only
  split_ifs with hup hdown
  · push_cast; omega
  · omega
  · rcases Nat.mod_two_eq_zero_or_one q with hq | hq
    · rw [hq, Nat.add_zero]
      exact ⟨by omega, fun _ => hq⟩
    · rw [hq]; push_cast; omega

/-- `round_half_even(a/b)` is an integer nearest to the quotient, and the even one at a tie. -/
theorem roundHalfEven_nearest (a : Nat) {b : Nat} (hb : 0 < b) :
    |(roundHalfEven a b : ℚ) - a / b| ≤ 1 / 2
      ∧ (|(roundHalfEven a b : ℚ) - a / b| = 1 / 2 → roundHalfEven a b % 2 = 0) := by
  obtain ⟨hnear, htie⟩ := roundHalfEven_near a hb
  have hb' : (0 : ℚ) < b := by exact_mod_cast hb
  have habs : |(roundHalfEven a b : ℚ) - a / b|
      = (((roundHalfEven a b : Int) * b - a).natAbs : ℚ) / b := by
    rw [Nat.cast_natAbs, Int.cast_abs, ← abs_of_pos hb', ← abs_div, abs_of_pos hb']
    congr 1
    field_simp
    push_cast
    rfl
  rw [habs, div_le_div_iff₀ hb' two_pos, div_eq_div_iff hb'.ne' two_ne_zero]
  constructor
  · rw [mul_comm, one_mul]; exact_mod_cast hnear
  · intro h
    refine htie ?_
    rw [mul_comm, one_mul] at h
    exact_mod_cast h

/-! ### The last place of the result -/

/-- The exponent of the last place of a result: 52 below the leading bit, or that of the subnormal
numbers. -/
def roundingUnit (n d : Nat) (e : Int) : Int := max (floorLog2 n d + e - 52) (-1074)

/-- The result as a multiple of its last place. -/
def roundedTo (n d : Nat) (e : Int) : Nat :=
  if 0 ≤ e - roundingUnit n d e then roundHalfEven (n <<< (e - roundingUnit n d e).toNat) d
  else roundHalfEven n (d <<< (-(e - roundingUnit n d e)).toNat)

/-- The magnitude bits of the result, if it does not overflow. -/
def roundedBits (n d : Nat) (e : Int) : Nat :=
  (roundingUnit n d e + 1074).toNat * 4503599627370496 + roundedTo n d e

theorem fround_of_pos {n : Nat} (hn : n ≠ 0) (neg : Bool) (d : Nat) (e : Int) :
    fround neg n d e
      = if 0x7FF0000000000000 ≤ roundedBits n d e then finf neg
        else fsigned neg (roundedBits n d e) := by
  simp only [fround, hn, if_false]
  rfl

theorem fround_zero (neg : Bool) (d : Nat) (e : Int) : fround neg 0 d e = fzero neg := rfl

section
variable {n d : Nat} {e : Int}

theorem roundingUnit_ge : -1074 ≤ roundingUnit n d e := le_max_right _ _

/-- The exact magnitude in units of the last place. -/
def exactUnits (n d : Nat) (e : Int) : ℚ := (n : ℚ) / d * 2 ^ (e - roundingUnit n d e)

theorem exactUnits_mul : exactUnits n d e * 2 ^ roundingUnit n d e = (n : ℚ) / d * 2 ^ e := by
  rw [exactUnits, mul_assoc, ← zpow_add₀ two_ne_zero, sub_add_cancel]

theorem roundedTo_nearest (hd : 0 < d) :
    |(roundedTo n d e : ℚ) - exactUnits n d e| ≤ 1 / 2
      ∧ (|(roundedTo n d e : ℚ) - exactUnits n d e| = 1 / 2 → roundedTo n d e % 2 = 0) := by
  unfold roundedTo exactUnits
  generalize e - roundingUnit n d e = sh
  split_ifs with h
  · obtain ⟨j, rfl⟩ := Int.eq_ofNat_of_zero_le h
    have := roundHalfEven_nearest (n <<< j) hd
    rwa [Nat.shiftLeft_eq, Nat.cast_mul, Nat.cast_pow, Nat.cast_two, mul_div_right_comm,
      ← zpow_natCast, ← Nat.shiftLeft_eq] at this
  · obtain ⟨j, hj⟩ := Int.eq_ofNat_of_zero_le (show 0 ≤ -sh by omega)
    have := roundHalfEven_nearest n (b := d <<< j) (by rw [Nat.shiftLeft_eq]; positivity)
    rw [hj, Int.toNat_natCast, show sh = -(j : Int) by omega, zpow_neg, ← div_eq_mul_inv, div_div,
      zpow_natCast]
    rwa [Nat.shiftLeft_eq, Nat.cast_mul, Nat.cast_pow, Nat.cast_two, ← Nat.shiftLeft_eq] at this

/-- The exact magnitude has at most 53 bits before its last place. -/
theorem exactUnits_lt (hn : 0 < n) (hd : 0 < d) : exactUnits n d e < 2 ^ 53 := by
  have hup := (floorLog2_bounds n d hn hd).2
  calc exactUnits n d e
    _ < 2 ^ (floorLog2 n d + 1) * 2 ^ (e - roundingUnit n d e) :=
      mul_lt_mul_of_pos_right hup (by positivity)
    _ = 2 ^ (floorLog2 n d + 1 + (e - roundingUnit n d e)) := (zpow_add₀ two_ne_zero _ _).symm
    _ ≤ 2 ^ (53 : Int) := by
      refine zpow_le_zpow_right₀ one_le_two ?_
      have := le_max_left (floorLog2 n d + e - 52) (-1074)
      unfold roundingUnit
      omega

/-- Above the subnormal numbers it has 53. -/
theorem le_exactUnits (hn : 0 < n) (hd : 0 < d) (hu : -1074 < roundingUnit n d e) :
    2 ^ 52 ≤ exactUnits n d e := by
  have hlo := (floorLog2_bounds n d hn hd).1
  have hunit : roundingUnit n d e = floorLog2 n d + e - 52 := by
    unfold roundingUnit at hu ⊢
    omega
  calc (2 : ℚ) ^ 52
    _ = 2 ^ (floorLog2 n d + (e - roundingUnit n d e)) := by
      rw [show floorLog2 n d + (e - roundingUnit n d e) = ((52 : ℕ) : ℤ) by rw [hunit]; push_cast; ring,
        zpow_natCast]
    _ = 2 ^ floorLog2 n d * 2 ^ (e - roundingUnit n d e) := zpow_add₀ two_ne_zero _ _
    _ ≤ exactUnits n d e := mul_le_mul_of_nonneg_right hlo (by positivity)

/-- An integer bound of the exact magnitude bounds the rounded one. -/
theorem roundedTo_le (hd : 0 < d) {b : Nat} (h : exactUnits n d e ≤ b) : roundedTo n d e ≤ b := by
  obtain ⟨hnear, -⟩ := roundedTo_nearest (n := n) (e := e) hd
  by_contra hlt
  have : (b : ℚ) + 1 ≤ roundedTo n d e := by exact_mod_cast Nat.lt_of_not_le hlt
  rw [abs_le] at hnear
  linarith

theorem le_roundedTo (hd : 0 < d) {b : Nat} (h : b ≤ exactUnits n d e) : b ≤ roundedTo n d e := by
  obtain ⟨hnear, -⟩ := roundedTo_nearest (n := n) (e := e) hd
  by_contra hlt
  have : (roundedTo n d e : ℚ) + 1 ≤ b := by exact_mod_cast Nat.lt_of_not_le hlt
  rw [abs_le] at hnear
  linarith

theorem roundedTo_le_pow (hn : 0 < n) (hd : 0 < d) : roundedTo n d e ≤ 9007199254740992 :=
  roundedTo_le hd (by have := exactUnits_lt (e := e) hn hd; norm_num at this ⊢; exact this.le)

theorem pow_le_roundedTo (hn : 0 < n) (hd : 0 < d) (hu : -1074 < roundingUnit n d e) :
    4503599627370496 ≤ roundedTo n d e :=
  le_roundedTo hd (by have := le_exactUnits hn hd hu; norm_num at this ⊢; exact this)

end

/-! ### Finite encodings -/

theorem fsign_fsigned (neg : Bool) {b : Nat} (h : b < 9223372036854775808) :
    fsign (fsigned neg b) = neg := by
  unfold fsign fsigned
  rw [BitVec.msb_eq_decide]
  cases neg <;> simp [BitVec.toNat_ofNat] <;> omega

theorem fsign_finf (neg : Bool) : fsign (finf neg) = neg := fsign_fsigned neg (by decide)

/-- A sign as a factor. -/
def signFactor (neg : Bool) : ℚ := if neg then -1 else 1

@[simp] theorem signFactor_true : signFactor true = -1 := rfl

@[simp] theorem signFactor_false : signFactor false = 1 := rfl

@[simp] theorem abs_signFactor (neg : Bool) : |signFactor neg| = 1 := by cases neg <;> simp

theorem signFactor_mul_scaled (neg : Bool) (m : Nat) (e : Int) :
    signFactor neg * scaled m e = if neg then -scaled m e else scaled m e := by
  cases neg <;> simp

/-- Magnitude bits that hold a biased exponent and, above it, a significand of at most 53 bits. -/
theorem finiteValue_fsigned {neg : Bool} {k q : Nat} (hq : q ≤ 9007199254740992)
    (hnormal : k = 0 ∨ 4503599627370496 ≤ q)
    (hfin : k * 4503599627370496 + q < 0x7FF0000000000000) :
    finiteValue (fsigned neg (k * 4503599627370496 + q))
      = some (signFactor neg * ((q : ℚ) * 2 ^ ((k : Int) - 1074))) := by
  have hunpack := funpack_fsigned neg (k * 4503599627370496 + q) hfin
  rcases Nat.lt_or_ge q 4503599627370496 with hsub | hnorm
  · obtain rfl : k = 0 := by omega
    rw [if_pos (by omega)] at hunpack
    rw [finiteValue_of_fin hunpack, ← signFactor_mul_scaled, scaled]
    simp
  rw [if_neg (by omega)] at hunpack
  rw [finiteValue_of_fin hunpack, ← signFactor_mul_scaled, scaled]
  congr 2
  rcases Nat.lt_or_ge q 9007199254740992 with hlt | hge
  · rw [show (k * 4503599627370496 + q) % 4503599627370496 + 4503599627370496 = q by omega,
      show (((k * 4503599627370496 + q) / 4503599627370496 : Nat) : Int) - 1075 = (k : Int) - 1074 by
        omega]
  · obtain rfl : q = 9007199254740992 := by omega
    rw [show (k * 4503599627370496 + 9007199254740992) % 4503599627370496 + 4503599627370496
        = 4503599627370496 by omega,
      show (((k * 4503599627370496 + 9007199254740992) / 4503599627370496 : Nat) : Int) - 1075
        = (k : Int) - 1074 + 1 by omega, zpow_add_one₀ two_ne_zero]
    push_cast
    ring

theorem significand_lt_pow {m : Nat} (h : m < 9007199254740992) : (m : ℚ) < 2 ^ 53 := by
  norm_num
  exact_mod_cast h

/-- Every finite encoding is a significand of at most 53 bits times a power of two that is not
below the subnormal one. -/
theorem funpack_fin_bounds {x : F64} {neg : Bool} {m : Nat} {e : Int}
    (h : funpack x = .fin neg m e) : m < 9007199254740992 ∧ -1074 ≤ e ∧ neg = fsign x := by
  unfold funpack at h
  have hfrac : ffrac x < 4503599627370496 := Nat.mod_lt _ (by decide)
  split_ifs at h with h1 h2 h3
  · cases h
    exact ⟨by omega, by omega, rfl⟩
  · cases h
    exact ⟨by omega, by omega, rfl⟩

theorem finiteValue_eq_some_iff {x : F64} {v : ℚ} :
    finiteValue x = some v ↔
      ∃ m e, funpack x = .fin (fsign x) m e ∧ m < 9007199254740992 ∧ -1074 ≤ e
        ∧ v = signFactor (fsign x) * scaled m e := by
  constructor
  · intro h
    cases hx : funpack x with
    | nan => simp [finiteValue, hx] at h
    | inf neg => simp [finiteValue, hx] at h
    | fin neg m e =>
      obtain ⟨hm, he, rfl⟩ := funpack_fin_bounds hx
      rw [finiteValue_of_fin hx, Option.some_inj] at h
      exact ⟨m, e, rfl, hm, he, by rw [signFactor_mul_scaled, h]⟩
  · rintro ⟨m, e, hx, -, -, rfl⟩
    rw [finiteValue_of_fin hx, signFactor_mul_scaled]

theorem finiteValue_fzero (neg : Bool) : finiteValue (fzero neg) = some 0 := by
  have := finiteValue_fsigned (neg := neg) (k := 0) (q := 0) (by decide) (.inl rfl) (by decide)
  simpa [fzero] using this

theorem finiteValue_finf (neg : Bool) : finiteValue (finf neg) = none := by
  cases neg <;> decide

/-! ### What `fround` gives -/

section
variable {n d : Nat} {e : Int}

/-- A result that does not overflow is its multiple of the last place. -/
theorem finiteValue_fround (hn : 0 < n) (hd : 0 < d) (neg : Bool)
    (hfin : roundedBits n d e < 0x7FF0000000000000) :
    finiteValue (fround neg n d e)
      = some (signFactor neg * ((roundedTo n d e : ℚ) * 2 ^ roundingUnit n d e)) := by
  have hu := roundingUnit_ge (n := n) (d := d) (e := e)
  have hk : (((roundingUnit n d e + 1074).toNat : Nat) : Int) - 1074 = roundingUnit n d e := by
    omega
  rw [fround_of_pos hn.ne', if_neg (Nat.not_le.2 hfin), roundedBits,
    finiteValue_fsigned (roundedTo_le_pow hn hd) ?_ hfin, hk]
  rcases eq_or_lt_of_le hu with hmin | hlt
  · exact .inl (by omega)
  · exact .inr (pow_le_roundedTo hn hd hlt)

/-- The result is finite exactly below half a unit past the greatest finite value. -/
theorem roundedBits_lt_iff (hn : 0 < n) (hd : 0 < d) :
    roundedBits n d e < 0x7FF0000000000000 ↔ (n : ℚ) / d * 2 ^ e < 2 ^ 1024 - 2 ^ 970 := by
  have hmax := roundedTo_le_pow (e := e) hn hd
  have hpow : (2 : ℚ) ^ (1024 : ℕ) - 2 ^ (970 : ℕ) = (2 ^ 53 - 1 / 2) * 2 ^ (971 : ℤ) := by
    rw [show (971 : ℤ) = (970 : ℕ) + 1 by rfl, zpow_add_one₀ two_ne_zero, zpow_natCast,
      show 1024 = 54 + 970 by rfl, pow_add]
    generalize (2 : ℚ) ^ (970 : ℕ) = p
    ring
  rw [hpow, ← exactUnits_mul]
  clear hpow
  rcases lt_trichotomy (roundingUnit n d e) 971 with hlt | heq | hgt
  · refine iff_of_true (by unfold roundedBits; omega) ?_
    calc exactUnits n d e * 2 ^ roundingUnit n d e
      _ < 2 ^ 53 * 2 ^ roundingUnit n d e :=
        mul_lt_mul_of_pos_right (exactUnits_lt hn hd) (by positivity)
      _ ≤ 2 ^ 53 * 2 ^ (970 : ℤ) :=
        mul_le_mul_of_nonneg_left (zpow_le_zpow_right₀ one_le_two (by omega)) (by positivity)
      _ < (2 ^ 53 - 1 / 2) * 2 ^ (971 : ℤ) := by
        rw [show (971 : ℤ) = 970 + 1 by rfl, zpow_add_one₀ two_ne_zero]
        have : (0 : ℚ) < 2 ^ (970 : ℤ) := by positivity
        generalize (2 : ℚ) ^ (970 : ℤ) = p at *
        linarith
  · rw [heq, mul_lt_mul_iff_left₀ (by positivity)]
    have hbits : roundedBits n d e < 0x7FF0000000000000 ↔ roundedTo n d e < 9007199254740992 := by
      unfold roundedBits
      rw [heq]
      omega
    rw [hbits]
    obtain ⟨hnear, htie⟩ := roundedTo_nearest (n := n) (e := e) hd
    constructor
    · intro hlt
      by_contra hge
      have hle : (roundedTo n d e : ℚ) ≤ 9007199254740991 := by
        exact_mod_cast Nat.le_of_lt_succ hlt
      have hodd : |(roundedTo n d e : ℚ) - exactUnits n d e| = 1 / 2 := by
        refine le_antisymm hnear ?_
        rw [abs_sub_comm, le_abs]
        left
        norm_num at hge ⊢
        linarith
      have hexact : (roundedTo n d e : ℚ) = 9007199254740991 := by
        rw [abs_sub_comm] at hnear
        have := le_of_abs_le hnear
        norm_num at hge
        linarith
      have : roundedTo n d e = 9007199254740991 := by exact_mod_cast hexact
      have := htie hodd
      omega
    · intro hlt
      by_contra hge
      have hge' : (9007199254740992 : ℚ) ≤ roundedTo n d e := by exact_mod_cast Nat.not_lt.1 hge
      have := le_of_abs_le hnear
      norm_num at hlt
      linarith
  · have hq := pow_le_roundedTo hn hd (show -1074 < roundingUnit n d e by omega)
    refine iff_of_false (by unfold roundedBits; omega) (not_lt.2 ?_)
    calc (2 ^ 53 - 1 / 2) * (2 : ℚ) ^ (971 : ℤ)
      _ ≤ 2 ^ 52 * 2 ^ (972 : ℤ) := by
        rw [show (972 : ℤ) = 971 + 1 by rfl, zpow_add_one₀ two_ne_zero]
        have : (0 : ℚ) < 2 ^ (971 : ℤ) := by positivity
        generalize (2 : ℚ) ^ (971 : ℤ) = p at *
        linarith
      _ ≤ 2 ^ 52 * 2 ^ roundingUnit n d e :=
        mul_le_mul_of_nonneg_left (zpow_le_zpow_right₀ one_le_two (by omega)) (by positivity)
      _ ≤ exactUnits n d e * 2 ^ roundingUnit n d e :=
        mul_le_mul_of_nonneg_right (le_exactUnits hn hd (by omega)) (by positivity)

end

/-! ### No finite value is nearer -/

/-- An integer within a half of `w` is nearest to it among the integers. -/
theorem abs_sub_le_of_near {q : ℤ} {w : ℚ} (h : |(q : ℚ) - w| ≤ 1 / 2) (j : ℤ) :
    |(q : ℚ) - w| ≤ |(j : ℚ) - w|
      ∧ (|(q : ℚ) - w| = |(j : ℚ) - w| → j = q ∨ |(q : ℚ) - w| = 1 / 2) := by
  by_cases hj : j = q
  · subst hj
    exact ⟨le_rfl, fun _ => .inl rfl⟩
  · have hone : (1 : ℚ) ≤ |(j : ℚ) - q| := by exact_mod_cast Int.one_le_abs (sub_ne_zero.2 hj)
    have htri : |(j : ℚ) - q| ≤ |(j : ℚ) - w| + |(q : ℚ) - w| := by
      rw [abs_sub_comm (q : ℚ) w]
      exact abs_sub_le _ _ _
    exact ⟨by linarith, fun heq => .inr (by linarith)⟩

/-- In units of the last place, a finite value of either sign is an integer or is below all numbers
with 53 bits. -/
theorem finiteValue_units {y : F64} {v t : ℚ} {u : Int} (h : finiteValue y = some v) (neg : Bool)
    (ht : signFactor neg * v = t * 2 ^ u) :
    (∃ j : ℤ, t = j) ∨ (-1074 < u ∧ |t| < 2 ^ 52) := by
  obtain ⟨m, f, -, hm, hf, rfl⟩ := finiteValue_eq_some_iff.1 h
  have hpos : (0 : ℚ) < 2 ^ u := by positivity
  rcases le_or_gt u f with hle | hgt
  · obtain ⟨k, hk⟩ := Int.eq_ofNat_of_zero_le (sub_nonneg.2 hle)
    refine .inl ⟨(if neg then -1 else 1) * ((if fsign y then -1 else 1) * (m * 2 ^ k)),
      mul_right_cancel₀ hpos.ne' (ht.symm.trans ?_)⟩
    rw [show f = u + k by omega, scaled, zpow_add₀ two_ne_zero, zpow_natCast, signFactor, signFactor]
    push_cast
    ring
  · refine .inr ⟨by omega, lt_of_mul_lt_mul_right ?_ hpos.le⟩
    calc |t| * 2 ^ u
      _ = |signFactor neg * (signFactor (fsign y) * scaled m f)| := by
        rw [ht, abs_mul, abs_of_pos hpos]
      _ = m * 2 ^ f := by
        rw [abs_mul, abs_mul, abs_signFactor, abs_signFactor, one_mul, one_mul, scaled,
          abs_of_nonneg (by positivity)]
      _ < 2 ^ 53 * 2 ^ f := mul_lt_mul_of_pos_right (significand_lt_pow hm) (by positivity)
      _ = 2 ^ 52 * 2 ^ (f + 1) := by rw [zpow_add_one₀ two_ne_zero]; ring
      _ ≤ 2 ^ 52 * 2 ^ u :=
        mul_le_mul_of_nonneg_left (zpow_le_zpow_right₀ one_le_two (by omega)) (by positivity)

section
variable {n d : Nat} {e : Int}

/-- The rounded magnitude is as near to the exact one, in units, as what a finite value can be. -/
theorem roundedTo_nearest_of_units (hn : 0 < n) (hd : 0 < d) {t : ℚ}
    (ht : (∃ j : ℤ, t = j) ∨ (-1074 < roundingUnit n d e ∧ |t| < 2 ^ 52)) :
    |(roundedTo n d e : ℚ) - exactUnits n d e| ≤ |t - exactUnits n d e|
      ∧ (|(roundedTo n d e : ℚ) - exactUnits n d e| = |t - exactUnits n d e| →
          t = roundedTo n d e ∨ roundedTo n d e % 2 = 0) := by
  obtain ⟨hnear, htie⟩ := roundedTo_nearest (n := n) (e := e) hd
  have hint := abs_sub_le_of_near (q := (roundedTo n d e : ℤ)) (by exact_mod_cast hnear)
  simp only [Int.cast_natCast] at hint
  rcases ht with ⟨j, rfl⟩ | ⟨hu, ht⟩
  · refine ⟨(hint j).1, fun heq => ((hint j).2 heq).imp (fun h => ?_) htie⟩
    exact_mod_cast h
  · have hmin := le_exactUnits (e := e) hn hd hu
    have hcmp : |(roundedTo n d e : ℚ) - exactUnits n d e| ≤ exactUnits n d e - 2 ^ 52 := by
      have := (hint (2 ^ 52)).1
      rwa [Int.cast_pow, Int.cast_two, abs_sub_comm (2 ^ 52),
        abs_of_nonneg (sub_nonneg.2 hmin)] at this
    have hfar : exactUnits n d e - 2 ^ 52 < |t - exactUnits n d e| := by
      rw [abs_sub_comm]
      have := lt_of_abs_lt ht
      exact lt_of_lt_of_le (by linarith) (le_abs_self _)
    have hlt := lt_of_le_of_lt hcmp hfar
    exact ⟨hlt.le, fun heq => absurd heq hlt.ne⟩

theorem getLsbD_zero_fsigned (neg : Bool) (b : Nat) :
    (fsigned neg b).getLsbD 0 = decide (b % 2 = 1) := by
  unfold fsigned
  rw [BitVec.getLsbD_ofNat]
  cases neg <;> simp [Nat.testBit_zero, Nat.add_mod]

/-- The distance of two numbers of the same sign, in units of the last place. -/
theorem abs_signFactor_mul_sub (neg : Bool) (a b : ℚ) {p : ℚ} (hp : 0 < p) :
    |signFactor neg * (a * p) - signFactor neg * (b * p)| = |a - b| * p := by
  rw [← mul_sub, ← sub_mul, abs_mul, abs_mul, abs_signFactor, one_mul, abs_of_pos hp]

theorem signFactor_mul_self (neg : Bool) : signFactor neg * signFactor neg = 1 := by
  cases neg <;> simp

/-- No finite value is nearer than the rounded one, and a tie goes to the even one. -/
theorem fround_nearest (hn : 0 < n) (hd : 0 < d) (neg : Bool) {r : ℚ}
    (hr : finiteValue (fround neg n d e) = some r) {y : F64} {q : ℚ}
    (hq : finiteValue y = some q) :
    |r - signFactor neg * (n / d * 2 ^ e)| ≤ |q - signFactor neg * (n / d * 2 ^ e)|
      ∧ (|r - signFactor neg * (n / d * 2 ^ e)| = |q - signFactor neg * (n / d * 2 ^ e)| →
          q = r ∨ (fround neg n d e).getLsbD 0 = false) := by
  have hfin : roundedBits n d e < 0x7FF0000000000000 := by
    by_contra hge
    rw [fround_of_pos hn.ne', if_pos (Nat.not_lt.1 hge), finiteValue_finf] at hr
    cases hr
  have hp : (0 : ℚ) < 2 ^ roundingUnit n d e := by positivity
  obtain ⟨t, ht⟩ : ∃ t, signFactor neg * q = t * 2 ^ roundingUnit n d e :=
    ⟨_, (div_mul_cancel₀ _ hp.ne').symm⟩
  have hq' : q = signFactor neg * (t * 2 ^ roundingUnit n d e) := by
    rw [← ht, ← mul_assoc, signFactor_mul_self, one_mul]
  obtain ⟨hle, heven⟩ := roundedTo_nearest_of_units hn hd (finiteValue_units hq neg ht)
  rw [finiteValue_fround hn hd neg hfin, Option.some_inj] at hr
  rw [← hr, hq', ← exactUnits_mul, abs_signFactor_mul_sub neg _ _ hp,
    abs_signFactor_mul_sub neg _ _ hp]
  refine ⟨mul_le_mul_of_nonneg_right hle hp.le, fun heq => ?_⟩
  refine (heven (mul_right_cancel₀ hp.ne' heq)).imp (fun h => by rw [h]) fun h => ?_
  rw [fround_of_pos hn.ne', if_neg (Nat.not_le.2 hfin), getLsbD_zero_fsigned]
  unfold roundedBits
  simp
  omega

theorem fround_sign (hn : 0 < n) (neg : Bool) :
    fsign (fround neg n d e) = neg := by
  rw [fround_of_pos hn.ne']
  split
  · exact fsign_finf neg
  · exact fsign_fsigned neg (by omega)

end

/-! ### The rounding of a rational -/

theorem roundedTo_fzero (neg : Bool) : RoundedTo 0 (fzero neg) where
  nearest := fun r hr y q _ => by
    rw [finiteValue_fzero, Option.some_inj] at hr
    subst hr
    rw [sub_zero, sub_zero, abs_zero]
    exact ⟨abs_nonneg q, fun h => .inl (abs_eq_zero.1 h.symm)⟩
  finite := fun _ => ⟨0, finiteValue_fzero neg⟩
  overflow := fun h => absurd h (by
    rw [abs_zero, not_le, sub_pos]
    exact pow_lt_pow_right₀ one_lt_two (by decide))
  sign := fun h => absurd rfl h

theorem signFactor_mul_neg_iff (neg : Bool) {w : ℚ} (hw : 0 < w) :
    signFactor neg * w < 0 ↔ neg = true := by
  cases neg <;> simp [hw, hw.le]

theorem roundedTo_fround (neg : Bool) (n : Nat) {d : Nat} (e : Int) (hd : 0 < d) :
    RoundedTo (signFactor neg * (n / d * 2 ^ e)) (fround neg n d e) := by
  rcases Nat.eq_zero_or_pos n with rfl | hn
  · rw [fround_zero, Nat.cast_zero, zero_div, zero_mul, mul_zero]
    exact roundedTo_fzero neg
  have hw : (0 : ℚ) < n / d * 2 ^ e := by positivity
  have habs : |signFactor neg * ((n : ℚ) / d * 2 ^ e)| = n / d * 2 ^ e := by
    rw [abs_mul, abs_signFactor, one_mul, abs_of_pos hw]
  have hneg : decide (signFactor neg * ((n : ℚ) / d * 2 ^ e) < 0) = neg := by
    simp [signFactor_mul_neg_iff neg hw]
  exact
    { nearest := fun r hr y q hq => fround_nearest hn hd neg hr hq
      finite := fun h => by
        rw [habs, ← roundedBits_lt_iff hn hd] at h
        exact ⟨_, finiteValue_fround hn hd neg h⟩
      overflow := fun h => by
        rw [habs, ← not_lt, ← roundedBits_lt_iff hn hd, not_lt] at h
        rw [hneg, fround_of_pos hn.ne', if_pos h]
      sign := fun _ => by rw [hneg, fround_sign hn] }

/-- A number that some encoding has is rounded to itself. -/
theorem RoundedTo.exact {v : ℚ} {x y : F64} (h : RoundedTo v x) (hy : finiteValue y = some v)
    (hv : |v| < 2 ^ 1024 - 2 ^ 970) : finiteValue x = some v := by
  obtain ⟨r, hr⟩ := h.finite hv
  have hle := (h.nearest r hr y v hy).1
  rw [sub_self, abs_zero, abs_nonpos_iff, sub_eq_zero] at hle
  rwa [← hle]

/-- Numbers of at most 53 bits are far below the overflow. -/
theorem pow_le_overflow : (2 : ℚ) ^ 53 ≤ 2 ^ 1024 - 2 ^ 970 := by
  have hle : (2 : ℚ) ^ 53 ≤ 2 ^ 970 := pow_le_pow_right₀ one_le_two (by decide)
  rw [show 1024 = 54 + 970 by rfl, pow_add]
  have hpos : (0 : ℚ) < 2 ^ 970 := by positivity
  generalize (2 : ℚ) ^ 970 = p at *
  linarith

/-- A significand of at most 53 bits is rounded to itself. -/
theorem finiteValue_fround_exact (neg : Bool) {m : Nat} {e : Int} (hm : m < 9007199254740992)
    (he : -1074 ≤ e) (hsmall : (m : ℚ) * 2 ^ e < 2 ^ 1024 - 2 ^ 970) :
    finiteValue (fround neg m 1 e) = some (signFactor neg * (m * 2 ^ e)) := by
  rcases Nat.eq_zero_or_pos m with rfl | hpos
  · rw [fround_zero, finiteValue_fzero, Nat.cast_zero, zero_mul, mul_zero]
  have hfin : roundedBits m 1 e < 0x7FF0000000000000 := by
    rw [roundedBits_lt_iff hpos one_pos, Nat.cast_one, div_one]
    exact hsmall
  have hunit : roundingUnit m 1 e ≤ e := by
    have hlo := (floorLog2_bounds m 1 hpos one_pos).1
    have hlt : (2 : ℚ) ^ floorLog2 m 1 < 2 ^ (53 : ℤ) := by
      refine lt_of_le_of_lt hlo ?_
      rw [Nat.cast_one, div_one]
      exact significand_lt_pow hm
    have := (zpow_lt_zpow_iff_right₀ one_lt_two).1 hlt
    unfold roundingUnit
    omega
  obtain ⟨k, hk⟩ := Int.eq_ofNat_of_zero_le (sub_nonneg.2 hunit)
  have hexact : exactUnits m 1 e = ((m * 2 ^ k : Nat) : ℚ) := by
    rw [exactUnits, hk, zpow_natCast]
    push_cast
    ring
  have hround : roundedTo m 1 e = m * 2 ^ k :=
    le_antisymm (roundedTo_le one_pos hexact.le) (le_roundedTo one_pos hexact.ge)
  rw [finiteValue_fround hpos one_pos neg hfin, hround, ← hexact, exactUnits_mul, Nat.cast_one,
    div_one]

end Sys2Proof.Machine
end

section
/-! SUPPORT. The operations on finite values are the exact ones, rounded once (00_scope.md R12), and
comparison is that of the values. -/

namespace Sys2Proof.Machine

/-! ### Negation -/

theorem fexp_eq_extract (x : F64) : fexp x = (x.extractLsb' 52 11).toNat := by
  rw [fexp, BitVec.extractLsb'_toNat, Nat.shiftRight_eq_div_pow]

theorem ffrac_eq_extract (x : F64) : ffrac x = (x.extractLsb' 0 52).toNat := by
  rw [ffrac, BitVec.extractLsb'_toNat, Nat.shiftRight_zero]

@[simp] theorem fexp_fneg (x : F64) : fexp (fneg x) = fexp x := by
  rw [fexp_eq_extract, fexp_eq_extract, fneg, BitVec.extractLsb'_xor,
    show BitVec.extractLsb' 52 11 (0x8000000000000000 : F64) = 0#11 by decide, BitVec.xor_zero]

@[simp] theorem ffrac_fneg (x : F64) : ffrac (fneg x) = ffrac x := by
  rw [ffrac_eq_extract, ffrac_eq_extract, fneg, BitVec.extractLsb'_xor,
    show BitVec.extractLsb' 0 52 (0x8000000000000000 : F64) = 0#52 by decide, BitVec.xor_zero]

@[simp] theorem fsign_fneg (x : F64) : fsign (fneg x) = !fsign x := by
  rw [fsign, fneg, BitVec.msb_xor, show (0x8000000000000000 : F64).msb = true by decide,
    Bool.xor_true, fsign]

theorem funpack_fneg {x : F64} {neg : Bool} {m : Nat} {e : Int} (h : funpack x = .fin neg m e) :
    funpack (fneg x) = .fin (!neg) m e := by
  unfold funpack at h ⊢
  rw [fexp_fneg, ffrac_fneg, fsign_fneg]
  split_ifs at h ⊢ with h1 h2 h3 <;> cases h <;> rfl

theorem finiteValue_fneg {x : F64} {v : ℚ} (h : finiteValue x = some v) :
    finiteValue (fneg x) = some (-v) := by
  obtain ⟨m, e, hx, hm, he, rfl⟩ := finiteValue_eq_some_iff.1 h
  refine finiteValue_eq_some_iff.2 ⟨m, e, by rw [funpack_fneg hx, fsign_fneg], hm, he, ?_⟩
  rw [fsign_fneg]
  cases fsign x <;> simp

/-! ### Sum, difference, product, quotient -/

section
variable {x y : F64} {a b : ℚ} {m n : Nat} {e f : Int} {s t : Bool}

theorem fadd_of_fin (hx : funpack x = .fin s m e) (hy : funpack y = .fin t n f) :
    fadd x y
      = if alignTo (min e f) s m e + alignTo (min e f) t n f = 0 then fzero (s && t)
        else fround (decide (alignTo (min e f) s m e + alignTo (min e f) t n f < 0))
          (alignTo (min e f) s m e + alignTo (min e f) t n f).natAbs 1 (min e f) := by
  rw [fadd, hx, hy]

theorem fmul_of_fin (hx : funpack x = .fin s m e) (hy : funpack y = .fin t n f) :
    fmul x y = fround (s != t) (m * n) 1 (e + f) := by
  rw [fmul, hx, hy]

theorem fdiv_of_fin (hx : funpack x = .fin s m e) (hy : funpack y = .fin t n f) (hn : n ≠ 0) :
    fdiv x y = fround (s != t) m n (e - f) := by
  rw [fdiv, hx, hy]
  exact if_neg hn

/-- The exact sum as a multiple of the smaller of the two units. -/
theorem alignTo_add_value (s t : Bool) (m n : Nat) (e f : Int) :
    ((alignTo (min e f) s m e + alignTo (min e f) t n f : Int) : ℚ) * 2 ^ min e f
      = signFactor s * scaled m e + signFactor t * scaled n f := by
  rw [Int.cast_add, add_mul, alignTo_value _ _ _ _ (min_le_left e f),
    alignTo_value _ _ _ _ (min_le_right e f), signFactor_mul_scaled, signFactor_mul_scaled]

theorem int_eq_signFactor_mul (z : Int) :
    (z : ℚ) = signFactor (decide (z < 0)) * (z.natAbs / (1 : Nat)) := by
  rw [Nat.cast_one, div_one, Nat.cast_natAbs, Int.cast_abs]
  rcases lt_or_ge z 0 with h | h
  · have : (z : ℚ) < 0 := by exact_mod_cast h
    simp [h, abs_of_neg this]
  · have : (0 : ℚ) ≤ z := by exact_mod_cast h
    simp [h.not_gt, abs_of_nonneg this]

theorem roundedTo_fadd (hx : finiteValue x = some a) (hy : finiteValue y = some b) :
    RoundedTo (a + b) (fadd x y)
      ∧ (a + b = 0 → fadd x y = fzero (fsign x && fsign y)) := by
  obtain ⟨m, e, hx', -, -, rfl⟩ := finiteValue_eq_some_iff.1 hx
  obtain ⟨n, f, hy', -, -, rfl⟩ := finiteValue_eq_some_iff.1 hy
  rw [← alignTo_add_value, fadd_of_fin hx' hy']
  generalize alignTo (min e f) (fsign x) m e + alignTo (min e f) (fsign y) n f = z
  split_ifs with hz
  · subst hz
    rw [Int.cast_zero, zero_mul]
    exact ⟨roundedTo_fzero _, fun _ => rfl⟩
  · refine ⟨?_, fun h => absurd h (mul_ne_zero (by exact_mod_cast hz) (by positivity))⟩
    rw [int_eq_signFactor_mul z, mul_assoc]
    exact roundedTo_fround _ _ _ one_pos

theorem roundedTo_fsub (hx : finiteValue x = some a) (hy : finiteValue y = some b) :
    RoundedTo (a - b) (fsub x y) := by
  rw [sub_eq_add_neg]
  exact (roundedTo_fadd hx (finiteValue_fneg hy)).1

theorem signFactor_bne (s t : Bool) : signFactor (s != t) = signFactor s * signFactor t := by
  cases s <;> cases t <;> simp

theorem scaled_eq_zero_iff {m : Nat} {e : Int} : scaled m e = 0 ↔ m = 0 := by
  rw [scaled, mul_eq_zero, Nat.cast_eq_zero]
  exact or_iff_left (by positivity)

theorem signFactor_mul_scaled_eq_zero_iff {s : Bool} {m : Nat} {e : Int} :
    signFactor s * scaled m e = 0 ↔ m = 0 := by
  rw [mul_eq_zero, scaled_eq_zero_iff]
  exact or_iff_right (by cases s <;> simp)

theorem roundedTo_fmul (hx : finiteValue x = some a) (hy : finiteValue y = some b) :
    RoundedTo (a * b) (fmul x y)
      ∧ (a * b = 0 → fmul x y = fzero (fsign x != fsign y)) := by
  obtain ⟨m, e, hx', -, -, rfl⟩ := finiteValue_eq_some_iff.1 hx
  obtain ⟨n, f, hy', -, -, rfl⟩ := finiteValue_eq_some_iff.1 hy
  rw [fmul_of_fin hx' hy']
  constructor
  · have hvalue : signFactor (fsign x) * scaled m e * (signFactor (fsign y) * scaled n f)
        = signFactor (fsign x != fsign y) * (((m * n : Nat) : ℚ) / (1 : Nat) * 2 ^ (e + f)) := by
      rw [signFactor_bne, scaled, scaled, zpow_add₀ two_ne_zero]
      push_cast
      ring
    rw [hvalue]
    exact roundedTo_fround _ _ _ one_pos
  · intro h
    rw [mul_eq_zero, signFactor_mul_scaled_eq_zero_iff, signFactor_mul_scaled_eq_zero_iff,
      ← Nat.mul_eq_zero] at h
    rw [h, fround_zero]

theorem roundedTo_fdiv (hx : finiteValue x = some a) (hy : finiteValue y = some b) (hb : b ≠ 0) :
    RoundedTo (a / b) (fdiv x y)
      ∧ (a = 0 → fdiv x y = fzero (fsign x != fsign y)) := by
  obtain ⟨m, e, hx', -, -, rfl⟩ := finiteValue_eq_some_iff.1 hx
  obtain ⟨n, f, hy', -, -, rfl⟩ := finiteValue_eq_some_iff.1 hy
  have hn : n ≠ 0 := fun h => hb (signFactor_mul_scaled_eq_zero_iff.2 h)
  rw [fdiv_of_fin hx' hy' hn]
  constructor
  · have hvalue : signFactor (fsign x) * scaled m e / (signFactor (fsign y) * scaled n f)
        = signFactor (fsign x != fsign y) * ((m : ℚ) / n * 2 ^ (e - f)) := by
      have hsign : (signFactor (fsign y))⁻¹ = signFactor (fsign y) :=
        inv_eq_of_mul_eq_one_left (signFactor_mul_self _)
      rw [signFactor_bne, scaled, scaled, zpow_sub₀ two_ne_zero, div_eq_mul_inv, mul_inv, hsign]
      field_simp
    rw [hvalue]
    exact roundedTo_fround _ _ _ (Nat.pos_of_ne_zero hn)
  · intro h
    rw [signFactor_mul_scaled_eq_zero_iff.1 h, fround_zero]

end

/-! ### Integers and halves -/

theorem finiteValue_fofNat {n : Nat} (h : n < 9007199254740992) :
    finiteValue (fofNat n) = some (n : ℚ) := by
  have := finiteValue_fround_exact false (m := n) (e := 0) h (by decide) (by
    rw [zpow_zero, mul_one]
    exact (significand_lt_pow h).trans_le pow_le_overflow)
  simpa [fofNat] using this

theorem finiteValue_fofInt {i : Int} (h : i.natAbs < 9007199254740992) :
    finiteValue (fofInt i) = some (i : ℚ) := by
  have hexact := finiteValue_fround_exact (decide (i < 0)) (m := i.natAbs) (e := 0) h (by decide)
    (by rw [zpow_zero, mul_one]; exact (significand_lt_pow h).trans_le pow_le_overflow)
  have hvalue := int_eq_signFactor_mul i
  rw [Nat.cast_one, div_one] at hvalue
  rw [zpow_zero, mul_one, ← hvalue] at hexact
  rw [fofInt, ← hexact]
  split <;> simp [*]

/-- A quotient of integers by a power of two is exact. -/
theorem finiteValue_fdiv_pow {x y : F64} {i : Int} {k : Nat} (hx : finiteValue x = some (i : ℚ))
    (hy : finiteValue y = some (2 ^ k)) (hi : i.natAbs < 9007199254740992) (hk : k ≤ 1074) :
    finiteValue (fdiv x y) = some ((i : ℚ) / 2 ^ k) := by
  have hpow : (i.natAbs : ℚ) * 2 ^ (-(k : Int)) < 2 ^ 1024 - 2 ^ 970 := by
    have hle : (i.natAbs : ℚ) * 2 ^ (-(k : Int)) ≤ i.natAbs := by
      refine mul_le_of_le_one_right (by positivity) ?_
      exact zpow_le_one_of_nonpos₀ one_le_two (by omega)
    exact (hle.trans_lt (significand_lt_pow hi)).trans_le pow_le_overflow
  have hexact := finiteValue_fround_exact (decide (i < 0)) hi (by omega) hpow
  have hvalue : signFactor (decide (i < 0)) * ((i.natAbs : ℚ) * 2 ^ (-(k : Int)))
      = (i : ℚ) / 2 ^ k := by
    rw [int_eq_signFactor_mul i, zpow_neg, zpow_natCast, Nat.cast_one, div_one]
    ring
  rw [hvalue] at hexact
  refine (roundedTo_fdiv hx hy (by positivity)).1.exact hexact ?_
  rw [← hvalue, abs_mul, abs_signFactor, one_mul, abs_of_nonneg (by positivity)]
  exact hpow

theorem ofUQ16_value (w : Word) : finiteValue (ofUQ16 w) = some ((w.toNat : ℚ) / 65536) := by
  have hw := w.isLt
  have h := finiteValue_fdiv_pow (i := w.toNat) (k := 16) (finiteValue_fofNat (by omega))
    (by rw [finiteValue_fofNat (by decide)]; norm_num : finiteValue (fofNat 65536) = _)
    (by rw [Int.natAbs_natCast]; omega) (by decide)
  rw [ofUQ16, h]
  norm_num

/-! ### Comparison -/

theorem fisNaN_iff (x : F64) : fisNaN x = true ↔ funpack x = .nan := by
  refine ⟨funpack_nan, fun h => ?_⟩
  unfold funpack at h
  unfold fisNaN
  split_ifs at h with h1 h2
  simp [h1, h2]

/-- Where an encoding that is no NaN stands in the order of the numbers. -/
def fposition (x : F64) : WithBot (WithTop ℚ) :=
  match funpack x with
  | .nan => ⊥
  | .inf neg => if neg then ⊥ else ((⊤ : WithTop ℚ) : WithBot (WithTop ℚ))
  | .fin neg m e => (((signFactor neg * scaled m e : ℚ) : WithTop ℚ) : WithBot (WithTop ℚ))

theorem fposition_of_finite {x : F64} {v : ℚ} (h : finiteValue x = some v) :
    fposition x = ((v : WithTop ℚ) : WithBot (WithTop ℚ)) := by
  obtain ⟨m, e, hx, -, -, rfl⟩ := finiteValue_eq_some_iff.1 h
  rw [fposition, hx]

/-- Comparison of two encodings, none of them a NaN, is that of their places. -/
theorem flt_iff_position {x y : F64} (hx : fisNaN x = false) (hy : fisNaN y = false) :
    flt x y = true ↔ fposition x < fposition y := by
  rw [← Bool.not_eq_true, fisNaN_iff] at hx hy
  unfold flt fposition
  cases h1 : funpack x with
  | nan => exact absurd h1 hx
  | inf s =>
    cases h2 : funpack y with
    | nan => exact absurd h2 hy
    | inf t => cases s <;> cases t <;> simp
    | fin t n f =>
      dsimp only
      generalize signFactor t * scaled n f = q
      cases s <;> simp
  | fin s m e =>
    cases h2 : funpack y with
    | nan => exact absurd h2 hy
    | inf t =>
      dsimp only
      generalize signFactor s * scaled m e = q
      have hq : ((q : WithTop ℚ) : WithBot (WithTop ℚ)) < (⊤ : WithTop ℚ) :=
        WithBot.coe_lt_coe.2 (WithTop.coe_lt_top q)
      cases t with
      | false => simpa using hq
      | true => simp
    | fin t n f =>
      have hpos : (0 : ℚ) < 2 ^ min e f := by positivity
      simp only [decide_eq_true_eq, WithBot.coe_lt_coe, WithTop.coe_lt_coe]
      rw [signFactor_mul_scaled, signFactor_mul_scaled, ← alignTo_value _ _ s m (min_le_left e f),
        ← alignTo_value _ _ t n (min_le_right e f), mul_lt_mul_iff_left₀ hpos, Int.cast_lt]

theorem flt_of_nan {x y : F64} (h : fisNaN x = true ∨ fisNaN y = true) : flt x y = false := by
  rcases h with h | h <;> rw [flt, funpack_nan h]
  cases funpack x <;> rfl

theorem not_nan_of_flt {x y : F64} (h : flt x y = true) : fisNaN x = false ∧ fisNaN y = false := by
  constructor
  · by_contra hx
    rw [flt_of_nan (.inl (by simpa using hx))] at h
    cases h
  · by_contra hy
    rw [flt_of_nan (.inr (by simpa using hy))] at h
    cases h

theorem flt_trans {x y z : F64} (hxy : flt x y = true) (hyz : flt y z = true) :
    flt x z = true := by
  obtain ⟨hx, hy⟩ := not_nan_of_flt hxy
  obtain ⟨-, hz⟩ := not_nan_of_flt hyz
  rw [flt_iff_position hx hy] at hxy
  rw [flt_iff_position hy hz] at hyz
  exact (flt_iff_position hx hz).2 (hxy.trans hyz)

/-- What is not greater than `y` is less than what is greater, unless it is a NaN. -/
theorem flt_of_not_flt {x y z : F64} (hyx : flt y x = false) (hyz : flt y z = true) :
    flt x z = true ∨ fisNaN x = true := by
  cases hx : fisNaN x with
  | true => exact .inr rfl
  | false =>
    obtain ⟨hy, hz⟩ := not_nan_of_flt hyz
    rw [flt_iff_position hy hz] at hyz
    rw [← Bool.not_eq_true, flt_iff_position hy hx, not_lt] at hyx
    exact .inl ((flt_iff_position hx hz).2 (hyx.trans_lt hyz))

theorem not_nan_of_finite {x : F64} {v : ℚ} (h : finiteValue x = some v) : fisNaN x = false := by
  rw [← Bool.not_eq_true, fisNaN_iff]
  intro hx
  rw [finiteValue, hx] at h
  cases h

theorem flt_iff_of_finite {x y : F64} {a b : ℚ} (hx : finiteValue x = some a)
    (hy : finiteValue y = some b) : flt x y = true ↔ a < b := by
  rw [flt_iff_position (not_nan_of_finite hx) (not_nan_of_finite hy), fposition_of_finite hx,
    fposition_of_finite hy, WithBot.coe_lt_coe, WithTop.coe_lt_coe]

theorem finiteValue_of_fisZero {x : F64} (h : fisZero x = true) : finiteValue x = some 0 := by
  unfold fisZero at h
  rw [Bool.and_eq_true, decide_eq_true_eq, decide_eq_true_eq] at h
  obtain ⟨hexp, hfrac⟩ := h
  have hx : funpack x = .fin (fsign x) 0 (-1074) := by
    simp [funpack, hexp, hfrac]
  rw [finiteValue_of_fin hx, ← signFactor_mul_scaled, scaled]
  simp

/-! ### The first phase of greatest energy (43_demodulator.md R324) -/

/-- One comparison of the search for the first greatest value. -/
def betterOf (f : Nat → F64) (best p : Nat) : Nat := if flt (f best) (f p) then p else best

/-- `best` is the first greatest of the values below `n`, the value at 0 counted first. -/
structure FirstGreatest (f : Nat → F64) (n best : Nat) : Prop where
  lt : best < n ∨ best = 0
  greatest : ∀ p, p < n → flt (f best) (f p) = false
  first : ∀ p, p < best → flt (f p) (f best) = true ∨ fisNaN (f p) = true

theorem FirstGreatest.step {f : Nat → F64} {n best : Nat} (h : FirstGreatest f n best) :
    FirstGreatest f (n + 1) (betterOf f best n) := by
  unfold betterOf
  split
  · rename_i hless
    refine ⟨.inl (Nat.lt_succ_self n), fun p hp => ?_, fun p hp => ?_⟩
    · rcases Nat.lt_succ_iff_lt_or_eq.1 hp with hlt | rfl
      · by_contra hgt
        have := flt_trans hless (by simpa using hgt)
        rw [h.greatest p hlt] at this
        cases this
      · by_contra hgt
        obtain ⟨-, hnan⟩ := not_nan_of_flt hless
        exact lt_irrefl _ ((flt_iff_position hnan hnan).1 (by simpa using hgt))
    · exact flt_of_not_flt (h.greatest p hp) hless
  · rename_i hless
    refine ⟨h.lt.imp Nat.lt_succ_of_lt id, fun p hp => ?_, h.first⟩
    rcases Nat.lt_succ_iff_lt_or_eq.1 hp with hlt | rfl
    · exact h.greatest p hlt
    · simpa using hless

theorem firstGreatest_bestPhase (z : List F64) (sps : Nat) :
    FirstGreatest (phaseEnergy z sps) sps (bestPhase z sps) := by
  have hfold : ∀ n, FirstGreatest (phaseEnergy z sps) n
      ((List.range n).foldl (betterOf (phaseEnergy z sps)) 0) := by
    intro n
    induction n with
    | zero => exact ⟨.inr rfl, fun p hp => absurd hp (Nat.not_lt_zero p),
        fun p hp => absurd hp (Nat.not_lt_zero p)⟩
    | succ n ih =>
      rw [List.range_succ, List.foldl_concat]
      exact ih.step
  exact hfold sps

theorem bestPhase_lt (z : List F64) {sps : Nat} (h : 0 < sps) : bestPhase z sps < sps :=
  (firstGreatest_bestPhase z sps).lt.elim id fun h0 => by omega

end Sys2Proof.Machine
end

section
/-! The statements of numbers (00_scope.md R12, R13; 30_encoding.md R148; 43_demodulator.md R322 to
R327). -/

namespace Sys2Proof.Proofs

open Sys2Proof.Machine

/-- Settles O39: `roundHalfEven_near` by the three cases of the remainder; the rates by evaluation. -/
theorem roundHalfEvenIsNearestTiesToEven : Obligations.RoundHalfEvenIsNearestTiesToEven := by
  unfold Obligations.RoundHalfEvenIsNearestTiesToEven
  exact ⟨fun a _ hb => roundHalfEven_near a hb, by decide, by decide, by decide, by decide⟩

/-- Settles O40: `fround` gives the multiple of the last place that is nearest
(`roundedTo_fround`), and each operation rounds its exact result. -/
theorem roundingIsToNearest : Obligations.RoundingIsToNearest := by
  unfold Obligations.RoundingIsToNearest
  refine ⟨fun neg n d e hd => ?_, fun x y a b hx hy => ?_⟩
  · rw [mul_assoc]
    exact roundedTo_fround neg n e hd
  · obtain ⟨hsum, hsumZero⟩ := roundedTo_fadd hx hy
    obtain ⟨hprod, hprodZero⟩ := roundedTo_fmul hx hy
    exact ⟨hsum, roundedTo_fsub hx hy, hprod, fun hb => (roundedTo_fdiv hx hy hb).1, hsumZero,
      hprodZero, fun ha hb => (roundedTo_fdiv hx hy hb).2 ha⟩

/-- Settles O41: integers of 32 bits are exact, and so is their quotient by a power of two. -/
theorem configurationOperandsAreExact : Obligations.ConfigurationOperandsAreExact := by
  unfold Obligations.ConfigurationOperandsAreExact
  intro c
  have hrate := c.sampleRate.isLt
  have hlo := c.txFoff.le_toInt
  have hhi := c.txFoff.toInt_lt
  exact ⟨ofUQ16_value c.modIndex, ofUQ16_value c.bt, finiteValue_fofNat (by omega),
    finiteValue_fofInt (by omega)⟩

/-- Settles O42: comparison is that of the values (`flt_iff_of_finite`), and +0 is less than no
zero. -/
theorem comparisonIsOfValues : Obligations.ComparisonIsOfValues := by
  unfold Obligations.ComparisonIsOfValues
  refine ⟨fun x y a b => flt_iff_of_finite, fun x y => flt_of_nan, fun x hx => ?_⟩
  rcases hx with hnan | hzero
  · exact flt_of_nan (.inr hnan)
  · have hf0 : finiteValue f0 = some 0 := finiteValue_of_fisZero (by decide)
    rw [decideBit, ← Bool.not_eq_true,
      flt_iff_of_finite hf0 (finiteValue_of_fisZero hzero)]
    exact lt_irrefl 0

/-- Settles O43: the search keeps the first greatest energy met so far (`FirstGreatest.step`). -/
theorem timingPicksTheFirstPhaseOfGreatestEnergy :
    Obligations.TimingPicksTheFirstPhaseOfGreatestEnergy := by
  unfold Obligations.TimingPicksTheFirstPhaseOfGreatestEnergy
  intro z sps hsps
  have h := firstGreatest_bestPhase z sps
  exact ⟨bestPhase_lt z hsps, h.greatest, h.first⟩

/-- Settles O44: the lengths along the front end, and that the symbols fit `RXBIT`
(`CfgRegs.symbolCount_le`). -/
theorem decidedBitsFitTheBuffer : Obligations.DecidedBitsFitTheBuffer := by
  unfold Obligations.DecidedBitsFitTheBuffer
  intro c x hcheck hx
  obtain ⟨-, hsps, -⟩ := demodulateCheck_eq_ok_iff.1 hcheck
  have hcount := frontEnd_bits_length_eq_symbolCount hsps hx
  refine ⟨frontEnd_z_length hsps x, frontEnd_bits_length c x, hcount,
    hcount.trans_le (CfgRegs.symbolCount_le hcheck), ?_⟩
  rw [frontEnd_pstar]
  exact bestPhase_lt _ hsps

end Sys2Proof.Proofs
end

section
/-! SUPPORT. The period of the whitening LFSR (40_framing.md R201, R202, R204): its step is linear and
satisfies `x^7 = x^3 + 1`, whence `x^127 = 1`. -/

namespace Sys2Proof.Machine

/-! ### One step, bit by bit -/

theorem lfsrStep_getLsbD_zero (s : BitVec 7) :
    (lfsrStep s).getLsbD 0 = (s.getLsbD 6 ^^ s.getLsbD 3) := by
  simp [lfsrStep]

theorem lfsrStep_getLsbD_succ (s : BitVec 7) {i : Nat} (hi : i < 6) :
    (lfsrStep s).getLsbD (i + 1) = s.getLsbD i := by
  have hlt : i + 1 < 7 := by omega
  rw [BitVec.getLsbD_eq_getElem (show i < 7 by omega)]
  simp [lfsrStep, hlt]

theorem lfsrStep_xor (s t : BitVec 7) : lfsrStep (s ^^^ t) = lfsrStep s ^^^ lfsrStep t := by
  refine BitVec.eq_of_getLsbD_eq fun i hi => ?_
  rw [BitVec.getLsbD_xor]
  cases i with
  | zero =>
    simp only [lfsrStep_getLsbD_zero, BitVec.getLsbD_xor, Bool.xor_assoc, Bool.xor_left_comm]
  | succ i =>
    simp only [lfsrStep_getLsbD_succ _ (Nat.lt_of_succ_lt_succ hi), BitVec.getLsbD_xor]

theorem lfsrStep_iterate_xor (n : Nat) (s t : BitVec 7) :
    lfsrStep^[n] (s ^^^ t) = lfsrStep^[n] s ^^^ lfsrStep^[n] t := by
  induction n with
  | zero => rfl
  | succ n ih => simp only [Function.iterate_succ_apply', ih, lfsrStep_xor]

/-- Each step shifts the bits up by one place. -/
theorem lfsrStep_iterate_shift (s : BitVec 7) (n k : Nat) {i : Nat} (hi : i + k < 7) :
    (lfsrStep^[n + k] s).getLsbD (i + k) = (lfsrStep^[n] s).getLsbD i := by
  induction k with
  | zero => rfl
  | succ k ih =>
    rw [← Nat.add_assoc, ← Nat.add_assoc, Function.iterate_succ_apply',
      lfsrStep_getLsbD_succ _ (by omega), ih (by omega)]

/-! ### The period -/

/-- The recurrence of the taps, for the whole state: `x^7 = 1 + x^3`. -/
theorem lfsrStep_iterate_seven (s : BitVec 7) : lfsrStep^[7] s = s ^^^ lfsrStep^[3] s := by
  refine BitVec.eq_of_getLsbD_eq fun i hi => ?_
  have hlow : (lfsrStep^[7] s).getLsbD i = (lfsrStep^[6 - i + 1] s).getLsbD 0 := by
    have := lfsrStep_iterate_shift s (7 - i) i (i := 0) (by omega)
    rwa [Nat.zero_add, Nat.sub_add_cancel (by omega), show 7 - i = 6 - i + 1 by omega] at this
  have hsix : (lfsrStep^[6 - i] s).getLsbD 6 = s.getLsbD i := by
    have := lfsrStep_iterate_shift s 0 (6 - i) (i := i) (by omega)
    rwa [Nat.zero_add, Nat.add_sub_cancel' (by omega)] at this
  have hthree : (lfsrStep^[6 - i] s).getLsbD 3 = (lfsrStep^[3] s).getLsbD i := by
    rcases le_or_gt 3 i with hle | hgt
    · have := lfsrStep_iterate_shift s (6 - i) (i - 3) (i := 3) (by omega)
      rwa [show 6 - i + (i - 3) = 3 by omega, Nat.add_sub_cancel' hle, eq_comm] at this
    · have := lfsrStep_iterate_shift s 3 (3 - i) (i := i) (by omega)
      rwa [show 3 + (3 - i) = 6 - i by omega, Nat.add_sub_cancel' hgt.le] at this
  rw [hlow, Function.iterate_succ_apply', lfsrStep_getLsbD_zero, hsix, hthree, BitVec.getLsbD_xor]

/-- Squaring keeps a relation `x^m = 1 + x^k`, the bits being added without carry. -/
theorem lfsrStep_iterate_double {m k : Nat}
    (h : ∀ s, lfsrStep^[m] s = s ^^^ lfsrStep^[k] s) (s : BitVec 7) :
    lfsrStep^[m + m] s = s ^^^ lfsrStep^[k + k] s := by
  rw [Function.iterate_add_apply, h s, lfsrStep_iterate_xor, h s, h, ← Function.iterate_add_apply,
    ← BitVec.xor_assoc, BitVec.xor_assoc s, BitVec.xor_self, BitVec.xor_zero]

theorem lfsrStep_iterate_period (s : BitVec 7) : lfsrStep^[127] s = s := by
  have h7 := lfsrStep_iterate_seven
  have h28 := lfsrStep_iterate_double (lfsrStep_iterate_double h7)
  have h56 := lfsrStep_iterate_double h28
  have h112 := lfsrStep_iterate_double h56
  have h31 : lfsrStep^[31] s = lfsrStep^[3] s ^^^ lfsrStep^[15] s := by
    rw [show 31 = 7 + 7 + (7 + 7) + 3 by rfl, Function.iterate_add_apply, h28,
      ← Function.iterate_add_apply]
  have h63 : lfsrStep^[63] s = s ^^^ lfsrStep^[15] s := by
    rw [show 63 = 7 + 7 + (7 + 7) + (7 + 7 + (7 + 7)) + 7 by rfl, Function.iterate_add_apply, h56,
      ← Function.iterate_add_apply, show 3 + 3 + (3 + 3) + (3 + 3 + (3 + 3)) + 7 = 31 by rfl, h31,
      h7, ← BitVec.xor_assoc, BitVec.xor_assoc s, BitVec.xor_self, BitVec.xor_zero]
  rw [show 127 = 7 + 7 + (7 + 7) + (7 + 7 + (7 + 7)) + (7 + 7 + (7 + 7) + (7 + 7 + (7 + 7))) + 15
      by rfl, Function.iterate_add_apply, h112, ← Function.iterate_add_apply,
    show 3 + 3 + (3 + 3) + (3 + 3 + (3 + 3)) + (3 + 3 + (3 + 3) + (3 + 3 + (3 + 3))) + 15 = 63
      by rfl, h63, BitVec.xor_comm s, ← BitVec.xor_assoc, BitVec.xor_self, BitVec.zero_xor]

theorem lfsrStep_ne_zero {s : BitVec 7} (h : s ≠ 0) : lfsrStep s ≠ 0 := by
  revert s
  decide

theorem lfsrStep_ne_self {s : BitVec 7} (h : s ≠ 0) : lfsrStep s ≠ s := by
  revert s
  decide

theorem lfsrSeed_ne_zero (ch : BitVec 6) : lfsrSeed ch ≠ 0 := by
  revert ch
  decide

theorem lfsrStep_iterate_ne_zero {s : BitVec 7} (h : s ≠ 0) (n : Nat) : lfsrStep^[n] s ≠ 0 := by
  induction n with
  | zero => exact h
  | succ n ih =>
    rw [Function.iterate_succ_apply']
    exact lfsrStep_ne_zero ih

/-- The next seven outputs determine a state: they are the bits of the state six steps later. -/
theorem lfsr_state_ext {s t : BitVec 7}
    (h : ∀ k, (lfsrStep^[k] s).getLsbD 0 = (lfsrStep^[k] t).getLsbD 0) :
    lfsrStep^[6] s = lfsrStep^[6] t := by
  refine BitVec.eq_of_getLsbD_eq fun i hi => ?_
  have hs := lfsrStep_iterate_shift s (6 - i) i (i := 0) (by omega)
  have ht := lfsrStep_iterate_shift t (6 - i) i (i := 0) (by omega)
  rw [Nat.zero_add, Nat.sub_add_cancel (by omega)] at hs ht
  rw [hs, ht, h]

/-- No smaller period: 127 is prime, and no state but 0 is fixed. -/
theorem whiteningBit_no_smaller_period (ch : BitVec 6) {p : Nat} (hpos : 0 < p) (hlt : p < 127) :
    ∃ k, whiteningBit ch (k + p) ≠ whiteningBit ch k := by
  by_contra hno
  have hperiod : ∀ k, whiteningBit ch (k + p) = whiteningBit ch k := fun k => by
    by_contra hk
    exact hno ⟨k, hk⟩
  have hstate : lfsrStep^[6] (lfsrStep^[p] (lfsrSeed ch)) = lfsrStep^[6] (lfsrSeed ch) := by
    refine lfsr_state_ext fun k => ?_
    rw [← Function.iterate_add_apply, ← whiteningBit_eq, ← whiteningBit_eq, hperiod]
  have hp : Function.IsPeriodicPt lfsrStep p (lfsrStep^[6] (lfsrSeed ch)) := by
    rwa [← Function.iterate_add_apply, Nat.add_comm, Function.iterate_add_apply] at hstate
  have hone := hp.gcd (lfsrStep_iterate_period (lfsrStep^[6] (lfsrSeed ch)))
  have hcoprime : p.gcd 127 = 1 :=
    ((Nat.Prime.coprime_iff_not_dvd (by norm_num)).2 (Nat.not_dvd_of_pos_of_lt hpos hlt)).symm
  rw [hcoprime] at hone
  exact lfsrStep_ne_self (lfsrStep_iterate_ne_zero (lfsrSeed_ne_zero ch) 6) hone

theorem whiteningBit_zero (ch : BitVec 6) : whiteningBit ch 0 = ch.getLsbD 0 := by
  rw [whiteningBit_eq, Function.iterate_zero_apply, lfsrSeed, BitVec.getLsbD_append]
  rfl

theorem whiteningBit_recurrence (ch : BitVec 6) (k : Nat) :
    whiteningBit ch (k + 7) = (whiteningBit ch (k + 3) ^^ whiteningBit ch k) := by
  simp only [whiteningBit_eq, Nat.add_comm k, Function.iterate_add_apply _ _ k,
    lfsrStep_iterate_seven, BitVec.getLsbD_xor]
  exact Bool.xor_comm _ _

theorem whiteningBit_period (ch : BitVec 6) (k : Nat) :
    whiteningBit ch (k + 127) = whiteningBit ch k := by
  rw [whiteningBit_eq, whiteningBit_eq, Function.iterate_add_apply, lfsrStep_iterate_period]

end Sys2Proof.Machine
end

section
/-! SUPPORT. The CRC register tells apart inputs that differ in one bit (40_framing.md R212). -/

namespace Sys2Proof.Machine

/-- The polynomial has its lowest bit set, so the lowest bit of the next register shows whether it was
added. -/
theorem crcStep_getLsbD_zero (r : BitVec 24) (b : Bool) :
    (crcStep r b).getLsbD 0 = (r.getLsbD 23 ^^ b) := by
  unfold crcStep
  cases h : r.getLsbD 23 ^^ b <;> simp [crcPoly]

theorem crcStep_injective (b : Bool) : Function.Injective (crcStep · b) := by
  intro r q h
  have hmsb : r.getLsbD 23 = q.getLsbD 23 := by
    have := congrArg (·.getLsbD 0) h
    simpa only [crcStep_getLsbD_zero, Bool.xor_left_inj] using this
  have hshift : r <<< 1 = q <<< 1 := by
    simp only [crcStep, hmsb] at h
    split at h
    · exact (BitVec.xor_left_inj _).1 h
    · exact h
  refine BitVec.eq_of_getLsbD_eq fun i hi => ?_
  rcases eq_or_lt_of_le (Nat.le_of_lt_succ hi) with rfl | hlt
  · exact hmsb
  · have := congrArg (·.getLsbD (i + 1)) hshift
    rw [BitVec.getLsbD_eq_getElem hi, BitVec.getLsbD_eq_getElem hi]
    simpa [Nat.succ_lt_succ hlt] using this

@[simp] theorem crcRegister_cons (init : BitVec 24) (b : Bool) (l : List Bool) :
    crcRegister init (b :: l) = crcRegister (crcStep init b) l := rfl

theorem crcRegister_injective (l : List Bool) : Function.Injective (crcRegister · l) := by
  induction l with
  | nil => exact fun _ _ h => h
  | cons b l ih => exact ih.comp (crcStep_injective b)

theorem crcRegister_set_ne {l : List Bool} {n : Nat} (hn : n < l.length) (init : BitVec 24) :
    crcRegister init (l.set n (!l.getD n false)) ≠ crcRegister init l := by
  induction l generalizing n init with
  | nil => exact absurd hn (Nat.not_lt_zero n)
  | cons b l ih =>
    cases n with
    | zero =>
      intro h
      have hstep := congrArg (·.getLsbD 0) (crcRegister_injective l h)
      simp only [crcStep_getLsbD_zero] at hstep
      simp at hstep
    | succ n => exact ih (Nat.lt_of_succ_lt_succ hn) (crcStep init b)

theorem reverse24_injective : Function.Injective reverse24 := by
  intro v w h
  refine BitVec.eq_of_getLsbD_eq fun i hi => ?_
  have := congrArg (·.getLsbD (23 - i)) h
  simp only [reverse24_getLsbD _ (show 23 - i < 24 by omega)] at this
  rwa [show 23 - (23 - i) = i by omega] at this

theorem flip_getLsbD (v : Byte) {j k : Nat} (hj : j < 8) (hk : k < 8) :
    (v ^^^ (1#8 <<< k)).getLsbD j = if j = k then !v.getLsbD k else v.getLsbD j := by
  have hone : ∀ j k : Fin 8, (1#8 <<< (k : Nat)).getLsbD (j : Nat) = decide (j = k) := by decide
  have := hone ⟨j, hj⟩ ⟨k, hk⟩
  rw [BitVec.getLsbD_xor, this]
  by_cases h : j = k <;> simp [h]

/-- Flipping bit `k` of byte `m` flips bit `8 * m + k` of the stream. -/
theorem bitsOf_flip (l : List Byte) {m k : Nat} (hm : m < l.length) (hk : k < 8) :
    bitsOf (l.set m (l.getD m 0 ^^^ (1#8 <<< k)))
      = (bitsOf l).set (8 * m + k) (!(bitsOf l).getD (8 * m + k) false) := by
  refine list_ext_getD false (by simp) fun i hi => ?_
  rw [bitsOf_length, List.length_set] at hi
  have hdiv : 8 * (i / 8) + i % 8 = i := by omega
  have hmod : i % 8 < 8 := Nat.mod_lt _ (by decide)
  rw [← hdiv, bitsOf_getD _ _ hmod, bitsOf_getD l m hk]
  by_cases hbyte : i / 8 = m
  · have hset : (l.set m (l.getD m 0 ^^^ (1#8 <<< k))).getD (i / 8) 0
        = l.getD m 0 ^^^ (1#8 <<< k) := by
      simp [List.getD_eq_getElem?_getD, hbyte, hm]
    rw [hset, flip_getLsbD _ hmod hk]
    by_cases hbit : i % 8 = k
    · rw [if_pos hbit, hdiv, ← hbyte, ← hbit, hdiv]
      simp [List.getD_eq_getElem?_getD, hi]
    · have hne : 8 * m + k ≠ i := by omega
      rw [if_neg hbit, ← bitsOf_getD l m hmod, ← hbyte, hdiv]
      simp [List.getD_eq_getElem?_getD, hbyte, hne]
  · have hne : 8 * m + k ≠ i := by omega
    have hset : (l.set m (l.getD m 0 ^^^ (1#8 <<< k))).getD (i / 8) 0 = l.getD (i / 8) 0 := by
      simp [List.getD_eq_getElem?_getD, Ne.symm hbyte]
    rw [hset, ← bitsOf_getD l _ hmod, hdiv]
    simp [List.getD_eq_getElem?_getD, hne]

end Sys2Proof.Machine
end

section
/-! SUPPORT. Correlation counts mismatches, and the search finds the leftmost hit (43_demodulator.md
R330, R332). -/

namespace Sys2Proof.Machine

theorem mismatches_cons (a b : Bool) (c p : List Bool) :
    mismatches (a :: c) (b :: p) = (a ^^ b).toNat + mismatches c p := by
  unfold mismatches
  cases h : a ^^ b <;> simp [h, Nat.add_comm]

theorem correlation_cons (a b : Bool) (c p : List Bool) :
    correlation (a :: c) (b :: p) = nrz a * nrz b + correlation c p := rfl

theorem nrz_mul_nrz (a b : Bool) : nrz a * nrz b = 1 - 2 * ((a ^^ b).toNat : Int) := by
  cases a <;> cases b <;> rfl

/-- Every mismatch takes 2 from the correlation of equal sequences. -/
theorem correlation_eq {c p : List Bool} (h : p.length ≤ c.length) :
    correlation c p = p.length - 2 * mismatches c p := by
  induction p generalizing c with
  | nil => simp [correlation, mismatches]
  | cons b p ih =>
    cases c with
    | nil => exact absurd h (by simp)
    | cons a c =>
      rw [correlation_cons, mismatches_cons, nrz_mul_nrz, ih (by simpa using h), List.length_cons]
      push_cast
      ring

theorem isHit_iff {c p : List Bool} (h : p.length ≤ c.length) :
    isHit c p = true ↔ 10 * mismatches c p ≤ p.length := by
  rw [isHit, decide_eq_true_eq, correlation_eq h]
  omega

theorem mismatches_cons_ge (a b : Bool) (c p : List Bool) :
    mismatches c p ≤ mismatches (a :: c) (b :: p) := by
  rw [mismatches_cons]
  exact Nat.le_add_left _ _

/-- Positions that all differ are all counted. -/
theorem le_mismatches {c p : List Bool} {n : Nat} (hc : n ≤ c.length) (hp : n ≤ p.length)
    (h : ∀ j, j < n → c.getD j false ≠ p.getD j false) : n ≤ mismatches c p := by
  induction n generalizing c p with
  | zero => exact Nat.zero_le _
  | succ n ih =>
    match c, p, hc, hp with
    | a :: c, b :: p, hc, hp =>
      have hab : a ≠ b := h 0 (Nat.succ_pos n)
      have hrest := ih (by simpa using hc) (by simpa using hp) fun j hj =>
        h (j + 1) (Nat.succ_lt_succ hj)
      have hone : (a ^^ b).toNat = 1 := by cases a <;> cases b <;> simp_all
      rw [mismatches_cons, hone]
      omega

theorem PhyCfg.syncLen_eq (p : PhyCfg) : p.syncLen = p.preambleLen + 32 := rfl

/-- Neighbouring bits of the pattern differ along the preamble and into the access address. -/
theorem syncPattern_alternates (aa : Word) {p : PhyCfg} {j : Nat} (hj : j < p.preambleLen) :
    (syncPattern aa p).getD (j + 1) false ≠ (syncPattern aa p).getD j false := by
  rw [syncPattern_getD_preamble aa hj]
  rcases Nat.lt_or_ge (j + 1) p.preambleLen with hlt | hge
  · rw [syncPattern_getD_preamble aa hlt, ← Nat.add_assoc]
    have hodd : ∀ n : Nat, decide ((n + 1) % 2 = 1) ≠ decide (n % 2 = 1) := fun n h => by
      rw [decide_eq_decide] at h
      omega
    exact hodd _
  · have heq : j + 1 = p.preambleLen + 0 := by omega
    have hodd : j % 2 = 1 := by
      rcases p.preambleLen_cases with h | h <;> omega
    rw [heq, syncPattern_getD_address aa p (by decide), Nat.add_mod, hodd]
    cases aa.getLsbD 0 <;> decide

/-- Eight or more mismatches are no hit. -/
theorem isHit_eq_false {aa : Word} {p : PhyCfg} {c : List Bool} (hc : p.syncLen ≤ c.length)
    (h : p.preambleLen ≤ mismatches c (syncPattern aa p)) :
    isHit c (syncPattern aa p) = false := by
  rw [← Bool.not_eq_true, isHit_iff (by rwa [syncPattern_length]), syncPattern_length]
  rcases p.preambleLen_cases with h | h <;> omega

/-- Where the pattern stands, the stream holds its bits. -/
theorem getD_of_take_eq {c : List Bool} {aa : Word} {p : PhyCfg} {i j : Nat}
    (h : (c.drop i).take p.syncLen = syncPattern aa p) (hj : j < p.syncLen) :
    c.getD (i + j) false = (syncPattern aa p).getD j false := by
  rw [← h]
  simp [List.getD_eq_getElem?_getD, hj]

theorem isHit_right {aa : Word} {p : PhyCfg} {c : List Bool} {i : Nat}
    (h : (c.drop i).take p.syncLen = syncPattern aa p) (hlen : i + 1 + p.syncLen ≤ c.length) :
    isHit (c.drop (i + 1)) (syncPattern aa p) = false := by
  have hsync := p.syncLen_eq
  have hdrop : p.syncLen ≤ (c.drop (i + 1)).length := by rw [List.length_drop]; omega
  refine isHit_eq_false hdrop (le_mismatches (by omega) (by rw [syncPattern_length]; omega)
    fun j hj => ?_)
  have hbit : (c.drop (i + 1)).getD j false = (syncPattern aa p).getD (j + 1) false := by
    rw [← getD_of_take_eq h (by omega)]
    simp [List.getD_eq_getElem?_getD, Nat.add_assoc, Nat.add_comm 1 j]
  rw [hbit]
  exact syncPattern_alternates aa hj

theorem isHit_left {aa : Word} {p : PhyCfg} {c : List Bool} {i : Nat}
    (h : (c.drop (i + 1)).take p.syncLen = syncPattern aa p) :
    isHit (c.drop i) (syncPattern aa p) = false := by
  have hsync := p.syncLen_eq
  have hlen : p.syncLen ≤ (c.drop (i + 1)).length := by
    have := congrArg List.length h
    rw [List.length_take, syncPattern_length] at this
    omega
  rw [List.length_drop] at hlen
  have hdrop : p.syncLen ≤ (c.drop i).length := by rw [List.length_drop]; omega
  refine isHit_eq_false hdrop ?_
  obtain ⟨a, hcons⟩ : ∃ a, c.drop i = a :: c.drop (i + 1) :=
    ⟨_, List.drop_eq_getElem_cons (by omega)⟩
  obtain ⟨b, rest, hpattern⟩ : ∃ b rest, syncPattern aa p = b :: rest :=
    List.exists_cons_of_length_pos (by rw [syncPattern_length]; omega)
  have hrest : rest.length + 1 = p.preambleLen + 32 := by
    rw [← syncPattern_length aa p, hpattern, List.length_cons]
  rw [hcons, hpattern]
  refine le_trans (le_mismatches (by rw [List.length_drop]; omega) (by omega) fun j hj => ?_)
    (mismatches_cons_ge a b _ rest)
  have hbit : (c.drop (i + 1)).getD j false = (syncPattern aa p).getD j false := by
    rw [← getD_of_take_eq h (by omega)]
    simp [List.getD_eq_getElem?_getD]
  have hnext : rest.getD j false = (syncPattern aa p).getD (j + 1) false := by
    rw [hpattern, List.getD_cons_succ]
  rw [hbit, hnext]
  exact (syncPattern_alternates aa hj).symm

theorem findSync_eq_some_iff {c p : List Bool} {pos : Nat} :
    findSync c p = some pos ↔
      pos + p.length ≤ c.length ∧ isHit (c.drop pos) p = true
        ∧ ∀ i, i < pos → isHit (c.drop i) p = false := by
  rw [findSync, List.find?_range_eq_some, List.mem_range]
  simp only [Bool.not_eq_true']
  have : pos < c.length + 1 - p.length ↔ pos + p.length ≤ c.length := by omega
  rw [this]
  tauto

theorem findSync_eq_none_iff {c p : List Bool} :
    findSync c p = none ↔ ∀ i, i + p.length ≤ c.length → isHit (c.drop i) p = false := by
  rw [findSync, List.find?_eq_none]
  simp only [List.mem_range, Bool.not_eq_true]
  exact forall_congr' fun i => imp_congr_left (by omega)

end Sys2Proof.Machine
end

section
/-! The statements of framing and synchronization that are about sequences (40_framing.md R201 to R204,
R215; 43_demodulator.md R330, R332). -/

namespace Sys2Proof.Proofs

open Sys2Proof.Machine

/-- Settles O31: the recurrence gives the period 127 (`lfsrStep_iterate_period`), which is prime
(`whiteningBit_no_smaller_period`); the two sequences by evaluation. -/
theorem whiteningSequenceHasPeriod127 : Obligations.WhiteningSequenceHasPeriod127 := by
  unfold Obligations.WhiteningSequenceHasPeriod127
  exact ⟨fun ch => ⟨lfsrStep_iterate_ne_zero (lfsrSeed_ne_zero ch), whiteningBit_zero ch,
    whiteningBit_recurrence ch, whiteningBit_period ch,
    fun _ => whiteningBit_no_smaller_period ch⟩, by decide, by decide⟩

/-- Settles O32: the step of the register is injective in the register and in the bit, so a flipped bit
is never made good (`crcRegister_set_ne`). -/
theorem crcDetectsEverySingleBitFlip : Obligations.CrcDetectsEverySingleBitFlip := by
  unfold Obligations.CrcDetectsEverySingleBitFlip
  intro l m k init hm hk h
  rw [crc24, crc24, bitsOf_flip l hm hk] at h
  exact crcRegister_set_ne (by rw [bitsOf_length]; omega) init (reverse24_injective h)

/-- Settles O36: each mismatch takes 2 from the correlation, and the pattern has 40 or 48 bits. -/
theorem hitMeansAtMostFourMismatches : Obligations.HitMeansAtMostFourMismatches := by
  unfold Obligations.HitMeansAtMostFourMismatches
  intro aa p c _ hlen
  have hlen' : (syncPattern aa p).length ≤ c.length := by rwa [syncPattern_length]
  rw [correlation_eq hlen', isHit_iff hlen', syncPattern_length]
  refine ⟨rfl, ?_⟩
  rcases p.preambleLen_cases with h | h <;> rw [h] <;> omega

/-- Settles O37: the search is that of the first hit in the range of full overlaps. -/
theorem syncIsTheLeftmostHit : Obligations.SyncIsTheLeftmostHit := by
  unfold Obligations.SyncIsTheLeftmostHit
  exact fun c p => ⟨fun _ => findSync_eq_some_iff, findSync_eq_none_iff⟩

/-- Settles O38: the preamble alternates, so a shift by one bit mismatches along all of it. -/
theorem positionNextToThePatternIsNoHit : Obligations.PositionNextToThePatternIsNoHit := by
  unfold Obligations.PositionNextToThePatternIsNoHit
  intro aa p c i _ h
  refine ⟨isHit_right h, fun hi => ?_⟩
  obtain ⟨i, rfl⟩ := Nat.exists_eq_succ_of_ne_zero hi.ne'
  exact isHit_left h

end Sys2Proof.Proofs
end

section
/-! SUPPORT. The back end of DEMODULATE (43_demodulator.md R333 to R337, R341): its exits in terms of
the bytes after the pattern. -/

namespace Sys2Proof.Machine

/-! ### The exits, in terms of the dewhitened bytes -/

/-- The first bytes of a list that has a header. -/
theorem exists_header {l : List Byte} (h : 2 ≤ l.length) : ∃ h0 h1 tail, l = h0 :: h1 :: tail := by
  match l, h with
  | h0 :: h1 :: tail, _ => exact ⟨h0, h1, tail, rfl⟩

section
variable {c : CfgRegs} {k : Work} {h0 h1 : Byte} {tail : List Byte}

theorem Work.payloadLen_of_bytes (h : bytesOf k.w = h0 :: h1 :: tail) :
    k.payloadLen = h1.toNat := by
  simp [Work.payloadLen, Work.byte, h]

theorem Work.isTruncated_iff_of_bytes (h : bytesOf k.w = h0 :: h1 :: tail) :
    k.isTruncated = true ↔ tail.length < h1.toNat + 3 := by
  rw [Work.isTruncated, decide_eq_true_eq, Work.payloadLen_of_bytes h, h]
  simp only [List.length_cons]
  omega

theorem exitTruncated_of_bytes (h : bytesOf k.w = h0 :: h1 :: tail) :
    exitTruncated c k
      = { flags :=
            { success := false, crcValid := false, syncFound := true, hdrValid := true,
              exitStage := .parse }
          syncPos := k.pos, aa := receivedAa c.phycfg k.bits k.pos, hdr0 := h0, hdr1 := h1
          pdu := [h0, h1], crc := 0, crcRx := 0 } := by
  simp [exitTruncated, Work.byte, h]

/-- A byte of the tail, counted from the header. -/
theorem Work.byte_of_bytes (h : bytesOf k.w = h0 :: h1 :: tail) (i : Nat) :
    k.byte (i + 2) = tail.getD i 0 := by
  simp [Work.byte, h]

theorem Work.crcCalc_of_bytes (h : bytesOf k.w = h0 :: h1 :: tail) :
    k.crcCalc c = crc24 (h0 :: h1 :: tail.take h1.toNat) c.crcInit := by
  rw [Work.crcCalc, Work.payloadLen_of_bytes h, h, Nat.add_comm, List.take_succ_cons,
    List.take_succ_cons]

theorem Work.crcReceived_of_bytes (h : bytesOf k.w = h0 :: h1 :: tail) :
    k.crcReceived
      = crcOfBytes (tail.getD h1.toNat 0) (tail.getD (h1.toNat + 1) 0)
          (tail.getD (h1.toNat + 2) 0) := by
  rw [Work.crcReceived, Work.payloadLen_of_bytes h, ← Work.byte_of_bytes h,
    ← Work.byte_of_bytes h, ← Work.byte_of_bytes h]
  congr 2 <;> omega

theorem exitFull_pdu_of_bytes (h : bytesOf k.w = h0 :: h1 :: tail) :
    (exitFull c k).pdu = tail.take h1.toNat := by
  simp [exitFull, Work.payloadLen_of_bytes h, h]

theorem exitFull_hdr_of_bytes (h : bytesOf k.w = h0 :: h1 :: tail) :
    (exitFull c k).hdr0 = h0 ∧ (exitFull c k).hdr1 = h1 := by
  simp [exitFull, Work.byte, h]

end

theorem exitShort_flags_toWord (c : CfgRegs) (k : Work) :
    (exitShort c k).flags.toWord = 0x00000904 := by
  show ResFlags.toWord
      { success := false, crcValid := false, syncFound := true, hdrValid := false,
        exitStage := .parse } = _
  decide

theorem exitTruncated_flags_toWord (c : CfgRegs) (k : Work) :
    (exitTruncated c k).flags.toWord = 0x0000090C := by
  show ResFlags.toWord
      { success := false, crcValid := false, syncFound := true, hdrValid := true,
        exitStage := .parse } = _
  decide

theorem exitFull_flags_toWord (c : CfgRegs) (k : Work) :
    (exitFull c k).flags.toWord
      = if (exitFull c k).crc = (exitFull c k).crcRx then 0x00000A0F else 0x00000A0C := by
  show ResFlags.toWord
      { success := decide (k.crcCalc c = k.crcReceived)
        crcValid := decide (k.crcCalc c = k.crcReceived)
        syncFound := true, hdrValid := true, exitStage := .crcCheck }
    = if k.crcCalc c = k.crcReceived then _ else _
  by_cases h : k.crcCalc c = k.crcReceived
  · rw [decide_eq_true h, if_pos h]; decide
  · rw [decide_eq_false h, if_neg h]; decide

/-- The three ways through the back end (43_demodulator.md R333, R337). -/
theorem backEnd_cases (c : CfgRegs) (k : Work) :
    ((dewhitenWork c k).isShort = true
        ∧ backEnd c k = (dewhitenWork c k, exitShort c (dewhitenWork c k)))
      ∨ ((dewhitenWork c k).isShort = false ∧ (dewhitenWork c k).isTruncated = true
        ∧ backEnd c k = (dewhitenWork c k, exitTruncated c (dewhitenWork c k)))
      ∨ ((dewhitenWork c k).isShort = false ∧ (dewhitenWork c k).isTruncated = false
        ∧ backEnd c k = (dewhitenWork c k, exitFull c (dewhitenWork c k))) := by
  unfold backEnd
  cases hshort : (dewhitenWork c k).isShort
  · cases htrunc : (dewhitenWork c k).isTruncated <;> simp [hshort, htrunc]
  · simp [hshort]

theorem dewhitenWork_w (c : CfgRegs) (k : Work) :
    (dewhitenWork c k).w
      = if c.phycfg.whitenEn
        then applyWhitening (k.bits.drop (k.pos + c.phycfg.preambleLen + 32)) c.phycfg.channel
        else k.bits.drop (k.pos + c.phycfg.preambleLen + 32) := rfl

theorem dewhitenWork_w_length (c : CfgRegs) (k : Work) :
    (dewhitenWork c k).w.length = k.bits.length - (k.pos + c.phycfg.preambleLen + 32) := by
  rw [dewhitenWork_w]
  split <;> simp

theorem Work.isShort_eq_false {k : Work} (h : k.isShort = false) :
    ∃ h0 h1 tail, bytesOf k.w = h0 :: h1 :: tail := by
  refine exists_header ?_
  rw [Work.isShort, decide_eq_false_iff_not] at h
  rw [bytesOf_length]
  omega

theorem pipeline_of_none {c : CfgRegs} {x : List Cx}
    (h : findSync (frontEnd c x).bits (syncPattern c.accessAddr c.phycfg) = none) :
    pipeline c x = (frontEnd c x, exitNoSync) := by
  simp only [pipeline, h]

theorem pipeline_of_some {c : CfgRegs} {x : List Cx} {pos : Nat}
    (h : findSync (frontEnd c x).bits (syncPattern c.accessAddr c.phycfg) = some pos) :
    pipeline c x = backEnd c { frontEnd c x with pos := pos } := by
  simp only [pipeline, h]

/-! ### At most one sample (43_demodulator.md R341) -/

/-- A quotient of +0, and a product of +0, by a positive finite value is +0. -/
theorem fdiv_f0 {y : F64} {b : ℚ} (hy : finiteValue y = some b) (hb : b ≠ 0)
    (hsign : fsign y = false) : fdiv f0 y = f0 := by
  have h := (roundedTo_fdiv (finiteValue_of_fisZero (x := f0) (by decide)) hy hb).2 rfl
  rw [h, hsign]
  decide

theorem fmul_f0 {y : F64} {b : ℚ} (hy : finiteValue y = some b) (hsign : fsign y = false) :
    fmul f0 y = f0 := by
  have h := (roundedTo_fmul (finiteValue_of_fisZero (x := f0) (by decide)) hy).2 (zero_mul b)
  rw [h, hsign]
  decide

theorem fsign_fofNat (n : Nat) : fsign (fofNat n) = false := by
  rcases Nat.eq_zero_or_pos n with rfl | h
  · decide
  · exact fround_sign h false

theorem ftwoPi_finite : ∃ b, finiteValue ftwoPi = some b ∧ b ≠ 0 := by
  have h : funpack ftwoPi = .fin false 7074237752028440 (-50) := by decide
  refine ⟨_, finiteValue_of_fin h, ?_⟩
  rw [scaled]
  positivity

theorem carrierEstimate_of_length_le_one (c : CfgRegs) {x : List Cx} (h : x.length ≤ 1) :
    carrierEstimate c x = f0 := by
  have hlag : lagProducts x = [] := by
    rw [← List.length_eq_zero_iff, lagProducts_length]
    omega
  have harg : arg cx0 = f0 := by decide
  have hfs : finiteValue c.fs = some (c.sampleRate.toNat : ℚ) :=
    finiteValue_fofNat (by have := c.sampleRate.isLt; omega)
  obtain ⟨b, hb, hne⟩ := ftwoPi_finite
  rw [carrierEstimate, hlag, List.foldl_nil, harg, fmul_f0 hfs (fsign_fofNat _),
    fdiv_f0 hb hne (by decide)]

theorem frontEnd_fhat (c : CfgRegs) (x : List Cx) :
    (frontEnd c x).fhat = carrierEstimate c x := rfl

theorem conv_nil (h : List F64) : conv [] h = [] := by simp [conv]

theorem frontEnd_z_of_length_le_one (c : CfgRegs) {x : List Cx} (h : x.length ≤ 1) :
    (frontEnd c x).z = [] := by
  have hd : (frontEnd c x).d = [] := by
    rw [← List.length_eq_zero_iff, frontEnd_d_length]
    omega
  rw [frontEnd_z, hd, conv_nil]

theorem frontEnd_bits_of_length_le_one (c : CfgRegs) {x : List Cx} (h : x.length ≤ 1) :
    (frontEnd c x).bits = [] := by
  rw [← List.length_eq_zero_iff, frontEnd_bits_length, frontEnd_z_of_length_le_one c h]
  exact Nat.zero_div _

/-- With no symbols every phase has the energy +0, so the first is chosen. -/
theorem bestPhase_nil (sps : Nat) : bestPhase [] sps = 0 := by
  have henergy : ∀ p, phaseEnergy [] sps p = f0 := fun p => by
    simp [phaseEnergy, phaseSamples, fsum]
  have h := firstGreatest_bestPhase [] sps
  by_contra hne
  have hfirst := h.first 0 (Nat.pos_of_ne_zero hne)
  rw [henergy, henergy] at hfirst
  revert hfirst
  decide

theorem frontEnd_pstar_of_length_le_one (c : CfgRegs) {x : List Cx} (h : x.length ≤ 1) :
    (frontEnd c x).pstar = 0 := by
  rw [frontEnd_pstar, frontEnd_z_of_length_le_one c h, bestPhase_nil]

/-! ### A packet in the stream (40_framing.md R226) -/

/-- Whitening goes bit by bit, so what follows does not matter. -/
theorem take_applyWhitening_append (a b : List Bool) (ch : BitVec 6) :
    (applyWhitening (a ++ b) ch).take a.length = applyWhitening a ch := by
  refine list_ext_getD false (by simp) fun i hi => ?_
  have hi : i < a.length := by simpa using hi
  have htake : ((applyWhitening (a ++ b) ch).take a.length).getD i false
      = (applyWhitening (a ++ b) ch).getD i false := by
    rw [List.getD_eq_getElem?_getD, List.getElem?_take_of_lt hi, List.getD_eq_getElem?_getD]
  rw [htake, applyWhitening_getD (by rw [List.length_append]; omega), applyWhitening_getD hi,
    List.getD_append _ _ _ _ hi]

/-- Dewhitening gives back the tail of the packet, whatever follows it. -/
theorem dewhitened_tail (c : CfgRegs) (pdu : List Byte) (after : List Bool) :
    ∃ rest,
      (if c.phycfg.whitenEn then applyWhitening (packetTail c pdu ++ after) c.phycfg.channel
        else packetTail c pdu ++ after)
      = bitsOf (pdu ++ crcBytes (crc24 pdu c.crcInit)) ++ rest := by
  unfold packetTail
  cases c.phycfg.whitenEn
  · exact ⟨after, rfl⟩
  · simp only [if_true]
    generalize bitsOf (pdu ++ crcBytes (crc24 pdu c.crcInit)) = tail
    have h := take_applyWhitening_append (applyWhitening tail c.phycfg.channel) after
      c.phycfg.channel
    rw [applyWhitening_applyWhitening] at h
    refine ⟨(applyWhitening (applyWhitening tail c.phycfg.channel ++ after) c.phycfg.channel).drop
      (applyWhitening tail c.phycfg.channel).length, ?_⟩
    exact (List.take_append_drop _ _).symm.trans (congrArg (· ++ _) h)

theorem bytesOf_bitsOf_append (l : List Byte) (c : List Bool) :
    bytesOf (bitsOf l ++ c) = l ++ bytesOf c := by
  induction l with
  | nil => rfl
  | cons v l ih =>
    have hv : BitVec.ofNat 8 (natOfBits (bitsOfByte v)) = v := by
      have := bytesOf_bitsOf [v]
      rw [bitsOf_cons, bytesOf_append (bitsOfByte_length v)] at this
      exact (List.cons.inj this).1
    rw [bitsOf_cons, List.append_assoc, bytesOf_append (bitsOfByte_length v), ih, hv,
      List.cons_append]

/-- The access address as received from a packet. -/
theorem receivedAa_packetStream (c : CfgRegs) (before after : List Bool) (pdu : List Byte) :
    receivedAa c.phycfg (before ++ packetStream c pdu ++ after) before.length = c.accessAddr := by
  refine BitVec.eq_of_getLsbD_eq fun i hi => ?_
  rw [receivedAa_getLsbD _ _ _ _ hi, List.append_assoc, Nat.add_assoc,
    List.getD_append_right _ _ _ _ (Nat.le_add_right _ _), Nat.add_sub_cancel_left, packetStream_eq,
    List.append_assoc, List.getD_append _ _ _ _ (by rw [syncPattern_length]; omega),
    syncPattern_getD_address _ _ hi]

theorem drop_packetStream (c : CfgRegs) (before after : List Bool) (pdu : List Byte) :
    (before ++ packetStream c pdu ++ after).drop (before.length + c.phycfg.preambleLen + 32)
      = packetTail c pdu ++ after := by
  have hlen : before.length + c.phycfg.preambleLen + 32
      = (before ++ syncPattern c.accessAddr c.phycfg).length := by
    rw [List.length_append, syncPattern_length, Nat.add_assoc]
  rw [hlen, packetStream_eq, ← List.append_assoc, List.append_assoc, List.drop_left]

/-- A PDU is a header and as many bytes as it announces. -/
theorem IsPdu.exists_payload {pdu : List Byte} (h : IsPdu pdu) :
    ∃ h0 h1 payload, pdu = h0 :: h1 :: payload ∧ payload.length = h1.toNat := by
  unfold IsPdu at h
  obtain ⟨h0, h1, payload, rfl⟩ := exists_header (l := pdu) (by omega)
  refine ⟨h0, h1, payload, rfl, ?_⟩
  simp only [List.length_cons, List.getD_cons_succ, List.getD_cons_zero] at h
  omega

/-! ### The waveform (42_modulator.md R282 to R286) -/

theorem upsample_getD {sps k m : Nat} {bits : List Bool} (hk : k < bits.length) (hm : m < sps) :
    (upsample sps bits).getD (k * sps + m) f0
      = if m = 0 then nrzF64 (bits.getD k false) else f0 := by
  induction bits generalizing k with
  | nil => exact absurd hk (Nat.not_lt_zero k)
  | cons b l ih =>
    have hsymbol : (nrzF64 b :: List.replicate (sps - 1) f0).length = sps := by
      rw [List.length_cons, List.length_replicate]
      omega
    rw [upsample_cons]
    cases k with
    | zero =>
      rw [Nat.zero_mul, Nat.zero_add, List.getD_append _ _ _ _ (by rwa [hsymbol])]
      cases m with
      | zero => rfl
      | succ m =>
        rw [List.getD_cons_succ, if_neg (Nat.succ_ne_zero m)]
        simp [List.getD_eq_getElem?_getD, show m < sps - 1 by omega]
    | succ k =>
      rw [Nat.succ_mul, List.getD_append_right _ _ _ _ (by rw [hsymbol]; omega), hsymbol,
        show k * sps + sps + m - sps = k * sps + m by omega, ih (Nat.lt_of_succ_lt_succ hk),
        List.getD_cons_succ]

/-- Entry `n` of the running sums is the sum, in increasing order, of the first `n + 1` values. -/
theorem cumsumFrom_getD (acc : F64) {l : List F64} {n : Nat} (hn : n < l.length) :
    (cumsumFrom acc l).getD n f0 = (l.take (n + 1)).foldl fadd acc := by
  induction l generalizing acc n with
  | nil => exact absurd hn (Nat.not_lt_zero n)
  | cons v l ih =>
    cases n with
    | zero => simp [cumsumFrom]
    | succ n =>
      rw [cumsumFrom, List.getD_cons_succ, ih _ (Nat.lt_of_succ_lt_succ hn), List.take_succ_cons,
        List.foldl_cons]

theorem take_conv {u h : List F64} {n : Nat} (hn : n < (conv u h).length) :
    (conv u h).take (n + 1) = (List.range (n + 1)).map (convAt u h) := by
  refine list_ext_getD f0 (by simp; omega) fun i hi => ?_
  have hi : i < n + 1 := lt_of_lt_of_le hi (List.length_take_le _ _)
  rw [range_map_getD _ _ _ _ hi, ← conv_getD (show i < (conv u h).length by omega)]
  simp [List.getD_eq_getElem?_getD, hi]

theorem CfgRegs.modulated_getD (c : CfgRegs) (bits : List Bool) {n : Nat}
    (hn : n < (c.modulated bits).length) :
    (c.modulated bits).getD n cx0
      = expj (c.phase (fsum ((List.range (n + 1)).map fun m =>
          convAt (upsample c.sps bits) c.pulse m)) n) := by
  have hn' : n < (conv (upsample c.sps bits) c.pulse).length := by
    simpa [CfgRegs.modulated] using hn
  have hsum := cumsumFrom_getD f0 hn'
  rw [take_conv hn'] at hsum
  rw [fsum, ← hsum, CfgRegs.modulated]
  simp [List.getD_eq_getElem?_getD, hn']

end Sys2Proof.Machine
end

section
/-! The statements of the pipeline's outcomes and of the waveform (42_modulator.md section 1;
43_demodulator.md section 4, section 5; 40_framing.md section 4). -/

namespace Sys2Proof.Proofs

open Sys2Proof.Machine

/-- Settles O24: no hit is `exitNoSync`; after a hit `backEnd_cases` gives the other exits, whose
values follow from the bytes after the pattern. -/
theorem demodulatorHasFiveOutcomes : Obligations.DemodulatorHasFiveOutcomes := by
  unfold Obligations.DemodulatorHasFiveOutcomes
  intro c x k e h
  cases hhit : findSync (frontEnd c x).bits (syncPattern c.accessAddr c.phycfg) with
  | none =>
    rw [pipeline_of_none hhit] at h
    cases h
    exact .inl ⟨hhit, by decide, rfl, rfl, rfl, rfl, rfl, rfl, rfl⟩
  | some pos =>
    rw [pipeline_of_some hhit] at h
    refine .inr ⟨pos, (frontEnd c x).bits.drop (pos + c.phycfg.preambleLen + 32), ?_⟩
    rcases backEnd_cases c { frontEnd c x with pos := pos } with
      ⟨hshort, hend⟩ | ⟨hlong, htrunc, hend⟩ | ⟨hlong, hfull, hend⟩
    · rw [hend] at h
      cases h
      refine ⟨hhit, rfl, fun i hi => receivedAa_getLsbD _ _ _ _ hi, rfl, dewhitenWork_w _ _,
        .inl ⟨?_, exitShort_flags_toWord _ _, rfl, rfl, rfl, rfl, rfl⟩⟩
      rw [Work.isShort, decide_eq_true_eq, dewhitenWork_w_length] at hshort
      exact hshort
    · rw [hend] at h
      cases h
      obtain ⟨h0, h1, tail, hbytes⟩ := Work.isShort_eq_false hlong
      refine ⟨hhit, rfl, fun i hi => receivedAa_getLsbD _ _ _ _ hi, rfl, dewhitenWork_w _ _,
        .inr ⟨h0, h1, tail, hbytes, ?_⟩⟩
      have hflags := exitTruncated_flags_toWord c (dewhitenWork c { frontEnd c x with pos := pos })
      rw [exitTruncated_of_bytes hbytes] at hflags ⊢
      exact ⟨rfl, rfl, .inl ⟨(Work.isTruncated_iff_of_bytes hbytes).1 htrunc, hflags, rfl, rfl,
        rfl⟩⟩
    · rw [hend] at h
      cases h
      obtain ⟨h0, h1, tail, hbytes⟩ := Work.isShort_eq_false hlong
      obtain ⟨hhdr0, hhdr1⟩ := exitFull_hdr_of_bytes (c := c) hbytes
      have hlen : h1.toNat + 3 ≤ tail.length := by
        rw [← Bool.not_eq_true, Work.isTruncated_iff_of_bytes hbytes] at hfull
        omega
      exact ⟨hhit, rfl, fun i hi => receivedAa_getLsbD _ _ _ _ hi, rfl, dewhitenWork_w _ _,
        .inr ⟨h0, h1, tail, hbytes, hhdr0, hhdr1, .inr ⟨hlen, exitFull_pdu_of_bytes hbytes,
          Work.crcCalc_of_bytes hbytes, Work.crcReceived_of_bytes hbytes,
          exitFull_flags_toWord _ _⟩⟩⟩

/-- Settles O25: with no lag product there is no symbol, and an empty stream has no full overlap with
the pattern. -/
theorem atMostOneSampleFindsNoSync : Obligations.AtMostOneSampleFindsNoSync := by
  unfold Obligations.AtMostOneSampleFindsNoSync
  intro c x hx
  have hbits := frontEnd_bits_of_length_le_one c hx
  have hnone : findSync (frontEnd c x).bits (syncPattern c.accessAddr c.phycfg) = none := by
    rw [findSync_eq_none_iff]
    intro i hi
    rw [hbits, syncPattern_length, List.length_nil] at hi
    omega
  rw [pipeline_of_none hnone]
  refine ⟨rfl, ?_, hbits, frontEnd_pstar_of_length_le_one c hx⟩
  rw [frontEnd_fhat, carrierEstimate_of_length_le_one c hx]

/-- Settles O29: the dewhitened bits begin with the header, the payload and the CRC of the packet
(`dewhitened_tail`), which is neither short nor truncated. -/
theorem assembledPacketIsReceived : Obligations.AssembledPacketIsReceived := by
  unfold Obligations.AssembledPacketIsReceived
  intro c k before after pdu hpdu hbits hpos
  obtain ⟨h0, h1, payload, rfl, hlen⟩ := hpdu.exists_payload
  obtain ⟨rest, hrest⟩ := dewhitened_tail c (h0 :: h1 :: payload) after
  generalize hcrc : crc24 (h0 :: h1 :: payload) c.crcInit = crc at hrest
  have hw : (dewhitenWork c k).w = bitsOf (h0 :: h1 :: payload ++ crcBytes crc) ++ rest := by
    rw [dewhitenWork_w, hbits, hpos, drop_packetStream, hrest]
  have hbytes : bytesOf (dewhitenWork c k).w
      = h0 :: h1 :: (payload ++ (crcBytes crc ++ bytesOf rest)) := by
    rw [hw, bytesOf_bitsOf_append]
    simp
  have hlong : (dewhitenWork c k).isShort = false := by
    rw [Work.isShort, decide_eq_false_iff_not, hw]
    simp
    omega
  have hfull : (dewhitenWork c k).isTruncated = false := by
    rw [← Bool.not_eq_true, Work.isTruncated_iff_of_bytes hbytes]
    simp
    omega
  have hend : backEnd c k = (dewhitenWork c k, exitFull c (dewhitenWork c k)) := by
    simp [backEnd, hlong, hfull]
  have hcalc : (exitFull c (dewhitenWork c k)).crc = crc := by
    refine (Work.crcCalc_of_bytes hbytes).trans ?_
    rw [← hlen, List.take_left, hcrc]
  have hreceived : (exitFull c (dewhitenWork c k)).crcRx = crc := by
    refine (Work.crcReceived_of_bytes hbytes).trans ?_
    rw [← hlen, List.getD_append_right _ _ _ _ le_rfl,
      List.getD_append_right _ _ _ _ (Nat.le_add_right _ _),
      List.getD_append_right _ _ _ _ (Nat.le_add_right _ _), Nat.sub_self, Nat.add_sub_cancel_left,
      Nat.add_sub_cancel_left]
    exact crcOfBytes_extractLsb' crc
  obtain ⟨hhdr0, hhdr1⟩ := exitFull_hdr_of_bytes (c := c) hbytes
  rw [hend]
  refine ⟨?_, ?_, hhdr0, hhdr1, ?_, hcalc, hreceived⟩
  · rw [exitFull_flags_toWord, hcalc, hreceived, if_pos rfl]
  · rw [exitFull_pdu_of_bytes hbytes, ← hlen, List.take_left]
    rfl
  · show receivedAa c.phycfg k.bits k.pos = c.accessAddr
    rw [hbits, hpos, receivedAa_packetStream]

/-- Settles O21: the zero insertion entry by entry, and the phase accumulator as a sum over the
convolution (`CfgRegs.modulated_getD`). -/
theorem waveformFollowsThePhase : Obligations.WaveformFollowsThePhase := by
  unfold Obligations.WaveformFollowsThePhase
  intro c bits n hbits hsps hn
  refine ⟨fun k m hk hm => upsample_getD hk hm, ?_⟩
  exact c.modulated_getD bits (by rwa [CfgRegs.modulated_length hbits hsps])

end Sys2Proof.Proofs
end

section
/-! SUPPORT. The fields of `STATUS` in its word (10_state.md R37), the numbers of the stages (R32), and
the stages of DEMODULATE that always go on to the next (R33). -/

namespace Sys2Proof.Machine

section

variable (st : Status) (busy : Bool)

theorem Status.toWord_busy : (st.toWord busy).getLsbD 0 = busy := by
  rw [Status.toWord, BitVec.getLsbD_append]
  simp

theorem Status.toWord_err : (st.toWord busy).getLsbD 2 = st.err := by
  rw [Status.toWord, BitVec.getLsbD_append, BitVec.getLsbD_append, BitVec.getLsbD_append]
  simp

theorem Status.toWord_cmdOvr : (st.toWord busy).getLsbD 3 = st.cmdOvr := by
  rw [Status.toWord, BitVec.getLsbD_append, BitVec.getLsbD_append, BitVec.getLsbD_append,
    BitVec.getLsbD_append]
  simp

/-- Above its low byte `STATUS` holds the error code, the stage and the last opcode. -/
theorem Status.toWord_extractLsb' {n len : Nat} (h : 8 ≤ n) :
    (st.toWord busy).extractLsb' n len
      = (st.lastOp ++ 0#4 ++ st.stage.code ++ 0#4 ++ st.errCode.code).extractLsb' (n - 8) len := by
  rw [Status.toWord, BitVec.extractLsb'_append_eq_of_le (by omega),
    BitVec.extractLsb'_append_eq_of_le (by omega), BitVec.extractLsb'_append_eq_of_le (by omega),
    BitVec.extractLsb'_append_eq_of_le (by omega), BitVec.extractLsb'_append_eq_of_le (by omega)]
  rfl

theorem Status.toWord_errCode : (st.toWord busy).extractLsb' 8 4 = st.errCode.code := by
  rw [Status.toWord_extractLsb' _ _ (by decide), BitVec.extractLsb'_append_eq_of_add_le (by decide)]
  exact BitVec.extractLsb'_eq_self

theorem Status.toWord_stage : (st.toWord busy).extractLsb' 16 4 = st.stage.code := by
  rw [Status.toWord_extractLsb' _ _ (by decide), BitVec.extractLsb'_append_eq_of_le (by decide),
    BitVec.extractLsb'_append_eq_of_le (by decide),
    BitVec.extractLsb'_append_eq_of_add_le (by decide)]
  exact BitVec.extractLsb'_eq_self

theorem Status.toWord_lastOp : (st.toWord busy).extractLsb' 24 8 = st.lastOp := by
  rw [Status.toWord_extractLsb' _ _ (by decide), BitVec.extractLsb'_append_eq_of_le (by decide),
    BitVec.extractLsb'_append_eq_of_le (by decide), BitVec.extractLsb'_append_eq_of_le (by decide),
    BitVec.extractLsb'_append_eq_of_le (by decide)]
  exact BitVec.extractLsb'_eq_self

/-- The reserved bits of `STATUS` between its fields. -/
theorem Status.toWord_reserved :
    (st.toWord busy).extractLsb' 4 4 = 0 ∧ (st.toWord busy).extractLsb' 12 4 = 0
      ∧ (st.toWord busy).extractLsb' 20 4 = 0 := by
  refine ⟨?_, ?_, ?_⟩
  · rw [Status.toWord, BitVec.extractLsb'_append_eq_of_le (by decide),
      BitVec.extractLsb'_append_eq_of_le (by decide), BitVec.extractLsb'_append_eq_of_le (by decide),
      BitVec.extractLsb'_append_eq_of_le (by decide),
      BitVec.extractLsb'_append_eq_of_add_le (by decide)]
    exact BitVec.extractLsb'_eq_self
  · rw [Status.toWord_extractLsb' _ _ (by decide), BitVec.extractLsb'_append_eq_of_le (by decide),
      BitVec.extractLsb'_append_eq_of_add_le (by decide)]
    exact BitVec.extractLsb'_eq_self
  · rw [Status.toWord_extractLsb' _ _ (by decide), BitVec.extractLsb'_append_eq_of_le (by decide),
      BitVec.extractLsb'_append_eq_of_le (by decide), BitVec.extractLsb'_append_eq_of_le (by decide),
      BitVec.extractLsb'_append_eq_of_add_le (by decide)]
    exact BitVec.extractLsb'_eq_self

end

/-- The ten stages of DEMODULATE are numbered from 1 on in the order in which they come. -/
theorem Stage.code_eq_of_stagesLeft {g : Stage} (h : g.stagesLeft ≠ 10 ∨ g = .start) :
    g.code = BitVec.ofNat 4 (11 - g.stagesLeft) := by
  cases g with
  | idle | done | exec => simp [Stage.stagesLeft] at h
  | start | freqSync | demod | filter | timingSync | bitDecision | packetSync | dewhiten | parse
  | crcCheck => rfl

/-- The stage after one of DEMODULATE has the next number. -/
theorem Stage.code_succ {g g' : Stage} (hg : g.stagesLeft ≠ 10 ∨ g = .start)
    (h : g'.stagesLeft + 1 = g.stagesLeft) : g'.code = g.code + 1 := by
  have hpos := g'.stagesLeft_pos
  have hle := g.stagesLeft_le
  rw [Stage.code_eq_of_stagesLeft hg, Stage.code_eq_of_stagesLeft (.inl (by omega)),
    show 11 - g'.stagesLeft = 11 - g.stagesLeft + 1 by omega, BitVec.ofNat_add]
  rfl

/-- A stage from which DEMODULATE has no exit goes on to the next one. -/
theorem demodStage_advances {s : State}
    (hg : s.status.stage ∈ [Stage.freqSync, .demod, .filter, .timingSync, .bitDecision, .dewhiten]) :
    ∃ t g, demodStage s = .next t ∧ AdvancedTo s t g := by
  simp only [List.mem_cons, List.not_mem_nil, or_false] at hg
  rcases hg with hg | hg | hg | hg | hg | hg <;> rw [demodStage, hg]
  case inr.inr.inr.inr.inl => exact ⟨_, .packetSync, rfl, _, _, rfl⟩
  all_goals exact ⟨_, _, rfl, advancedTo_advance ..⟩

theorem AdvancedTo.status {s t : State} {g : Stage} (h : AdvancedTo s t g) :
    t.status = { s.status with stage := g } := by
  obtain ⟨m, k, rfl⟩ := h
  rfl

/-- `coreStage` of a running DEMODULATE is its next stage. -/
theorem coreStage_demodulate {s : State} {r : Running} (hr : s.running = some r)
    (hd : decode r.word = .instr .demodulate) : coreStage s = demodStage s :=
  coreStage_of_running hr hd

/-- An accepted word that the table decodes is the word of its command. -/
theorem ofNat_eq_encode_of_decodeTableWord {w : Nat} {i : Instr}
    (h : decodeTableWord 32 w = some i) : BitVec.ofNat 32 (w % 2 ^ 32) = encode i := by
  unfold decodeTableWord at h
  split at h
  case isFalse => cases h
  case isTrue =>
    cases hd : decode (BitVec.ofNat 32 (w % 2 ^ 32)) with
    | instr j =>
      rw [hd] at h
      cases h
      exact eq_encode_of_decode hd
    | illegal e => rw [hd] at h; cases h

theorem coreRun_accept_encode (s : State) (i : Instr) :
    coreRun (s.accept (encode i)) = exec i (s.accept (encode i)) :=
  coreRun_of_running (State.accept_running s _) (decode_encode i)

/-- Writing to a range of bits what was read from it before another write of the same range restores
the memory. -/
theorem Memory.writeBits_writeBits_of_readBits {m : Memory} (h : m.wf = true) {base i n : Nat}
    {l l' : List Bool} (hl : m.readBits base i n = .ok l) (hl' : l'.length = n) :
    (m.writeBits base i l').writeBits base i l = m := by
  have hn : l.length = n := Memory.readBits_length hl
  obtain ⟨hwritten, rfl⟩ := Memory.readBits_ok_iff.1 hl
  have hwf' := Memory.wf_writeBits h base i l'
  refine Memory.ext_bits (Memory.wf_writeBits hwf' base i _) h fun a k hk => ?_
  by_cases hcov : (BitSpan.mk base i n).covers a k = true
  · obtain ⟨j, hj, rfl, rfl⟩ := (BitSpan.covers_iff hk).1 hcov
    have hpos : 8 * (base + (i + j) / 8 - base) + (i + j) % 8 = i + j := by omega
    obtain ⟨hb, hw⟩ := Memory.byte_bit (m := m) (base := base) (Nat.le_add_right base ((i + j) / 8)) hk
    obtain ⟨hb', hw'⟩ := Memory.byte_bit
      (m := (m.writeBits base i l').writeBits base i ((List.range n).map fun j => m.bit base (i + j)))
      (base := base) (Nat.le_add_right base ((i + j) / 8)) hk
    obtain ⟨hbit, hmark⟩ := Memory.bit_writeBits_at hwf' base i
      (l := (List.range n).map fun j => m.bit base (i + j)) (j := j) (by rwa [hn])
    rw [hb, hw, hb', hw', hpos, hbit, hmark, range_map_getD _ _ _ _ hj, hwritten j hj]
    exact ⟨rfl, rfl⟩
  · have hout := Memory.sameOutside_trans (Memory.writeBits_outside h base i l')
      (Memory.writeBits_outside hwf' base i ((List.range n).map fun j => m.bit base (i + j)))
    rw [hl', hn] at hout
    refine hout a k hk fun sp hsp => ?_
    simp only [List.cons_append, List.nil_append, List.mem_cons, List.not_mem_nil, or_false,
      or_self] at hsp
    rw [hsp]
    exact Bool.eq_false_iff.2 hcov

/-- A read changes the answer and the count of free values only (20_memory.md R112). -/
theorem State.hostRead_onlyAnswered (s : State) (a : Nat) (w : Width) :
    OnlyAnswered s (s.hostRead a w) := by
  unfold OnlyAnswered State.hostRead
  split <;> rfl

/-- A command that ends with OK was not refused. -/
theorem guarded_next_of_ok {s t : State} {code : ErrCode} {b : Host.Outcome State Fault Refusal}
    (h : s.guarded code b = .next t) (hok : t.status.errCode = .ok) : code = .ok ∧ b = .next t := by
  rcases State.guarded_next h with ⟨hne, rfl⟩ | hb
  · exact absurd hok hne
  · exact hb

/-- A WHITEN that ends with OK has whitened the bits it read. -/
theorem exec_whiten_next {s t : State} (h : exec .whiten s = .next t)
    (hok : t.status.errCode = .ok) :
    ∃ l, whitenCheck s.cfg = .ok
      ∧ s.mem.readBits Config.txbitBase s.cfg.opOff.toNat s.cfg.opLen.toNat = .ok l
      ∧ t = State.complete
          { s with
            mem := s.mem.writeBits Config.txbitBase s.cfg.opOff.toNat
              (applyWhitening l s.cfg.phycfg.channel) } .ok := by
  obtain ⟨hcheck, hread⟩ := guarded_next_of_ok h hok
  obtain ⟨l, hl, hnext⟩ := withRead_next hread
  cases hnext
  exact ⟨l, hcheck, hl, rfl⟩

end Sys2Proof.Machine
end

section
/-! The statements of the decoder's samples, of a step, of the stages in order, of two WHITENs, of
admitted accesses, of host reads and of `STATUS` (30_encoding.md section 2; 10_state.md sections 2 and
4; 40_framing.md section 1; 20_memory.md sections 1 and 2). -/

namespace Sys2Proof.Proofs

open Sys2Proof.Machine

/-- Settles O2: seven closed facts about the decoder. -/
theorem sampleWordsDecode : Obligations.SampleWordsDecode := by
  unfold Obligations.SampleWordsDecode
  decide

/-- Settles O11: a step is its first input (`step_of_inputs_cons`), and the core runs what the accepted
word decodes to (`coreRun_of_running`). -/
theorem stepRunsTheDecodedCommand : Obligations.StepRunsTheDecodedCommand := by
  unfold Obligations.StepRunsTheDecodedCommand
  refine ⟨fun s r i hr hd => ⟨fun hin => ?_, fun rest hin => ?_⟩,
    fun s hidle => ⟨fun hin => ?_, fun rest hin => ?_⟩, fun s w i hw => ?_,
    fun s rest => ⟨fun a w hin => ?_, fun a w d hin => ?_, fun hin => ?_, fun hin => ?_⟩⟩
  · rw [step, hin]
    exact coreRun_of_running hr hd
  · rw [step_of_inputs_cons hin]
    exact coreRun_of_running hr hd
  · rw [step, hin]
    exact coreRun_of_idle hidle
  · rcases hin with hin | hin
    · rw [step_of_inputs_cons hin]
      exact coreRun_of_idle hidle
    · rw [step_of_inputs_cons hin]
      exact coreStage_of_idle hidle
  · have hrun : (s.withFetchWord 32 w).inputs = .run :: s.inputs := rfl
    rw [step_of_inputs_cons hrun, State.withFetchWord, ofNat_eq_encode_of_decodeTableWord hw]
    exact coreRun_accept_encode s i
  all_goals
    rw [step_of_inputs_cons hin]
    rfl

/-- Settles O12: a stage goes on to the next (`demodStage_next`), and from those without an exit it
always does (`demodStage_advances`). -/
theorem demodulatorStagesAdvanceInOrder : Obligations.DemodulatorStagesAdvanceInOrder := by
  unfold Obligations.DemodulatorStagesAdvanceInOrder
  intro s t r hr hd hstage ht
  rw [coreStage_demodulate hr hd] at ht
  have hnumber : s.status.stage.stagesLeft ≠ 10 ∨ s.status.stage = .start := by
    revert hstage
    cases s.status.stage <;> decide
  have hexit : (∃ g, AdvancedTo s t g)
      ∨ s.status.stage ∈ [Stage.start, .packetSync, .parse, .crcCheck] := by
    by_cases hgo : s.status.stage ∈
        [Stage.freqSync, .demod, .filter, .timingSync, .bitDecision, .dewhiten]
    · obtain ⟨t', g, ht', hadv⟩ := demodStage_advances hgo
      cases ht.symm.trans ht'
      exact .inl ⟨g, hadv⟩
    · right
      revert hstage hgo
      cases s.status.stage <;> decide
  rcases demodStage_next ht with ⟨g, hadv, hleft⟩ | hdone
  · refine .inl ⟨Option.isSome_iff_ne_none.2 hadv.running, ?_, ?_⟩
    · rw [hadv.stage, Stage.code_succ hnumber hleft]
    · rw [hadv.stage, hadv.status]
  · have hend : t.running = none ∧ t.status.stage = .done := by
      rcases hdone with ⟨hstatus, hrun, -⟩ | ⟨-, code, -, rfl⟩
      · exact ⟨hrun, by rw [hstatus]⟩
      · exact ⟨rfl, rfl⟩
    rcases hexit with ⟨g, hadv⟩ | hexit
    · exact absurd hend.1 hadv.running
    · exact .inr ⟨hend.1, hend.2, hexit⟩

/-- Settles O15: the first WHITEN wrote the whitened bits, whose whitening the second one writes back
(`Memory.writeBits_writeBits_of_readBits`). -/
theorem whitenTwiceRestoresTheBuffer : Obligations.WhitenTwiceRestoresTheBuffer := by
  unfold Obligations.WhitenTwiceRestoresTheBuffer
  intro s t hwf hregs ht hok
  obtain ⟨l, hcheck, hl, rfl⟩ := exec_whiten_next ht hok
  have hlen : (applyWhitening l s.cfg.phycfg.channel).length = s.cfg.opLen.toNat := by
    rw [applyWhitening_length, Memory.readBits_length hl]
  generalize hm : s.mem.writeBits Config.txbitBase s.cfg.opOff.toNat
    (applyWhitening l s.cfg.phycfg.channel) = m
  have hm' (j : Nat) (hj : j < s.cfg.opLen.toNat) :
      m.bit Config.txbitBase (s.cfg.opOff.toNat + j)
          = (applyWhitening l s.cfg.phycfg.channel).getD j false
        ∧ m.bitWritten Config.txbitBase (s.cfg.opOff.toNat + j) = true := by
    rw [← hm]
    exact Memory.bit_writeBits_at hwf _ _ (by rwa [hlen])
  generalize hu : (State.complete { s with mem := m } .ok).accept (encode .whiten) = u
  have hcfg : u.cfg = s.cfg := by rw [← hu]; exact hregs
  have hmem : u.mem = m := by rw [← hu]; rfl
  have hbits : u.opBits = applyWhitening l s.cfg.phycfg.channel := by
    refine list_ext_getD false (by rw [State.opBits_length, hcfg, hlen]) fun j hj => ?_
    rw [State.opBits_length] at hj
    rw [State.opBits_getD _ hj, hmem, hcfg]
    exact (hm' j (by rwa [hcfg] at hj)).1
  have hexec := exec_whiten_of_written (s := u) (by rw [hcfg]; exact hcheck) (by
    rw [hcfg, hmem]
    exact fun j hj => (hm' j hj).2)
  refine ⟨_, hexec, completed_complete _ _ _ rfl rfl, ?_⟩
  rw [State.complete_mem, hbits, hcfg, applyWhitening_applyWhitening, hmem, ← hm]
  exact Memory.writeBits_writeBits_of_readBits hwf hl hlen

/-- Settles O45: `inBuffer_iff` gives the buffer windows, all above the register window. -/
theorem admittedAccesses : Obligations.AdmittedAccesses := by
  unfold Obligations.AdmittedAccesses
  intro a w
  unfold admitted inRegWindow
  by_cases hreg : a < 0x100
  · simp only [hreg, decide_true, if_true, Bool.and_eq_true, decide_eq_true_eq, true_and]
    refine ⟨.inl, fun h => ?_⟩
    rcases h with h | ⟨-, h⟩
    · exact h
    · omega
  · simp only [hreg, decide_false, Bool.false_eq_true, if_false, Bool.and_eq_true,
      decide_eq_true_eq, inBuffer_iff, false_and, false_or]

/-- Settles O47: an admitted read changes the answer and the count of free values, another one the
answer. -/
theorem hostReadHasNoSideEffect : Obligations.HostReadHasNoSideEffect := by
  unfold Obligations.HostReadHasNoSideEffect
  exact fun s a w => s.hostRead_onlyAnswered a w

/-- Settles O51: the fields stand where `Status.toWord` puts them, one lemma each. -/
theorem statusWordHoldsItsFields : Obligations.StatusWordHoldsItsFields := by
  unfold Obligations.StatusWordHoldsItsFields
  intro s
  have hreg : s.reg .status = s.status.toWord s.busy := rfl
  obtain ⟨hlow, hmid, hhigh⟩ := Status.toWord_reserved s.status s.busy
  rw [hreg, Status.toWord_errCode, Status.toWord_stage]
  refine ⟨Status.toWord_busy .., Status.toWord_done .., Status.toWord_err .., Status.toWord_cmdOvr ..,
    hlow, fun code n hmem hcode => ?_, hmid, fun stage n hmem hstage => ?_, hhigh,
    Status.toWord_lastOp ..⟩
  · rw [hcode]
    cases code <;> simp_all [ErrCode.code]
  · rw [hstage]
    cases stage <;> simp_all [Stage.code]

end Sys2Proof.Proofs
end

section
/-! SUPPORT. The host port by its cases (20_memory.md R110 to R122, 70_reset_and_hazards.md R462, R463):
what is in the footprint of the running command, what a read of registers and of buffers returns, and
where a write goes. -/

namespace Sys2Proof.Machine

/-! ### The running command's footprint -/

section

variable {s : State}

theorem State.outputMask_of_active {i : Instr} (h : s.activeInstr = some i) (a : Nat) :
    s.outputMask a = spansMask (outputSpans i s.cfg s.mem) a := by
  unfold State.outputMask; rw [h]

theorem State.inputMask_of_active {i : Instr} (h : s.activeInstr = some i) (a : Nat) :
    s.inputMask a = spansMask (inputSpans i s.cfg s.mem) a := by
  unfold State.inputMask; rw [h]

theorem State.outputMask_of_inactive (h : s.activeInstr = none) (a : Nat) : s.outputMask a = 0 := by
  unfold State.outputMask; rw [h]

theorem State.inputMask_of_inactive (h : s.activeInstr = none) (a : Nat) : s.inputMask a = 0 := by
  unfold State.inputMask; rw [h]

theorem State.outputMask_eq_zero {a : Nat}
    (h : ∀ i, s.activeInstr = some i → spansMask (outputSpans i s.cfg s.mem) a = 0) :
    s.outputMask a = 0 := by
  cases hi : s.activeInstr with
  | none => exact State.outputMask_of_inactive hi a
  | some i => rw [State.outputMask_of_active hi, h i hi]

theorem State.outputReg_eq_false {r : Reg} (h : ∀ i, s.activeInstr = some i → r ∉ outputRegs i) :
    s.outputReg r = false := by
  unfold State.outputReg
  cases hi : s.activeInstr with
  | none => rfl
  | some i => simpa using h i hi

theorem State.outputReg_of_mem {r : Reg} {i : Instr} (hi : s.activeInstr = some i)
    (hr : r ∈ outputRegs i) : s.outputReg r = true := by
  unfold State.outputReg
  rw [hi]
  exact List.contains_iff_mem.2 hr

theorem State.footprintHit_of_idle (h : s.running = none) (a n : Nat) :
    s.footprintHit a n = none :=
  State.footprintHit_eq_none.2 fun b _ _ =>
    ⟨State.inputMask_of_inactive (State.activeInstr_of_idle h) b,
      State.outputMask_of_inactive (State.activeInstr_of_idle h) b⟩

end

theorem spansMask_append_eq_zero {l l' : List BitSpan} {a : Nat} :
    spansMask (l ++ l') a = 0 ↔ spansMask l a = 0 ∧ spansMask l' a = 0 := by
  simp only [← not_iff_not (a := spansMask (l ++ l') a = 0), not_and_or, ← ne_eq,
    spansMask_ne_zero_iff, List.mem_append]
  constructor
  · rintro ⟨k, hk, sp, hsp | hsp, hc⟩
    · exact .inl ⟨k, hk, sp, hsp, hc⟩
    · exact .inr ⟨k, hk, sp, hsp, hc⟩
  · rintro (⟨k, hk, sp, hsp, hc⟩ | ⟨k, hk, sp, hsp, hc⟩)
    · exact ⟨k, hk, sp, .inl hsp, hc⟩
    · exact ⟨k, hk, sp, .inr hsp, hc⟩

/-! ### The answer to a read -/

/-- The bytes of the value of a list of bytes, 0 above the last. -/
theorem dwordOfBytes_extractLsb' (l : List Byte) {j : Nat} (hj : j < 8) :
    (dwordOfBytes l).extractLsb' (8 * j) 8 = l.getD j 0 := by
  refine byte_ext fun k hk => ?_
  rw [BitVec.getLsbD_extractLsb', decide_eq_true hk, Bool.true_and,
    dwordOfBytes_getLsbD _ _ (by omega), bitsOf_getD _ _ hk]

theorem State.hostRead_response {a : Nat} {w : Width} (h : admitted a w = true) (s : State) :
    (s.hostRead a w).response = some { busError := false, data := s.readData a w } := by
  unfold State.hostRead; rw [if_pos h]

/-- A byte wholly written and outside the footprint is read as it is. -/
theorem State.hostByte_of_written {s : State} {a : Nat} (hw : s.mem.mask a = 0xFF)
    (hout : s.outputMask a = 0) (k : Nat) : s.hostByte k a = s.mem.byte a := by
  unfold State.hostByte
  have hfree : (0 : Byte) ||| ~~~(0xFF : Byte) = 0 := by decide
  have hall : s.mem.byte a &&& ~~~(0 : Byte) = s.mem.byte a := BitVec.and_allOnes
  rw [hw, hout, hfree]
  show (s.mem.byte a &&& ~~~(0 : Byte)) ||| (Config.freeByte k &&& (0 : Byte)) = s.mem.byte a
  rw [hall]
  simp

/-- Written bytes of a buffer outside the footprint are read as they are. -/
theorem State.readData_buffer {s : State} {a : Nat} {w : Width} (ha : 0x100 ≤ a)
    (hw : ∀ j, j < Width.bytes w → s.mem.mask (a + j) = 0xFF ∧ s.outputMask (a + j) = 0) :
    s.readData a w
      = dwordOfBytes ((List.range (Width.bytes w)).map fun j => s.mem.byte (a + j)) := by
  have hreg : inRegWindow a = false := decide_eq_false (by omega)
  unfold State.readData
  rw [hreg, if_neg Bool.false_ne_true]
  refine congrArg dwordOfBytes (List.map_congr_left fun j hj => ?_)
  obtain ⟨hmask, hout⟩ := hw j (List.mem_range.1 hj)
  exact State.hostByte_of_written hmask hout _

/-- A register outside the footprint is read as it is, a reserved offset as 0. -/
theorem State.readData_reg {s : State} {a : Nat} {w : Width} (ha : a < 0x100)
    (hout : ∀ r, regAt a = some r → s.outputReg r = false) :
    s.readData a w
      = match regAt a with
        | some r => (s.reg r).setWidth 64
        | none => 0 := by
  have hreg : inRegWindow a = true := decide_eq_true ha
  unfold State.readData
  rw [hreg, if_pos rfl, State.hostReg]
  cases hr : regAt a with
  | none => rfl
  | some r =>
    simp only
    rw [hout r hr, if_neg Bool.false_ne_true]

/-! ### Where a write goes -/

theorem State.hostWrite_buffer {a : Nat} {w : Width} (h : admitted a w = true) (ha : 0x100 ≤ a)
    (s : State) (d : DWord) : s.hostWrite a w d = s.writeBufferAt a w d := by
  have hreg : inRegWindow a = false := decide_eq_false (by omega)
  unfold State.hostWrite
  rw [if_pos h, hreg, if_neg Bool.false_ne_true]

theorem State.hostWrite_buffer_of_missed {s : State} {a : Nat} {w : Width}
    (h : admitted a w = true) (ha : 0x100 ≤ a) (hmiss : s.footprintHit a (Width.bytes w) = none)
    (d : DWord) :
    s.hostWrite a w d
      = .next { s with
          mem := s.mem.writeBytes a (writeBytesOf w d), response := some writeDone } := by
  rw [State.hostWrite_buffer h ha, State.writeBufferAt, hmiss]

theorem State.hostWrite_buffer_of_hit {s : State} {a b : Nat} {w : Width} {i : Instr}
    (h : admitted a w = true) (ha : 0x100 ≤ a) (hi : s.activeInstr = some i)
    (hhit : s.footprintHit a (Width.bytes w) = some b) (d : DWord) :
    s.hostWrite a w d = .fault (.footprintWrite i b) := by
  rw [State.hostWrite_buffer h ha, State.writeBufferAt, hhit]
  simp only [State.faultInstr, hi, Option.getD_some]

theorem State.hostWrite_reg_of_hit {s : State} {r : Reg} {i : Instr} (hi : s.activeInstr = some i)
    (hr : r ∈ outputRegs i) (d : DWord) :
    s.hostWrite (Reg.offset r) .w32 d = .fault (.footprintWrite i (Reg.offset r)) := by
  obtain ⟨hadm, hwindow, hat⟩ := admitted_reg r
  rw [State.hostWrite, if_pos hadm, if_pos hwindow, State.writeRegAt, hat]
  simp only [State.outputReg_of_mem hi hr, if_true, State.faultInstr, hi, Option.getD_some]

/-- A write to a reserved offset is ignored. -/
theorem State.hostWrite_reserved {a : Nat} (h : admitted a .w32 = true) (ha : a < 0x100)
    (hnone : regAt a = none) (s : State) (d : DWord) :
    s.hostWrite a .w32 d = .next { s with response := some writeDone } := by
  have hreg : inRegWindow a = true := decide_eq_true ha
  rw [State.hostWrite, if_pos h, if_pos hreg, State.writeRegAt, hnone]

/-- The bytes a write stores are those of its data. -/
theorem writeBytesOf_getD (w : Width) (d : DWord) {j k : Nat} (hj : j < Width.bytes w) (hk : k < 8) :
    ((writeBytesOf w d).getD j 0).getLsbD k = d.getLsbD (8 * j + k) := by
  have hw : Width.bytes w ≤ 8 := by cases w <;> decide
  have htake : (writeBytesOf w d).getD j 0 = (bytesOfDWord d).getD j 0 := by
    rw [writeBytesOf, List.getD_eq_getElem?_getD, List.getElem?_take_of_lt hj,
      List.getD_eq_getElem?_getD]
  rw [htake, bytesOfDWord_getD _ _ _ (by omega) hk]

/-- The value of the bytes a write stores is the low bytes of its data. -/
theorem dwordOfBytes_writeBytesOf (w : Width) (d : DWord) :
    dwordOfBytes (writeBytesOf w d) = d &&& BitVec.ofNat 64 (2 ^ (8 * Width.bytes w) - 1) := by
  refine BitVec.eq_of_getLsbD_eq fun i hi => ?_
  have hsplit : 8 * (i / 8) + i % 8 = i := by omega
  rw [BitVec.getLsbD_and, BitVec.getLsbD_ofNat, Nat.testBit_two_pow_sub_one, decide_eq_true hi,
    Bool.true_and, dwordOfBytes_getLsbD _ _ hi, ← hsplit, bitsOf_getD _ _ (by omega), hsplit]
  by_cases hj : i / 8 < Width.bytes w
  · rw [writeBytesOf_getD _ _ hj (by omega), hsplit, decide_eq_true (by omega), Bool.and_true]
  · rw [getD_default _ _ _ (by rw [writeBytesOf_length]; omega), decide_eq_false (by omega),
      Bool.and_false]
    exact BitVec.getLsbD_zero

/-- What has been written is read back, byte by byte. -/
theorem Memory.bytes_writeBytes {m : Memory} (h : m.wf = true) (a : Nat) (l : List Byte) :
    ((List.range l.length).map fun j => (m.writeBytes a l).byte (a + j)) = l := by
  refine list_ext_getD 0 (by simp) fun j hj => ?_
  have hj : j < l.length := by simpa using hj
  rw [range_map_getD _ _ _ _ hj, Memory.byte_writeBytes h, if_pos (by omega), Nat.add_sub_cancel_left]

/-! ### A write to a register -/

/-- The bits of `STATUS`: its four flags, and above them what a write does not reach. -/
theorem Status.toWord_getLsbD (st : Status) (busy : Bool) (i : Nat) :
    (st.toWord busy).getLsbD i
      = if i = 0 then busy else if i = 1 then st.done else if i = 2 then st.err
        else if i = 3 then st.cmdOvr
        else (st.lastOp ++ 0#4 ++ st.stage.code ++ 0#4 ++ st.errCode.code ++ 0#4).getLsbD (i - 4) := by
  rw [Status.toWord, BitVec.getLsbD_append, BitVec.getLsbD_append, BitVec.getLsbD_append,
    BitVec.getLsbD_append]
  simp only [BitVec.getLsbD_ofBool]
  grind

theorem Status.toWord_w1c (st : Status) (w : Word) (busy : Bool) :
    (st.w1c w).toWord busy = st.toWord busy &&& ~~~(w &&& 0x0000000E) := by
  have hmask : ∀ i, i < 32 → (0x0000000E : Word).getLsbD i = decide (i = 1 ∨ i = 2 ∨ i = 3) := by
    decide
  refine BitVec.eq_of_getLsbD_eq fun i hi => ?_
  rw [BitVec.getLsbD_and, BitVec.getLsbD_not, BitVec.getLsbD_and, hmask i hi,
    Status.toWord_getLsbD, Status.toWord_getLsbD]
  simp only [Status.w1c]
  grind

/-- The bits of `PHYCFG` that are not reserved (10_state.md R39). -/
theorem getLsbD_phycfgMask : ∀ i, i < 32 →
    (0x00073F03 : Word).getLsbD i = decide (i < 2 ∨ (8 ≤ i ∧ i < 14) ∨ (16 ≤ i ∧ i < 19)) := by
  decide

theorem PhyCfg.toWord_ofWord (w : Word) : PhyCfg.toWord (PhyCfg.ofWord w) = w &&& 0x00073F03 := by
  refine BitVec.eq_of_getLsbD_eq fun i hi => ?_
  rw [BitVec.getLsbD_and, getLsbD_phycfgMask i hi, PhyCfg.toWord, BitVec.getLsbD_append,
    BitVec.getLsbD_append, BitVec.getLsbD_append, BitVec.getLsbD_append, BitVec.getLsbD_append,
    BitVec.getLsbD_append, BitVec.getLsbD_append]
  simp only [PhyCfg.ofWord, BitVec.getLsbD_extractLsb', BitVec.getLsbD_ofBool, BitVec.getLsbD_zero]
  grind

theorem setWidth_extractLsb'_zero {n : Nat} (w : Word) :
    (w.extractLsb' 0 n).setWidth 32 = w &&& BitVec.ofNat 32 (2 ^ n - 1) := by
  refine BitVec.eq_of_getLsbD_eq fun i hi => ?_
  rw [BitVec.getLsbD_and, BitVec.getLsbD_ofNat, Nat.testBit_two_pow_sub_one, BitVec.getLsbD_setWidth,
    BitVec.getLsbD_extractLsb', Nat.zero_add, Bool.and_comm (decide (i < n)), decide_eq_true hi]
  simp

theorem setWidth_ofBool_getLsbD (w : Word) :
    (BitVec.ofBool (w.getLsbD 0)).setWidth 32 = w &&& 0x00000001 := by
  refine BitVec.eq_of_getLsbD_eq fun i hi => ?_
  rw [BitVec.getLsbD_and, BitVec.getLsbD_setWidth, decide_eq_true hi, BitVec.getLsbD_ofBool]
  cases i with
  | zero => simp
  | succ i => simp

theorem State.reg_setReg_of_stores {r : Reg} (h : Reg.stores r = true) (s : State) (w : Word) :
    (s.setReg r w).reg r = w &&& storedMask r := by
  have hall : w &&& 0xFFFFFFFF = w := BitVec.and_allOnes
  cases r <;> cases h
  case ctrl => exact setWidth_ofBool_getLsbD w
  case phycfg => exact PhyCfg.toWord_ofWord w
  case span => exact setWidth_extractLsb'_zero w
  case crcInit => exact setWidth_extractLsb'_zero w
  all_goals exact hall.symm

/-- A write to one register leaves the others as they read: each stands in a field of its own. -/
theorem State.reg_setReg_of_ne {r q : Reg} (h : Reg.stores r = true) (hq : q ≠ r) (s : State)
    (w : Word) : (s.setReg r w).reg q = s.reg q := by
  cases r <;> cases h <;> cases q <;> first | rfl | exact absurd rfl hq

theorem State.setReg_eq_of_stores {r : Reg} (h : Reg.stores r = true) (s : State) (w : Word) :
    s.setReg r w = { s with regs := (s.setReg r w).regs, irqEn := (s.setReg r w).irqEn } := by
  cases r <;> cases h <;> rfl

theorem State.setReg_of_readOnly {r : Reg} (h : Reg.readOnly r = true) (s : State) (w : Word) :
    s.setReg r w = s := by
  cases r <;> cases h <;> rfl

end Sys2Proof.Machine
end

section
/-! The statements of the host port (20_memory.md sections 1 and 3; 10_state.md sections 3 to 5;
70_reset_and_hazards.md sections 3 and 4). -/

namespace Sys2Proof.Proofs

open Sys2Proof.Machine

/-- Settles O48: a read outside the footprint is `State.readData_buffer` or `State.readData_reg`, and a
write of an idle block stores the bytes that are then read. -/
theorem bufferReadReturnsTheLastWrite : Obligations.BufferReadReturnsTheLastWrite := by
  unfold Obligations.BufferReadReturnsTheLastWrite
  refine ⟨fun s a w hadm ha hw => ?_, fun s r hr => ?_, fun s h => State.activeInstr_of_idle h,
    fun s a w d hwf hidle hadm => ⟨fun ha => ?_, fun ha => ?_⟩⟩
  · refine ⟨_, State.hostRead_response hadm s, fun j hj => ?_⟩
    rw [State.readData_buffer ha fun j hj =>
        ⟨(hw j hj).1, State.outputMask_eq_zero fun i hi => (hw j hj).2 i hi⟩,
      dwordOfBytes_extractLsb' _ hj]
    split
    case isTrue hlt => exact range_map_getD _ _ _ _ hlt
    case isFalse hge => exact getD_default _ _ _ (by simpa using hge)
  · obtain ⟨hadm, hwindow, hat⟩ := admitted_reg r
    rw [State.hostRead_response hadm, State.readData_reg (of_decide_eq_true hwindow) fun q hq => ?_,
      hat]
    rw [hat] at hq
    cases hq
    exact State.outputReg_eq_false hr
  · have hmiss := State.footprintHit_of_idle hidle a (Width.bytes w)
    refine ⟨_, State.hostWrite_buffer_of_missed hadm ha hmiss d, rfl, ?_, ?_⟩
    · rw [State.hostRead_response hadm, State.readData_buffer ha fun j hj => ⟨?_,
        State.outputMask_of_inactive (State.activeInstr_of_idle (by exact hidle)) _⟩]
      · have hread := Memory.bytes_writeBytes hwf a (writeBytesOf w d)
        rw [writeBytesOf_length] at hread
        rw [hread, dwordOfBytes_writeBytesOf]
      · rw [Memory.mask_writeBytes hwf, writeBytesOf_length, if_pos (by omega)]
    · have hout := Memory.writeBytes_outside hwf a (writeBytesOf w d)
      rwa [writeBytesOf_length] at hout
  · have hdata := State.readData_reg (w := w) ha fun r _ => State.outputReg_of_idle hidle r
    rw [State.hostRead_response hadm]
    exact congrArg (fun v => some (Response.mk false v)) hdata

/-- Settles O49: an idle block writes to a register with `State.setReg`, and each register has a field
of its own. -/
theorem registerWriteStoresTheFieldBits : Obligations.RegisterWriteStoresTheFieldBits := by
  unfold Obligations.RegisterWriteStoresTheFieldBits
  intro s d hidle
  refine ⟨fun r hr => ?_, fun r hr => ?_, fun a ha hmul hnone => ⟨?_, ?_⟩⟩
  · refine ⟨_, State.hostWrite_reg s r d (State.outputReg_of_idle hidle r),
      State.reg_setReg_of_stores hr s _, fun q hq => State.reg_setReg_of_ne hr hq s _, ?_⟩
    rw [State.setReg_eq_of_stores hr]
  · refine ⟨_, State.hostWrite_reg s r d (State.outputReg_of_idle hidle r), ?_⟩
    rw [State.setReg_of_readOnly hr]
    rfl
  · have hadm : admitted a .w32 = true := by simp [admitted, inRegWindow, ha, hmul]
    exact ⟨_, State.hostWrite_reserved hadm ha hnone s d, rfl⟩
  · have hadm : admitted a .w32 = true := by simp [admitted, inRegWindow, ha, hmul]
    rw [State.hostRead_response hadm,
      State.readData_reg ha fun r _ => State.outputReg_of_idle hidle r, hnone]

/-- Settles O50: the written word reaches only the three W1C bits (`Status.toWord_getLsbD`). -/
theorem statusBitsAreClearedByWritingOne : Obligations.StatusBitsAreClearedByWritingOne := by
  unfold Obligations.StatusBitsAreClearedByWritingOne
  intro s d
  refine ⟨_, State.hostWrite_status s d, Status.toWord_w1c s.status (d.setWidth 32) s.busy,
    fun q hq => ?_, rfl⟩
  cases q with
  | status => exact absurd rfl hq
  | _ => rfl

/-- Settles O52: a byte or a register of the footprint faults (`State.hostWrite_buffer_of_hit`,
`State.hostWrite_reg_of_hit`), any other is written. -/
theorem footprintWriteFaults : Obligations.FootprintWriteFaults := by
  unfold Obligations.FootprintWriteFaults
  intro s i w d hi
  have hmasks (b : Nat) :
      spansMask (inputSpans i s.cfg s.mem ++ outputSpans i s.cfg s.mem) b = 0
        ↔ s.inputMask b = 0 ∧ s.outputMask b = 0 := by
    rw [spansMask_append_eq_zero, State.inputMask_of_active hi, State.outputMask_of_active hi]
  refine ⟨fun a ha hadm => ⟨?_, fun hfree => ?_⟩, fun r => ⟨fun hr => ?_, fun hr => ?_⟩⟩
  · rintro ⟨b, hab, hb, hmask⟩
    cases hhit : s.footprintHit a (Width.bytes w) with
    | none => exact absurd ((hmasks b).2 (State.footprintHit_eq_none.1 hhit b hab hb)) hmask
    | some b' => exact ⟨b', State.hostWrite_buffer_of_hit hadm ha hi hhit d⟩
  · have hmiss : s.footprintHit a (Width.bytes w) = none :=
      State.footprintHit_eq_none.2 fun b hab hb => (hmasks b).1 (hfree b hab hb)
    exact ⟨_, State.hostWrite_buffer_of_missed hadm ha hmiss d, rfl⟩
  · exact State.hostWrite_reg_of_hit hi hr d
  · have hout : s.outputReg r = false := State.outputReg_eq_false fun j hj => by
      cases hi.symm.trans hj
      exact hr
    exact ⟨_, State.hostWrite_reg s r d hout⟩

end Sys2Proof.Proofs
end

section
/-! SUPPORT. Reading a footprint: a command reads what has been written and stops at the first byte
that has not (10_state.md R62, 60_exceptions.md R406). -/

namespace Sys2Proof.Machine

/-- A read is of written spans and gives a value, or names a byte of them that is not wholly
written. -/
inductive ReadsSpans {α : Type} (l : List BitSpan) (m : Memory) (r : Except Nat α) : Prop where
  | ok (v : α) (hr : r = .ok v) (hw : Memory.Written l m)
  | error (a : Nat) (hr : r = .error a) (hw : ¬ Memory.Written l m) (ha : spansMask l a ≠ 0)
      (hm : m.mask a ≠ 0xFF)

theorem Memory.readBits_reads (m : Memory) (base i n : Nat) :
    ReadsSpans [⟨base, i, n⟩] m (m.readBits base i n) := by
  rcases m.readBits_total base i n with ⟨l, hl⟩ | ⟨j, hj, hbit, herr⟩
  · exact .ok l hl (Memory.written_bits.2 (Memory.readBits_ok_iff.1 hl).1)
  · have hcov : (BitSpan.mk base i n).covers (base + (i + j) / 8) ((i + j) % 8) = true :=
      (BitSpan.covers_iff (by omega)).2 ⟨j, hj, rfl, rfl⟩
    refine .error _ herr (fun hw => ?_) (spansMask_ne_zero (by omega) (List.mem_singleton.2 rfl) hcov)
      fun hff => ?_
    · rw [Memory.written_bits.1 hw j hj] at hbit
      cases hbit
    · rw [Memory.bitWritten, mask_eq_ff.1 hff _ (by omega)] at hbit
      cases hbit

theorem Memory.readBytes_reads (m : Memory) (base first n : Nat) :
    ReadsSpans [⟨base, 8 * first, 8 * n⟩] m (m.readBytes (base + first) n) := by
  rcases m.readBytes_total (base + first) n with ⟨l, hl⟩ | ⟨j, hj, hmask, herr⟩
  · exact .ok l hl (Memory.written_bytes.2 (Memory.readBytes_ok_iff.1 hl).1)
  · have hcov : (BitSpan.mk base (8 * first) (8 * n)).covers (base + first + j) 0 = true :=
      (BitSpan.covers_iff (by decide)).2 ⟨8 * j, by omega, by omega, by omega⟩
    exact .error _ herr (fun hw => hmask (Memory.written_bytes.1 hw j hj))
      (spansMask_ne_zero (by decide) (List.mem_singleton.2 rfl) hcov) hmask

theorem State.iqBytes_reads (s : State) :
    ReadsSpans (inputSpans .demodulate s.cfg s.mem) s.mem s.iqBytes := by
  have h := s.mem.readBytes_reads Config.iqBase (16 * s.cfg.iqOff.toNat) (16 * s.cfg.iqNsamp.toNat)
  rw [← Nat.mul_assoc, ← Nat.mul_assoc] at h
  exact h

/-- The outcome `o` of command `i` from `s` is completion if its input `l` has been written, and else
UNINIT_READ at a byte of it. -/
def CompletesIffWritten (i : Instr) (s : State) (l : List BitSpan)
    (o : Host.Outcome State Fault Refusal) : Prop :=
  (Memory.Written l s.mem → ∃ t, o = .next t ∧ Completed s t .ok)
    ∧ (¬ Memory.Written l s.mem →
        ∃ a, o = .fault (.uninitRead i a) ∧ spansMask l a ≠ 0 ∧ s.mem.mask a ≠ 0xFF)

theorem ReadsSpans.completesIffWritten {α : Type} {i : Instr} {s : State} {l : List BitSpan}
    {r : Except Nat α} {b : α → Host.Outcome State Fault Refusal} (hr : ReadsSpans l s.mem r)
    (hb : ∀ v, r = .ok v → ∃ t, b v = .next t ∧ Completed s t .ok) :
    CompletesIffWritten i s l (withRead i r b) := by
  cases hr with
  | ok v hv hw =>
    rw [hv]
    exact ⟨fun _ => hb v hv, fun hn => absurd hw hn⟩
  | error a ha hn hcov hmask =>
    rw [ha]
    exact ⟨fun hw => absurd hw hn, fun _ => ⟨a, rfl, hcov, hmask⟩⟩

theorem withRead_error {α : Type} (i : Instr) (a : Nat)
    (body : α → Host.Outcome State Fault Refusal) :
    withRead i (.error a) body = .fault (.uninitRead i a) := rfl

/-! ### DEMODULATE from its start -/

/-- After the start no stage of DEMODULATE reads memory, so none stops. -/
theorem demodStage_goes {s : State} (h : s.status.stage.stagesLeft ≠ 10) :
    ∃ t, demodStage s = .next t := by
  cases hg : s.status.stage with
  | start | idle | done | exec => exact absurd (by rw [hg]; rfl) h
  | freqSync | demod | filter | timingSync | bitDecision | packetSync | dewhiten | parse
  | crcCheck => rw [demodStage, hg]; exact ⟨_, rfl⟩

theorem demodRun_goes {n : Nat} {s : State} (h : s.status.stage.stagesLeft ≠ 10) :
    ∃ t, demodRun n s = .next t := by
  induction n generalizing s with
  | zero => exact ⟨s, rfl⟩
  | succ n ih =>
    obtain ⟨u, hu⟩ := demodStage_goes h
    by_cases hr : u.running = none
    · exact ⟨u, demodRun_done hu hr⟩
    · rw [demodRun_step hu (Option.isSome_iff_ne_none.2 hr)]
      rcases demodStage_next hu with ⟨g, hadv, hleft⟩ | hdone | ⟨hten, -⟩
      · refine ih ?_
        rw [hadv.stage]
        have := s.status.stage.stagesLeft_le
        omega
      · exact absurd hdone.2.1 hr
      · exact absurd hten h

/-- The stages after the start complete DEMODULATE. -/
theorem demodRun_completes {n : Nat} {s : State} (h : s.status.stage.stagesLeft ≠ 10)
    (hn : s.status.stage.stagesLeft ≤ n) : ∃ t, demodRun n s = .next t ∧ Completed s t .ok := by
  obtain ⟨t, ht⟩ := demodRun_goes (n := n) h
  rcases demodRun_ends hn ht with hdone | ⟨hten, -⟩
  · exact ⟨t, ht, hdone⟩
  · exact absurd hten h

/-- DEMODULATE from its beginning reads its samples and goes through the other nine stages. -/
theorem exec_demodulate_of_start {s : State} (hstage : s.status.stage = .start)
    (hcheck : demodulateCheck s.cfg = .ok) :
    exec .demodulate s
      = withRead .demodulate s.iqBytes fun bytes =>
          demodRun 9 (s.advance (startWork (samplesOf bytes)) .freqSync) := by
  have hstart : demodStage s
      = withRead .demodulate s.iqBytes fun bytes =>
          .next (s.advance (startWork (samplesOf bytes)) .freqSync) := by
    rw [demodStage_eq_demodStart (by rw [hstage]; rfl)]
    exact State.guarded_ok hcheck
  show demodRun 10 s = _
  cases hread : s.iqBytes with
  | ok bytes =>
    rw [hread, withRead_ok] at hstart
    rw [withRead_ok]
    exact demodRun_step (n := 9) hstart rfl
  | error a =>
    rw [hread, withRead_error] at hstart
    rw [withRead_error]
    exact demodRun_fault (n := 9) hstart

/-! ### Each command once its checks have passed -/

section

variable {s : State}

theorem exec_modulate_of_check (hcheck : modulateCheck s.cfg = .ok) :
    exec .modulate s
      = withRead .modulate (s.mem.readBits Config.txbitBase 0 s.cfg.txNbits.toNat) fun bits =>
          .next ((modulated s bits).complete .ok) := State.guarded_ok hcheck

theorem exec_whiten_of_check (hcheck : whitenCheck s.cfg = .ok) :
    exec .whiten s
      = withRead .whiten
          (s.mem.readBits Config.txbitBase s.cfg.opOff.toNat s.cfg.opLen.toNat) fun c =>
            .next (State.complete
              { s with
                mem := s.mem.writeBits Config.txbitBase s.cfg.opOff.toNat
                  (applyWhitening c s.cfg.phycfg.channel) } .ok) := State.guarded_ok hcheck

theorem exec_crc24_of_check (hcheck : crc24Check s.cfg = .ok) :
    exec .crc24 s
      = withRead .crc24 (s.mem.readBytes Config.pduInBase s.cfg.crcNbytes.toNat) fun bytes =>
          .next (State.complete
            { s with res := { s.res with crc := crc24 bytes s.cfg.crcInit } } .ok) :=
  State.guarded_ok hcheck

theorem exec_aaDetect_of_check (hcheck : aaDetectCheck s.cfg = .ok) :
    exec .aaDetect s
      = withRead .aaDetect
          (s.mem.readBits Config.txbitBase s.cfg.opOff.toNat s.cfg.opLen.toNat) fun c =>
            .next (State.complete { s with res := aaResults s.cfg c s.res } .ok) :=
  State.guarded_ok hcheck

theorem exec_genPulse_of_check (hcheck : genPulseCheck s.cfg = .ok) :
    exec .genPulse s = .next ((pulseGenerated s).complete .ok) := State.guarded_ok hcheck

/-- ASSEMBLE reads the length byte first. -/
theorem exec_assemble_of_check (hcheck : assembleCheck s.cfg = .ok) :
    exec .assemble s
      = withRead .assemble (s.mem.readBytes (Config.pduInBase + 1) 1) fun lenByte =>
          withRead .assemble (s.mem.readBytes Config.pduInBase (2 + (lenByte.headD 0).toNat))
            fun pdu => .next ((assembled s pdu).complete .ok) := by
  refine (State.guarded_ok hcheck).trans (congrArg _ (funext fun lenByte => ?_))
  exact State.guarded_ok (assembleLenCheck_ok ..)

/-- The length byte of ASSEMBLE is part of its input. -/
theorem execAssemble_completesIffWritten (hcheck : assembleCheck s.cfg = .ok) :
    CompletesIffWritten .assemble s (inputSpans .assemble s.cfg s.mem) (exec .assemble s) := by
  rw [exec_assemble_of_check hcheck]
  by_cases hlen : s.mem.mask (Config.pduInBase + 1) = 0xFF
  · have hread : s.mem.readBytes (Config.pduInBase + 1) 1
        = .ok [s.mem.byte (Config.pduInBase + 1)] :=
      Memory.readBytes_ok fun i hi => by rw [Nat.lt_one_iff.1 hi]; exact hlen
    rw [hread, withRead_ok]
    exact (s.mem.readBytes_reads Config.pduInBase 0 _).completesIffWritten fun pdu _ =>
      ⟨_, rfl, completed_complete s _ .ok (assembled_status s pdu) (assembled_irqEn s pdu)⟩
  · have hcov : (BitSpan.mk Config.pduInBase 0
        (8 * (2 + (s.mem.byte (Config.pduInBase + 1)).toNat))).covers (Config.pduInBase + 1) 0
          = true := (BitSpan.covers_iff (by decide)).2 ⟨8, by omega, rfl, rfl⟩
    have hnot : ¬ Memory.Written (inputSpans .assemble s.cfg s.mem) s.mem := fun hw =>
      hlen ((Memory.written_bytes (first := 0)).1 hw 1 (by omega))
    have hread : s.mem.readBytes (Config.pduInBase + 1) 1 = .error (Config.pduInBase + 1) :=
      Memory.readBytes_error Nat.one_pos (fun i hi => absurd hi (Nat.not_lt_zero i)) hlen
    rw [hread]
    exact ⟨fun hw => absurd hw hnot, fun _ => ⟨_, rfl,
      spansMask_ne_zero (by decide) (List.mem_singleton.2 rfl) hcov, hlen⟩⟩

theorem execGenPulse_completesIffWritten (hcheck : genPulseCheck s.cfg = .ok) :
    CompletesIffWritten .genPulse s (inputSpans .genPulse s.cfg s.mem) (exec .genPulse s) := by
  have hwritten : Memory.Written (inputSpans .genPulse s.cfg s.mem) s.mem :=
    fun _ _ _ _ hsp => absurd hsp List.not_mem_nil
  rw [exec_genPulse_of_check hcheck]
  exact ⟨fun _ => ⟨_, rfl,
    completed_complete s _ .ok (pulseGenerated_status s) (pulseGenerated_irqEn s)⟩,
    fun hn => absurd hwritten hn⟩

theorem execDemodulate_completesIffWritten (hstage : s.status.stage = .start)
    (hcheck : demodulateCheck s.cfg = .ok) :
    CompletesIffWritten .demodulate s (inputSpans .demodulate s.cfg s.mem)
      (exec .demodulate s) := by
  rw [exec_demodulate_of_start hstage hcheck]
  refine s.iqBytes_reads.completesIffWritten fun bytes _ => ?_
  obtain ⟨t, ht, hdone⟩ := demodRun_completes (n := 9)
    (s := s.advance (startWork (samplesOf bytes)) .freqSync)
    (show Stage.stagesLeft .freqSync ≠ 10 by decide) (show Stage.stagesLeft .freqSync ≤ 9 by decide)
  exact ⟨t, ht, (advancedTo_advance ..).completed hdone⟩

end

/-- Every command whose checks pass completes exactly if its input has been written. -/
theorem exec_completesIffWritten {i : Instr} {s : State}
    (hstage : i = .demodulate → s.status.stage = .start) (hcheck : checkOf i s.cfg s.mem = .ok) :
    CompletesIffWritten i s (inputSpans i s.cfg s.mem) (exec i s) := by
  cases i with
  | modulate =>
    rw [exec_modulate_of_check hcheck]
    exact (s.mem.readBits_reads ..).completesIffWritten fun bits _ =>
      ⟨_, rfl, completed_complete s _ .ok (modulated_status s bits) (modulated_irqEn s bits)⟩
  | demodulate => exact execDemodulate_completesIffWritten (hstage rfl) hcheck
  | whiten =>
    rw [exec_whiten_of_check hcheck]
    exact (s.mem.readBits_reads ..).completesIffWritten fun _ _ =>
      ⟨_, rfl, completed_complete s _ .ok rfl rfl⟩
  | crc24 =>
    rw [exec_crc24_of_check hcheck]
    exact (s.mem.readBytes_reads Config.pduInBase 0 _).completesIffWritten fun _ _ =>
      ⟨_, rfl, completed_complete s _ .ok rfl rfl⟩
  | assemble =>
    rw [checkOf_assemble_eq] at hcheck
    exact execAssemble_completesIffWritten hcheck
  | aaDetect =>
    rw [exec_aaDetect_of_check hcheck]
    exact (s.mem.readBits_reads ..).completesIffWritten fun _ _ =>
      ⟨_, rfl, completed_complete s _ .ok rfl rfl⟩
  | genPulse => exact execGenPulse_completesIffWritten hcheck

/-- A command of one stage ends or stops with UNINIT_READ. -/
theorem exec_stops {i : Instr} {s : State} (hi : i ≠ .demodulate) :
    (∃ t, exec i s = .next t) ∨ ∃ a, exec i s = .fault (.uninitRead i a) := by
  by_cases hcheck : checkOf i s.cfg s.mem = .ok
  · obtain ⟨hok, hfault⟩ := exec_completesIffWritten (fun h => absurd h hi) hcheck
    by_cases hw : Memory.Written (inputSpans i s.cfg s.mem) s.mem
    · obtain ⟨t, ht, -⟩ := hok hw
      exact .inl ⟨t, ht⟩
    · obtain ⟨a, ha, -⟩ := hfault hw
      exact .inr ⟨a, ha⟩
  · exact .inl ⟨_, exec_refuses (fun h => absurd h hi) hcheck⟩

end Sys2Proof.Machine
end

section
/-! SUPPORT. The polling host (30_encoding.md section 4, 70_reset_and_hazards.md R470, R471): what a poll
sees, and how many polls a running command needs. -/

namespace Sys2Proof.Machine

/-- The state after the host has read `STATUS`. -/
def State.polled (s : State) : State := s.hostRead (Reg.offset .status) .w32

section

variable (s : State)

@[simp] theorem State.polled_running : s.polled.running = s.running := by
  have h := s.hostRead_onlyAnswered (Reg.offset .status) .w32
  unfold OnlyAnswered at h
  rw [State.polled, h]

@[simp] theorem State.polled_status : s.polled.status = s.status := by
  have h := s.hostRead_onlyAnswered (Reg.offset .status) .w32
  unfold OnlyAnswered at h
  rw [State.polled, h]

/-- A poll sees `DONE` (10_state.md R37). -/
theorem State.polled_done : s.polled.lastData.getLsbD 1 = s.status.done := by
  obtain ⟨hadm, hwindow, hat⟩ := admitted_reg .status
  have hdata : s.readData (Reg.offset .status) .w32 = (s.reg .status).setWidth 64 := by
    rw [State.readData_reg (of_decide_eq_true hwindow) fun r hr => ?_, hat]
    rw [hat] at hr
    cases hr
    exact State.outputReg_status s
  rw [State.polled, State.lastData, State.hostRead_response hadm, hdata]
  exact (BitVec.getLsbD_setWidth ..).trans (by
    rw [decide_eq_true (by decide), Bool.true_and]
    exact Status.toWord_done s.status s.busy)

end

/-- With `DONE` set the wait loop ends at its next poll. -/
theorem runWait_of_done {n : Nat} {s : State} (h : s.status.done = true) :
    runWait (n + 1) s = .done s.polled () := by
  have hpoll := s.polled_done
  rw [h] at hpoll
  rw [runWait]
  exact if_pos hpoll

/-- With `DONE` clear the core finishes one stage before the next poll. -/
theorem runWait_of_not_done {n : Nat} {s : State} (h : s.status.done = false) :
    runWait (n + 1) s
      = match coreStage s.polled with
        | .next u => runWait n u
        | .fault r => .fault r
        | .refused r => .refused r := by
  have hpoll := s.polled_done
  rw [h] at hpoll
  rw [runWait]
  exact if_neg (by rw [State.polled] at hpoll; rw [hpoll]; exact Bool.false_ne_true)

/-- A wait loop has ended: with `DONE` set and no command running, or with UNINIT_READ. -/
def WaitEnds (o : HostOutcome Unit) : Prop :=
  (∃ t, o = .done t () ∧ t.status.done = true ∧ t.running = none)
    ∨ ∃ i a, o = .fault (.uninitRead i a)

theorem waitEnds_of_done {n : Nat} {s : State} (hdone : s.status.done = true)
    (hidle : s.running = none) : WaitEnds (runWait (n + 1) s) :=
  .inl ⟨_, runWait_of_done hdone, by rw [State.polled_status, hdone],
    by rw [State.polled_running, hidle]⟩

/-- One stage: it stops, or the rest of the loop ends. -/
theorem WaitEnds.stage {n : Nat} {s : State} (h : s.status.done = false)
    (hstage : (∃ u, coreStage s.polled = .next u ∧ WaitEnds (runWait n u))
      ∨ ∃ i a, coreStage s.polled = .fault (.uninitRead i a)) : WaitEnds (runWait (n + 1) s) := by
  rw [runWait_of_not_done h]
  rcases hstage with ⟨u, hu, hends⟩ | ⟨i, a, hfault⟩
  · rw [hu]
    exact hends
  · rw [hfault]
    exact .inr ⟨i, a, rfl⟩

/-- A next state that completes or refuses is seen by the next poll. -/
theorem EndsFrom.waitEnds {n : Nat} {s t : State} {o : Host.Outcome State Fault Refusal}
    (h : EndsFrom s o) (ht : o = .next t) : WaitEnds (runWait (n + 1) t) := by
  rcases h t ht with ⟨hstatus, hidle, -⟩ | ⟨code, -, rfl⟩
  · exact waitEnds_of_done (by rw [hstatus]) hidle
  · exact waitEnds_of_done rfl rfl

/-- A running DEMODULATE is done after as many polls as it has stages left, and one more. -/
theorem waitEnds_demodulate {n : Nat} {s : State} {r : Running} (hr : s.running = some r)
    (hd : decode r.word = .instr .demodulate) (hdone : s.status.done = false)
    (hn : s.status.stage.stagesLeft < n) : WaitEnds (runWait n s) := by
  induction n generalizing s r with
  | zero => exact absurd hn (Nat.not_lt_zero _)
  | succ n ih =>
    have hpos := s.status.stage.stagesLeft_pos
    have hcore : coreStage s.polled = demodStage s.polled :=
      coreStage_demodulate (by rw [State.polled_running, hr]) hd
    refine WaitEnds.stage hdone ?_
    rw [hcore]
    rcases demodStage_stops s.polled with ⟨u, hu⟩ | ⟨a, ha⟩
    · refine .inl ⟨u, hu, ?_⟩
      obtain ⟨n, rfl⟩ := Nat.exists_eq_add_one_of_ne_zero (show n ≠ 0 by omega)
      rcases demodStage_next hu with ⟨g, hadv, hleft⟩ | hend | ⟨-, code, -, rfl⟩
      · rcases demodStage_running (s.polled_running.trans hr) hu with hidle | ⟨q, hq, hword, -⟩
        · exact absurd hidle hadv.running
        · refine ih hq (by rw [hword, hd]) ?_ ?_
          · rw [hadv.status, State.polled_status, hdone]
          · rw [hadv.stage]
            rw [State.polled_status] at hleft
            omega
      · exact waitEnds_of_done (by rw [hend.1]) hend.2.1
      · exact waitEnds_of_done rfl rfl
    · exact .inr ⟨_, a, ha⟩

/-- The wait loop of any running command ends within twelve polls. -/
theorem waitEnds_of_running {s : State} {r : Running} (hr : s.running = some r)
    (hdone : s.status.done = false) : WaitEnds (runWait 12 s) := by
  have hr' : s.polled.running = some r := s.polled_running.trans hr
  cases hd : decode r.word with
  | instr i =>
    by_cases hi : i = .demodulate
    · subst hi
      have := s.status.stage.stagesLeft_le
      exact waitEnds_demodulate hr hd hdone (by omega)
    · have hcore : coreStage s.polled = exec i s.polled := by
        rw [coreStage_of_running hr' hd]
        cases i with
        | demodulate => exact absurd rfl hi
        | _ => rfl
      refine WaitEnds.stage hdone ?_
      rw [hcore]
      rcases exec_stops (s := s.polled) hi with ⟨u, hu⟩ | ⟨a, ha⟩
      · exact .inl ⟨u, hu, (exec_ends i s.polled).waitEnds hu⟩
      · exact .inr ⟨i, a, ha⟩
  | illegal e =>
    have hcore : coreStage s.polled = .next (s.polled.refuse .illegalCmd) := by
      rw [coreStage, State.fetch_of_running _ _ hr']
      simp only [hd]
    exact WaitEnds.stage hdone (.inl ⟨_, hcore, waitEnds_of_done rfl rfl⟩)

end Sys2Proof.Machine
end

section
/-! The statements of completion by the input footprint and of the polling host (10_state.md section 8;
30_encoding.md section 4; 70_reset_and_hazards.md section 5). -/

namespace Sys2Proof.Proofs

open Sys2Proof.Machine

/-- Settles O10: each command's reads give what stands in its input footprint or stop at it
(`ReadsSpans`). -/
theorem commandCompletesIffItsInputIsWritten :
    Obligations.CommandCompletesIffItsInputIsWritten := by
  unfold Obligations.CommandCompletesIffItsInputIsWritten
  intro i s hstage hcheck
  exact exec_completesIffWritten hstage hcheck

/-- Settles O55: `waitEnds_demodulate` counts the stages left; every other command has one stage. -/
theorem pollingEndsOnceTheCommandCompletes : Obligations.PollingEndsOnceTheCommandCompletes := by
  unfold Obligations.PollingEndsOnceTheCommandCompletes
  intro s r hr hdone
  exact waitEnds_of_running hr hdone

end Sys2Proof.Proofs
end

section
/-! SUPPORT. The packet scan (60_exceptions.md R440 to R442): every round of it ends with no command
running and goes on by at least eight samples. -/

namespace Sys2Proof.Machine

theorem regAddr_toNat (r : Reg) : (regAddr r).toNat = Reg.offset r := by cases r <;> rfl

/-- A host program does not go on for ever, and one that has ended has left no command running. -/
def EndsIdle {α : Type} : HostOutcome α → Prop
  | .done t _ => t.running = none
  | .fault _ => True
  | .refused _ => True
  | .unfinished _ => False

section

variable {s : State} {n : Nat}

theorem State.hostRead_running (s : State) (a : Nat) (w : Width) :
    (s.hostRead a w).running = s.running := by
  have h := s.hostRead_onlyAnswered a w
  unfold OnlyAnswered at h
  rw [h]

/-- Writing a configuration register while no command runs. -/
theorem endsIdle_wr (hidle : s.running = none) {r : Reg} (hr : Reg.stores r = true) (d : DWord) :
    EndsIdle (runStmt n (.wr .w32 (regAddr r) d) s) := by
  have haccess : s.access (.write (regAddr r) .w32 d)
      = .next { s.setReg r (d.setWidth 32) with response := some writeDone } := by
    rw [State.access, regAddr_toNat]
    exact State.hostWrite_reg s r d (State.outputReg_of_idle hidle r)
  have hrunning : (s.setReg r (d.setWidth 32)).running = none := by
    rw [State.setReg_eq_of_stores hr]
    exact hidle
  have hrun : runStmt n (.wr .w32 (regAddr r) d) s
      = .done { s.setReg r (d.setWidth 32) with response := some writeDone } [] := by
    simp only [runStmt, Stmt.accesses, runAccesses, haccess, Stmt.waits, Stmt.named,
      Bool.false_eq_true, if_false]
  rw [hrun]
  exact hrunning

/-- Requesting a command while none runs, and waiting for it. -/
theorem endsIdle_run (hidle : s.running = none) (i : Instr) : EndsIdle (runStmt 12 (.run i) s) := by
  have hword : ((encode i).setWidth 64).setWidth 32 = encode i := by cases i <;> rfl
  have haccess : s.access (.write (regAddr .cmd) .w32 ((encode i).setWidth 64))
      = .next { s.accept (encode i) with response := some writeDone } := by
    rw [State.access, regAddr_toNat]
    refine (State.hostWrite_cmd s _).trans ?_
    rw [hword, State.request_encode hidle]
  have hwait := waitEnds_of_running
    (s := { s.accept (encode i) with response := some writeDone }) rfl rfl
  rcases hwait with ⟨t, ht, -, hrunning⟩ | ⟨j, a, hfault⟩
  · have hrun : runStmt 12 (.run i) s = .done t [] := by
      simp only [runStmt, Stmt.accesses, runAccesses, haccess, Stmt.waits, if_true, ht]
    rw [hrun]
    exact hrunning
  · have hrun : runStmt 12 (.run i) s = .fault (.uninitRead j a) := by
      simp only [runStmt, Stmt.accesses, runAccesses, haccess, Stmt.waits, if_true, hfault]
    rw [hrun]
    exact trivial

theorem endsIdle_rd (hidle : s.running = none) (w : Width) (a : Addr) (name : Option String) :
    EndsIdle (runStmt n (.rd w a name) s) := by
  have hrun : runStmt n (.rd w a name) s
      = .done (s.hostRead a.toNat w) (Stmt.named (s.hostRead a.toNat w) (.rd w a name)) := by
    simp only [runStmt, Stmt.accesses, runAccesses, State.access, Stmt.waits, Bool.false_eq_true,
      if_false]
  rw [hrun]
  exact (s.hostRead_running a.toNat w).trans hidle

theorem endsIdle_runProgram_nil (hidle : s.running = none) : EndsIdle (runProgram n [] s) := hidle

theorem EndsIdle.cons {st : Stmt} {l : List Stmt} (hst : EndsIdle (runStmt n st s))
    (hl : ∀ t : State, t.running = none → EndsIdle (runProgram n l t)) :
    EndsIdle (runProgram n (st :: l) s) := by
  rw [runProgram]
  cases hrun : runStmt n st s with
  | fault r => exact trivial
  | refused r => exact trivial
  | unfinished t => rw [hrun] at hst; exact hst
  | done t v =>
    rw [hrun] at hst
    have ht := hl t hst
    simp only
    cases hrest : runProgram n l t with
    | fault r => exact trivial
    | refused r => exact trivial
    | unfinished u => rw [hrest] at ht; exact ht
    | done u w => rw [hrest] at ht; exact ht

/-- One round of the scan (60_exceptions.md R441). -/
theorem endsIdle_scanRound (hidle : s.running = none) (base window total off : Nat) :
    EndsIdle (runProgram 12 (scanRound base window total off) s) :=
  .cons (endsIdle_wr hidle rfl _) fun _ hidle =>
    .cons (endsIdle_wr hidle rfl _) fun _ hidle =>
      .cons (endsIdle_run hidle _) fun _ hidle =>
        .cons (endsIdle_rd hidle _ _ _) fun _ hidle => endsIdle_runProgram_nil hidle

theorem readAll_running (l : List (Nat × Width)) (s : State) :
    (readAll l s).1.running = s.running := by
  induction l generalizing s with
  | nil => rfl
  | cons p l ih => rw [readAll, ih, State.hostRead_running]

theorem readPacket_running (off : Nat) (s : State) : (readPacket off s).1.running = s.running := by
  rw [readPacket, readAll_running, readAll_running]

/-- As long as eight samples a round are enough to reach the end, the scan ends. -/
theorem scanLoop_ends {p : ScanParams} (hsps : 0 < p.sps) {k off : Nat} {found : List Packet}
    (hidle : s.running = none) (hk : p.n ≤ off + 8 * k) {u : State} :
    scanLoop p k off found s ≠ .unfinished u := by
  intro hend
  induction k generalizing off found s with
  | zero =>
    rw [scanLoop, if_neg (by omega)] at hend
    cases hend
  | succ k ih =>
    rw [scanLoop] at hend
    by_cases hgo : found.length < p.maxPackets ∧ off < p.n
    · rw [if_pos hgo] at hend
      have hround := endsIdle_scanRound hidle p.base p.window p.n off
      cases hrun : runProgram 12 (scanRound p.base p.window p.n off) s with
      | fault r => rw [hrun] at hend; cases hend
      | refused r => rw [hrun] at hend; cases hend
      | unfinished t => rw [hrun] at hround; exact hround
      | done t v =>
        rw [hrun] at hround hend
        have ht : t.running = none := hround
        have hadvance (m : Nat) (hm : 8 ≤ m) : p.n ≤ off + m * p.sps + 8 * k := by
          have := Nat.mul_le_mul hm hsps
          omega
        simp only at hend
        split at hend
        · exact ih ((readPacket_running off t).trans ht) (hadvance _ (by omega)) hend
        · exact ih ht (hadvance 8 le_rfl) hend
    · rw [if_neg hgo] at hend
      cases hend

end

end Sys2Proof.Machine
end

section
/-! The statement of the packet scan (60_exceptions.md section 4). -/

namespace Sys2Proof.Proofs

open Sys2Proof.Machine

/-- Settles O56: `n / 8 + 1` rounds of at least eight samples each pass the end (`scanLoop_ends`). -/
theorem packetScanEnds : Obligations.PacketScanEnds := by
  unfold Obligations.PacketScanEnds
  intro s base n maxPackets hidle hsps u
  exact scanLoop_ends (p := scanParams s base n maxPackets) hsps hidle
    (show n ≤ 0 + 8 * (n / 8 + 1) by omega)

end Sys2Proof.Proofs
end

section
/-! SUPPORT. Stored values: what stands in memory after a list of computed binary64 values has been
written (20_memory.md R101, R103; 93_implementation_defined.md U4). -/

namespace Sys2Proof.Machine

theorem Memory.dword_getLsbD (m : Memory) (a : Nat) {i : Nat} (hi : i < 64) :
    (m.dword a).getLsbD i = (m.byte (a + i / 8)).getLsbD (i % 8) := by
  have hsplit : 8 * (i / 8) + i % 8 = i := by omega
  rw [Memory.dword, dwordOfBytes_getLsbD _ _ hi, ← hsplit, bitsOf_getD _ _ (by omega), hsplit,
    range_map_getD _ _ _ _ (by omega)]

theorem dwordOfBytes_bytesOfDWord (v : DWord) : dwordOfBytes (bytesOfDWord v) = v := by
  refine BitVec.eq_of_getLsbD_eq fun i hi => ?_
  have hsplit : 8 * (i / 8) + i % 8 = i := by omega
  rw [dwordOfBytes_getLsbD _ _ hi, ← hsplit, bitsOf_getD _ _ (by omega),
    bytesOfDWord_getD _ _ _ (by omega) (by omega)]

theorem storedBytes_getD (k : Nat) {l : List F64} {i j : Nat} (hi : i < l.length) (hj : j < 8) :
    (storedBytes k l).getD (8 * i + j) 0
      = (bytesOfDWord (storedF64 (k + i) (l.getD i f0))).getD j 0 := by
  induction l generalizing k i with
  | nil => exact absurd hi (Nat.not_lt_zero i)
  | cons v l ih =>
    rw [storedBytes]
    cases i with
    | zero =>
      rw [List.getD_append _ _ _ _ (by rw [bytesOfDWord_length]; omega), Nat.mul_zero, Nat.zero_add]
      rfl
    | succ i =>
      rw [List.getD_append_right _ _ _ _ (by rw [bytesOfDWord_length]; omega), bytesOfDWord_length,
        show 8 * (i + 1) + j - 8 = 8 * i + j by omega, ih _ (Nat.lt_of_succ_lt_succ hi),
        List.getD_cons_succ, show k + 1 + i = k + (i + 1) by omega]

/-- Value `i` of a written list stands at its place. -/
theorem Memory.dword_writeBytes_storedBytes {m : Memory} (h : m.wf = true) (a k : Nat)
    {l : List F64} {i : Nat} (hi : i < l.length) :
    (m.writeBytes a (storedBytes k l)).dword (a + 8 * i) = storedF64 (k + i) (l.getD i f0) := by
  refine BitVec.eq_of_getLsbD_eq fun n hn => ?_
  have hplace : a + 8 * i + n / 8 - a = 8 * i + n / 8 := by omega
  rw [Memory.dword_getLsbD _ _ hn, Memory.byte_writeBytes h,
    if_pos (by rw [storedBytes_length]; omega), hplace, storedBytes_getD k hi (by omega),
    bytesOfDWord_getD _ _ _ (by omega) (by omega), show 8 * (n / 8) + n % 8 = n by omega]

/-- Every byte of a written list of values is marked. -/
theorem Memory.mask_writeBytes_storedBytes {m : Memory} (h : m.wf = true) (a k : Nat) {l : List F64}
    {i : Nat} (hi : i < 8 * l.length) : (m.writeBytes a (storedBytes k l)).mask (a + i) = 0xFF := by
  rw [Memory.mask_writeBytes h, if_pos (by rw [storedBytes_length]; omega)]

theorem Memory.storedBytes_outside {m : Memory} (h : m.wf = true) (a k : Nat) (l : List F64) :
    Memory.SameOutside [⟨a, 0, 64 * l.length⟩] m (m.writeBytes a (storedBytes k l)) := by
  have hout := Memory.writeBytes_outside h a (storedBytes k l)
  rwa [storedBytes_length, ← Nat.mul_assoc] at hout

/-- Bytes from a place inside a buffer on are bits from a place inside it on. -/
theorem BitSpan.covers_shift (base off n a k : Nat) (hk : k < 8) :
    (BitSpan.mk (base + off) 0 n).covers a k = (BitSpan.mk base (8 * off) n).covers a k := by
  rw [Bool.eq_iff_iff, BitSpan.covers_iff hk, BitSpan.covers_iff hk]
  constructor
  · rintro ⟨j, hj, rfl, rfl⟩
    exact ⟨j, hj, by omega, by omega⟩
  · rintro ⟨j, hj, rfl, rfl⟩
    exact ⟨j, hj, by omega, by omega⟩

theorem Memory.SameOutside.shift {m m' : Memory} {base off n : Nat}
    (h : Memory.SameOutside [⟨base + off, 0, n⟩] m m') :
    Memory.SameOutside [⟨base, 8 * off, n⟩] m m' := by
  intro a k hk hout
  refine h a k hk fun sp hsp => ?_
  rw [List.mem_singleton.1 hsp, BitSpan.covers_shift _ _ _ _ _ hk]
  exact hout _ (List.mem_singleton.2 rfl)

theorem partsOf_cons (z : Cx) (l : List Cx) : partsOf (z :: l) = z.re :: z.im :: partsOf l := rfl

/-- The parts of sample `j` stand at the places `2j` and `2j + 1`. -/
theorem partsOf_getD {l : List Cx} {j : Nat} (hj : j < l.length) :
    (partsOf l).getD (2 * j) f0 = (l.getD j cx0).re
      ∧ (partsOf l).getD (2 * j + 1) f0 = (l.getD j cx0).im := by
  induction l generalizing j with
  | nil => exact absurd hj (Nat.not_lt_zero j)
  | cons z l ih =>
    rw [partsOf_cons]
    cases j with
    | zero => exact ⟨rfl, rfl⟩
    | succ j => exact ih (Nat.lt_of_succ_lt_succ hj)

/-! ### MODULATE and its waveform in memory -/

/-- The bits MODULATE reads. -/
def State.txBits (s : State) : List Bool :=
  (List.range s.cfg.txNbits.toNat).map fun j => s.mem.bit Config.txbitBase j

@[simp] theorem State.txBits_length (s : State) : s.txBits.length = s.cfg.txNbits.toNat := by
  simp [State.txBits]

theorem exec_modulate_of_written {s : State} (hcheck : modulateCheck s.cfg = .ok)
    (hw : ∀ j, j < s.cfg.txNbits.toNat → s.mem.bitWritten Config.txbitBase j = true) :
    exec .modulate s = .next ((modulated s s.txBits).complete .ok) := by
  have hread : s.mem.readBits Config.txbitBase 0 s.cfg.txNbits.toNat = .ok s.txBits :=
    Memory.readBits_ok_iff.2 ⟨fun j hj => by rw [Nat.zero_add]; exact hw j hj, by
      simp only [State.txBits, Nat.zero_add]⟩
  rw [exec_modulate_of_check hcheck, hread, withRead_ok]

section

variable {s : State} {bits : List Bool}

/-- Sample `j` of the waveform stands at its place in `IQ`. -/
theorem modulated_dword (hwf : s.mem.wf = true) {j : Nat} (hj : j < (s.cfg.modulated bits).length) :
    (modulated s bits).mem.dword (Config.iqBase + 16 * (s.cfg.iqOff.toNat + j))
        = storedF64 (s.draws + 2 * j) ((s.cfg.modulated bits).getD j cx0).re
      ∧ (modulated s bits).mem.dword (Config.iqBase + 16 * (s.cfg.iqOff.toNat + j) + 8)
        = storedF64 (s.draws + (2 * j + 1)) ((s.cfg.modulated bits).getD j cx0).im := by
  obtain ⟨hre, him⟩ := partsOf_getD hj
  have hplace : Config.iqBase + 16 * (s.cfg.iqOff.toNat + j)
      = Config.iqBase + 16 * s.cfg.iqOff.toNat + 8 * (2 * j) := by omega
  rw [modulated_mem, hplace, ← hre, ← him, Nat.add_assoc _ (8 * (2 * j)) 8,
    show 8 * (2 * j) + 8 = 8 * (2 * j + 1) by omega]
  exact ⟨Memory.dword_writeBytes_storedBytes hwf _ _ (by rw [partsOf_length]; omega),
    Memory.dword_writeBytes_storedBytes hwf _ _ (by rw [partsOf_length]; omega)⟩

theorem modulated_storedAs (hwf : s.mem.wf = true) {j : Nat}
    (hj : j < (s.cfg.modulated bits).length) :
    StoredAs ((s.cfg.modulated bits).getD j cx0).re
        ((modulated s bits).mem.dword (Config.iqBase + 16 * (s.cfg.iqOff.toNat + j)))
      ∧ StoredAs ((s.cfg.modulated bits).getD j cx0).im
        ((modulated s bits).mem.dword (Config.iqBase + 16 * (s.cfg.iqOff.toNat + j) + 8)) := by
  obtain ⟨hre, him⟩ := modulated_dword hwf hj
  rw [hre, him]
  exact ⟨storedAs_stored .., storedAs_stored ..⟩

theorem modulated_mask (hwf : s.mem.wf = true) {i : Nat}
    (hi : i < 16 * (s.cfg.modulated bits).length) :
    (modulated s bits).mem.mask (Config.iqBase + 16 * s.cfg.iqOff.toNat + i) = 0xFF := by
  rw [modulated_mem]
  exact Memory.mask_writeBytes_storedBytes hwf _ _ (by rw [partsOf_length]; omega)

theorem modulated_outside (hwf : s.mem.wf = true) :
    Memory.SameOutside
      [⟨Config.iqBase, 128 * s.cfg.iqOff.toNat, 128 * (s.cfg.modulated bits).length⟩]
      s.mem (modulated s bits).mem := by
  have h := (Memory.storedBytes_outside hwf (Config.iqBase + 16 * s.cfg.iqOff.toNat) s.draws
    (partsOf (s.cfg.modulated bits))).shift
  rwa [partsOf_length, ← modulated_mem, ← Nat.mul_assoc, ← Nat.mul_assoc] at h

end

/-! ### GEN_PULSE -/

section

variable {c : CfgRegs}

theorem genPulseCheck_badPhy (h : 2 ≤ c.phycfg.phyMode.toNat) : genPulseCheck c = .badPhy :=
  if_pos (CfgRegs.badPhy_iff.2 h)

theorem genPulseCheck_badRate (hphy : c.phycfg.phyMode.toNat < 2) (h : c.sps = 0) :
    genPulseCheck c = .badRate := by
  rw [genPulseCheck, CfgRegs.badPhy_eq_false.2 hphy, CfgRegs.badRate, decide_eq_true h]
  rfl

theorem genPulseCheck_badParam (hphy : c.phycfg.phyMode.toNat < 2) (hsps : 0 < c.sps)
    (h : c.span = 0 ∨ c.bt = 0 ∨ 1024 < c.pulseLen) : genPulseCheck c = .badParam := by
  have hbad : c.badPulse = true := by
    simp only [CfgRegs.badPulse, Bool.or_eq_true, decide_eq_true_eq, or_assoc]
    exact h
  rw [genPulseCheck, CfgRegs.badPhy_eq_false.2 hphy, CfgRegs.badRate_eq_false.2 hsps, hbad]
  rfl

end

/-- The model's pulse follows its formulas (41_pulse_shaper.md R262 to R264). -/
theorem pulse_isPulse (b : F64) (sps : Nat) {len : Nat} (hlen : len ≤ 1024) :
    IsPulse b sps len (pulse b sps len) := by
  refine ⟨pulse_length b sps len, qFunc, pulseSlope b, pulseTime sps len, rawPulse b sps len,
    fun _ => rfl, rfl, fun i hi => ⟨_, ?_, rfl⟩, fun i _ => rfl, fun i hi => ?_⟩
  · have hnum := finiteValue_fofInt (i := 2 * (i : Int) - ((len : Int) - 1)) (by omega)
    have hhalf := finiteValue_fdiv_pow (y := f2) (k := 1) hnum (by
      rw [show f2 = fofNat 2 by decide, finiteValue_fofNat (by decide)]
      norm_num) (by omega) (by decide)
    rw [hhalf]
    push_cast
    congr 1
    ring
  · rw [pulse, List.map_map, range_map_getD _ _ _ _ hi]
    rfl

end Sys2Proof.Machine
end

section
/-! The statements of GEN_PULSE and of MODULATE (41_pulse_shaper.md sections 2 and 4;
42_modulator.md). -/

namespace Sys2Proof.Proofs

open Sys2Proof.Machine

/-- Settles O19: the refusals follow the checks, and the pulse is stored value by value
(`Memory.dword_writeBytes_storedBytes`). -/
theorem genPulseWritesThePulse : Obligations.GenPulseWritesThePulse := by
  unfold Obligations.GenPulseWritesThePulse
  intro s sps len hwf hsps hlen
  replace hsps : sps = s.cfg.sps := hsps
  subst hsps
  replace hlen : len = s.cfg.pulseLen := hlen
  subst hlen
  refine ⟨fun hphy => State.guarded_refused (genPulseCheck_badPhy hphy) (by decide),
    fun hphy hrate => State.guarded_refused (genPulseCheck_badRate hphy hrate) (by decide),
    fun hphy hrate hparam =>
      State.guarded_refused (genPulseCheck_badParam hphy hrate hparam) (by decide),
    fun hphy hrate hspan hbt hlen => ?_⟩
  have hcheck : genPulseCheck s.cfg = .ok := genPulseCheck_eq_ok_iff.2
    ⟨CfgRegs.badPhy_eq_false.2 hphy, hrate, CfgRegs.badPulse_eq_false.2 ⟨hspan, hbt, hlen⟩⟩
  have hpulse : s.cfg.pulse.length = s.cfg.pulseLen := s.cfg.pulse_length
  refine ⟨_, exec_genPulse_of_check hcheck,
    completed_complete s _ .ok (pulseGenerated_status s) (pulseGenerated_irqEn s),
    pulseGenerated_regs s, pulseGenerated_res s, fun i hi => ⟨?_, fun k hk => ?_⟩, ?_,
    pulse_isPulse _ _ hlen⟩
  · rw [State.complete_mem, pulseGenerated_mem,
      Memory.dword_writeBytes_storedBytes hwf _ _ (by rwa [hpulse])]
    exact storedAs_stored ..
  · rw [State.complete_mem, pulseGenerated_mem, Nat.add_assoc]
    exact Memory.mask_writeBytes_storedBytes hwf _ _ (by omega)
  · have hout := Memory.storedBytes_outside hwf Config.coefBase s.draws s.cfg.pulse
    rw [hpulse] at hout
    rwa [State.complete_mem, pulseGenerated_mem]

/-- Settles O20: MODULATE stores the two parts of each sample of the waveform at their places
(`modulated_storedAs`). -/
theorem modulateWritesTheWaveform : Obligations.ModulateWritesTheWaveform := by
  unfold Obligations.ModulateWritesTheWaveform
  intro s n bits hwf hcheck hn hbits hw
  replace hn : n = s.cfg.modulatedLen := hn
  replace hbits : bits = s.txBits := hbits
  subst hn hbits
  have hlen : (s.cfg.modulated s.txBits).length = s.cfg.modulatedLen :=
    modulated_length_of_check hcheck s.txBits_length
  refine ⟨_, exec_modulate_of_written hcheck hw,
    completed_complete s _ .ok (modulated_status ..) (modulated_irqEn ..), modulated_regs ..,
    modulated_res .., hlen, fun j hj => ?_, ?_⟩
  · rw [← hlen] at hj
    obtain ⟨hre, him⟩ := modulated_storedAs hwf hj
    refine ⟨hre, him, fun k hk => ?_⟩
    have hplace : Config.iqBase + 16 * (s.cfg.iqOff.toNat + j) + k
        = Config.iqBase + 16 * s.cfg.iqOff.toNat + (16 * j + k) := by omega
    rw [State.complete_mem, hplace]
    exact modulated_mask hwf (by omega)
  · rw [← hlen]
    exact modulated_outside hwf

end Sys2Proof.Proofs
end

section
/-! SUPPORT. What a command leaves for the one accepted after it (70_reset_and_hazards.md R465). -/

namespace Sys2Proof.Machine

/-! ### After ASSEMBLE -/

section

variable {s t : State}

/-- An ASSEMBLE whose checks pass builds the packet of the PDU that stands in `PDU_IN`. -/
theorem eq_of_exec_assemble (hcheck : assembleCheck s.cfg = .ok) (h : exec .assemble s = .next t) :
    t = (assembled s s.mem.pduIn).complete .ok := by
  rw [exec_assemble_of_check hcheck] at h
  obtain ⟨lenByte, hlen, h⟩ := withRead_next h
  obtain ⟨-, rfl⟩ := Memory.readBytes_ok_iff.1 hlen
  obtain ⟨pdu, hpdu, h⟩ := withRead_next h
  obtain ⟨-, rfl⟩ := Memory.readBytes_ok_iff.1 hpdu
  cases h
  rfl

theorem exec_assemble_next (h : exec .assemble s = .next t) (hok : t.status.errCode = .ok) :
    assembleCheck s.cfg = .ok ∧ t = (assembled s s.mem.pduIn).complete .ok := by
  have hcheck : assembleCheck s.cfg = .ok := (guarded_next_of_ok h hok).1
  exact ⟨hcheck, eq_of_exec_assemble hcheck h⟩

theorem phyMode_lt_of_assembleCheck {c : CfgRegs} (h : assembleCheck c = .ok) :
    c.phycfg.phyMode.toNat < 2 := by
  by_contra hphy
  rw [assembleCheck_badPhy (by omega)] at h
  cases h

theorem packetStream_pduIn_length_le (c : CfgRegs) (m : Memory) :
    (packetStream c m.pduIn).length ≤ 2128 := by
  have hlen := (m.byte (Config.pduInBase + 1)).isLt
  have hpre := c.phycfg.preambleLen_le
  rw [packetStream_pduIn_length]
  omega

/-- The packet stands in `TXBIT` from its first bit on. -/
theorem assembled_bit (hwf : s.mem.wf = true) (pdu : List Byte) {j : Nat}
    (hj : j < (packetStream s.cfg pdu).length) :
    (assembled s pdu).mem.bit Config.txbitBase j = (packetStream s.cfg pdu).getD j false
      ∧ (assembled s pdu).mem.bitWritten Config.txbitBase j = true := by
  have h := Memory.bit_writeBits_at hwf Config.txbitBase 0 hj
  rwa [Nat.zero_add, ← assembled_mem] at h

/-- The waveform of a bit stream does not depend on how many bits `TX_NBITS` says it has. -/
theorem CfgRegs.modulated_withTxNbits (c : CfgRegs) (n : Word) (bits : List Bool) :
    CfgRegs.modulated { c with txNbits := n } bits = c.modulated bits := rfl

end

/-- The pattern at the beginning of a stream is its first hit. -/
theorem findSync_of_pattern (aa : Word) (p : PhyCfg) (rest : List Bool) :
    findSync (syncPattern aa p ++ rest) (syncPattern aa p) = some 0 := by
  have hself (l : List Bool) (rest : List Bool) : mismatches (l ++ rest) l = 0 := by
    induction l with
    | nil => simp [mismatches]
    | cons b l ih => rw [List.cons_append, mismatches_cons, ih, Bool.xor_self]; rfl
  refine findSync_eq_some_iff.2 ⟨by simp, ?_, fun i hi => absurd hi (Nat.not_lt_zero i)⟩
  rw [List.drop_zero, isHit_iff (by simp), hself]
  exact Nat.zero_le _

/-! ### After MODULATE -/

section

variable {s t : State}

/-- A MODULATE that ends with OK has stored the waveform of the bits it read. -/
theorem exec_modulate_next (h : exec .modulate s = .next t) (hok : t.status.errCode = .ok) :
    modulateCheck s.cfg = .ok ∧ t = (modulated s s.txBits).complete .ok := by
  obtain ⟨hcheck, h⟩ := guarded_next_of_ok h hok
  obtain ⟨bits, hbits, h⟩ := withRead_next h
  obtain ⟨-, rfl⟩ := Memory.readBits_ok_iff.1 hbits
  simp only [Nat.zero_add] at h
  cases h
  exact ⟨hcheck, rfl⟩

/-- Stored samples, read back as samples. -/
theorem samplesOf_storedBytes (k : Nat) {l : List Cx} {j : Nat} (hj : j < l.length) :
    (samplesOf (storedBytes k (partsOf l))).getD j cx0
      = { re := storedF64 (k + 2 * j) (l.getD j cx0).re
          im := storedF64 (k + 2 * j + 1) (l.getD j cx0).im } := by
  induction l generalizing k j with
  | nil => exact absurd hj (Nat.not_lt_zero j)
  | cons z l ih =>
    rw [partsOf_cons, storedBytes, storedBytes, ← List.append_assoc,
      samplesOf_append (bytesOfDWord_length _) (bytesOfDWord_length _), dwordOfBytes_bytesOfDWord,
      dwordOfBytes_bytesOfDWord]
    cases j with
    | zero => rfl
    | succ j =>
      rw [List.getD_cons_succ, ih _ (Nat.lt_of_succ_lt_succ hj), List.getD_cons_succ,
        show k + 1 + 1 + 2 * j = k + 2 * (j + 1) by omega]

/-- DEMODULATE whose samples can be read completes. -/
theorem exec_demodulate_completes {bytes : List Byte} (hstage : s.status.stage = .start)
    (hcheck : demodulateCheck s.cfg = .ok) (hread : s.iqBytes = .ok bytes) :
    ∃ u, exec .demodulate s = .next u ∧ Completed s u .ok := by
  obtain ⟨u, hu, hdone⟩ := demodRun_completes (n := 9)
    (s := s.advance (startWork (samplesOf bytes)) .freqSync)
    (show Stage.stagesLeft .freqSync ≠ 10 by decide) (show Stage.stagesLeft .freqSync ≤ 9 by decide)
  rw [exec_demodulate_of_start hstage hcheck, hread, withRead_ok]
  exact ⟨u, hu, (advancedTo_advance ..).completed hdone⟩

end

end Sys2Proof.Machine
end

section
/-! The statements of commands one after the other (70_reset_and_hazards.md section 4; 40_framing.md
section 4; 43_demodulator.md section 6). -/

namespace Sys2Proof.Proofs

open Sys2Proof.Machine

/-- Settles O26: MODULATE reads back the bits that ASSEMBLE wrote (`assembled_bit`) and stores their
waveform (`modulated_storedAs`). -/
theorem modulateAfterAssembleSendsThePacket : Obligations.ModulateAfterAssembleSendsThePacket := by
  unfold Obligations.ModulateAfterAssembleSendsThePacket
  intro s t pdu hwf hregs hexec hok hpdu hcheck
  replace hpdu : pdu = s.mem.pduIn := hpdu
  subst hpdu
  obtain ⟨-, rfl⟩ := exec_assemble_next hexec hok
  have hshort := packetStream_pduIn_length_le s.cfg s.mem
  generalize hu : ((assembled s s.mem.pduIn).complete .ok).accept (encode .modulate) = u
  have hcfg : u.cfg
      = { s.cfg with txNbits := BitVec.ofNat 32 (packetStream s.cfg s.mem.pduIn).length } := by
    rw [← hu, State.accept_cfg, State.complete_regs, assembled_regs, hregs]
  have hmem : u.mem = (assembled s s.mem.pduIn).mem := by rw [← hu]; rfl
  have hbits : u.cfg.txNbits.toNat = (packetStream s.cfg s.mem.pduIn).length := by
    rw [hcfg, BitVec.toNat_ofNat, Nat.mod_eq_of_lt (by omega)]
  have htx : u.txBits = packetStream s.cfg s.mem.pduIn := by
    refine list_ext_getD false (by rw [State.txBits_length, hbits]) fun j hj => ?_
    rw [State.txBits_length] at hj
    rw [State.txBits, range_map_getD _ _ _ _ hj, hmem]
    exact (assembled_bit hwf _ (by rwa [← hbits])).1
  have hwave : u.cfg.modulated u.txBits = s.cfg.modulated (packetStream s.cfg s.mem.pduIn) := by
    rw [htx, hcfg, CfgRegs.modulated_withTxNbits]
  have hoff : u.cfg.iqOff = s.cfg.iqOff := by rw [hcfg]
  have hwf' : u.mem.wf = true := by
    rw [hmem, assembled_mem]
    exact Memory.wf_writeBits hwf ..
  have hmodulate := exec_modulate_of_written (s := u) (by rw [← hu]; exact hcheck) fun j hj => by
    rw [hmem]
    exact (assembled_bit hwf _ (by rwa [← hbits])).2
  refine ⟨_, hmodulate, completed_complete u _ .ok (modulated_status ..) (modulated_irqEn ..),
    fun j hj => ?_⟩
  rw [← hwave] at hj ⊢
  rw [← hoff]
  exact modulated_storedAs hwf' hj

/-- Settles O27: DEMODULATE reads back the samples that MODULATE stored (`samplesOf_storedBytes`). -/
theorem demodulateAfterModulateCompletes : Obligations.DemodulateAfterModulateCompletes := by
  unfold Obligations.DemodulateAfterModulateCompletes
  intro s t bits hwf hregs hexec hok hbits hcheck
  replace hbits : bits = s.txBits := hbits
  subst hbits
  obtain ⟨hmod, rfl⟩ := exec_modulate_next hexec hok
  have hlen : (s.cfg.modulated s.txBits).length = s.cfg.modulatedLen :=
    modulated_length_of_check hmod s.txBits_length
  obtain ⟨-, -, -, -, -, hroom⟩ := modulateCheck_eq_ok_iff.1 hmod
  generalize hu : ((modulated s s.txBits).complete .ok).accept (encode .demodulate) = u
  have hcfg : u.cfg = { s.cfg with iqNsamp := BitVec.ofNat 32 s.cfg.modulatedLen } := by
    rw [← hu, State.accept_cfg, State.complete_regs, modulated_regs, hregs]
  have hmem : u.mem = (modulated s s.txBits).mem := by rw [← hu]; rfl
  have hnsamp : u.cfg.iqNsamp.toNat = s.cfg.modulatedLen := by
    rw [hcfg, BitVec.toNat_ofNat, Nat.mod_eq_of_lt (by omega)]
  have hoff : u.cfg.iqOff = s.cfg.iqOff := by rw [hcfg]
  generalize hbytes : storedBytes s.draws (partsOf (s.cfg.modulated s.txBits)) = bytes
  have hcount : bytes.length = 16 * s.cfg.modulatedLen := by
    rw [← hbytes, storedBytes_length, partsOf_length, hlen]
    omega
  have hread : u.iqBytes = .ok bytes := by
    rw [State.iqBytes, hnsamp, hoff, hmem]
    refine Memory.readBytes_ok_iff.2 ⟨fun i hi => modulated_mask hwf (by rwa [hlen]), ?_⟩
    rw [modulated_mem, hbytes, ← hcount, Memory.bytes_writeBytes hwf]
  have hstage : u.status.stage = .start := by rw [← hu]; rfl
  refine ⟨⟨bytes, hread, ?_, hlen, fun j hj => ?_⟩,
    exec_demodulate_completes hstage (by rw [← hu]; exact hcheck) hread⟩
  · rw [samplesOf_length, hcount]
    omega
  · rw [← hbytes, samplesOf_storedBytes _ (by rwa [hlen])]
    exact ⟨storedAs_stored .., storedAs_stored ..⟩

/-- Settles O28: AA_DETECT reads back the packet, which begins with the pattern
(`findSync_of_pattern`). -/
theorem aaDetectFindsAnAssembledPacket : Obligations.AaDetectFindsAnAssembledPacket := by
  unfold Obligations.AaDetectFindsAnAssembledPacket
  intro s t hwf hregs hoff hexec hok hlen
  obtain ⟨hcheck, rfl⟩ := exec_assemble_next hexec hok
  have hshort := packetStream_pduIn_length_le s.cfg s.mem
  generalize hpdu : s.mem.pduIn = pdu at *
  generalize hu : ((assembled s pdu).complete .ok).accept (encode .aaDetect) = u
  have hcfg : u.cfg
      = { s.cfg with txNbits := BitVec.ofNat 32 (packetStream s.cfg pdu).length } := by
    rw [← hu, State.accept_cfg, State.complete_regs, assembled_regs, hregs]
  have hmem : u.mem = (assembled s pdu).mem := by rw [← hu]; rfl
  have hoplen : u.cfg.opLen.toNat = (packetStream s.cfg pdu).length := by
    rw [hcfg]
    refine hlen.trans ?_
    rw [State.complete_regs, assembled_regs, BitVec.toNat_ofNat, Nat.mod_eq_of_lt (by omega)]
  have hopoff : u.cfg.opOff.toNat = 0 := by rw [hcfg]; exact congrArg BitVec.toNat hoff
  have hbit (j : Nat) (hj : j < u.cfg.opLen.toNat) :=
    assembled_bit hwf pdu (j := j) (by rwa [← hoplen])
  have hbits : u.opBits = packetStream s.cfg pdu := by
    refine list_ext_getD false (by rw [State.opBits_length, hoplen]) fun j hj => ?_
    rw [State.opBits_length] at hj
    rw [State.opBits_getD _ hj, hopoff, Nat.zero_add, hmem]
    exact (hbit j hj).1
  have hphy : u.cfg.phycfg = s.cfg.phycfg := by rw [hcfg]
  have haa : u.cfg.accessAddr = s.cfg.accessAddr := by rw [hcfg]
  have hmode : u.cfg.phycfg.phyMode.toNat < 2 := by
    rw [hphy]
    exact phyMode_lt_of_assembleCheck hcheck
  have hdetect := exec_aaDetect_of_written (aaDetectCheck_ok hmode (by omega)) fun j hj => by
    rw [hopoff, Nat.zero_add, hmem]
    exact (hbit j hj).2
  have hhit : findSync u.opBits (syncPattern u.cfg.accessAddr u.cfg.phycfg) = some 0 := by
    rw [hbits, hphy, haa, packetStream_eq]
    exact findSync_of_pattern ..
  have haddress := receivedAa_packetStream s.cfg [] [] pdu
  rw [List.nil_append, List.append_nil, List.length_nil] at haddress
  rw [aaResults_of_some _ hhit] at hdetect
  refine ⟨_, hdetect, completed_complete u _ .ok rfl rfl, aaFlags_toWord true, rfl, ?_⟩
  show receivedAa u.cfg.phycfg u.opBits 0 = s.cfg.accessAddr
  rw [hbits, hphy, haddress]

end Sys2Proof.Proofs
end

section
/-! SUPPORT. The front end formula by formula (43_demodulator.md R312 to R327). -/

namespace Sys2Proof.Machine

/-- A list function by places. -/
theorem map_eq_range_map {α β : Type} (l : List α) (d : α) (f : α → β) :
    l.map f = (List.range l.length).map fun n => f (l.getD n d) := by
  refine List.ext_getElem (by simp) fun n hn _ => ?_
  have hn : n < l.length := by simpa using hn
  simp [List.getD_eq_getElem?_getD, hn]

theorem lagProducts_eq (x : List Cx) :
    lagProducts x
      = (List.range (x.length - 1)).map fun n => cmul (x.getD (n + 1) cx0) (conj (x.getD n cx0)) := by
  refine List.ext_getElem (by simp) fun n hn _ => ?_
  have hn : n < x.length - 1 := by simpa using hn
  have h0 : n < x.length := by omega
  have h1 : n + 1 < x.length := by omega
  simp [lagProducts, List.getD_eq_getElem?_getD, h0, h1]

theorem compensate_getD (c : CfgRegs) (fhat : F64) (x : List Cx) {n : Nat} (hn : n < x.length) :
    (compensate c fhat x).getD n cx0
      = cmul (x.getD n cx0)
          (expj (fdiv (fmul (fmul (fneg ftwoPi) fhat) (fofNat n)) c.fs)) := by
  simp [compensate, List.getD_eq_getElem?_getD, hn]

theorem trackFn_getD (c : CfgRegs) (y : List Cx) {n : Nat} (hn : n < y.length) :
    (trackFn c y).getD n cx0
      = Config.trackSample (trackBw c, trackAlpha c, trackBeta c) y
          (c.sps, c.sampleRate.toNat, c.phycfg.symbolRate) n :=
  range_map_getD _ _ _ _ hn

theorem discriminate_getD (y : List Cx) {n : Nat} (hn : n < y.length - 1) :
    (discriminate y).getD n f0 = arg (cmul (y.getD (n + 1) cx0) (conj (y.getD n cx0))) := by
  rw [discriminate, lagProducts_eq, List.map_map, range_map_getD _ _ _ _ hn]
  rfl

/-- The samples the discriminator gets: compensated, and tracked where tracking is on. -/
theorem frontEnd_y (c : CfgRegs) (x : List Cx) :
    (frontEnd c x).y
      = if c.phycfg.trackEn then trackFn c (compensate c (frontEnd c x).fhat x)
        else compensate c (frontEnd c x).fhat x := rfl

theorem frontEnd_rssi (c : CfgRegs) (x : List Cx) : (frontEnd c x).rssi = rssiOf x := rfl

theorem rssiOf_eq (x : List Cx) :
    rssiOf x
      = fmul f10 (Config.log10 (fadd
          (if x.length = 0 then f0
           else fdiv
            (fsum ((List.range x.length).map fun n =>
              fadd (fmul (x.getD n cx0).re (x.getD n cx0).re)
                (fmul (x.getD n cx0).im (x.getD n cx0).im)))
            (fofNat x.length))
          frssiEps)) := by
  rw [rssiOf, map_eq_range_map x cx0]

/-- The front end of the model follows its formulas. -/
theorem frontEnd_frontEndOf {c : CfgRegs} (hsps : 0 < c.sps) (x : List Cx) :
    FrontEndOf c x (frontEnd c x) where
  rssi := (frontEnd_rssi c x).trans (rssiOf_eq x)
  fhat := by rw [frontEnd_fhat, carrierEstimate, lagProducts_eq]
  yLength := frontEnd_y_length c x
  y := by
    refine ⟨compensate c (frontEnd c x).fhat x, compensate_length .., fun n hn =>
      compensate_getD _ _ _ hn, fun htrack => ?_, fun htrack => ⟨_, _, _, rfl, rfl, rfl, fun n hn => ?_⟩⟩
    · rw [frontEnd_y, if_neg (by rw [htrack]; exact Bool.false_ne_true)]
    · rw [frontEnd_y, if_pos htrack, trackFn_getD _ _ (by rwa [compensate_length])]
      rfl
  dLength := frontEnd_d_length c x
  d n hn := by
    rw [frontEnd_d, discriminate_getD _ (by rwa [frontEnd_y_length])]
  z := by
    refine ⟨c.filter, rfl, ?_, fun n hn => ?_⟩
    · rw [frontEnd_z, conv_length (CfgRegs.filter_ne_nil hsps)]
    · rw [frontEnd_z] at hn ⊢
      rw [conv_getD hn, convAt]
  pstar := ⟨frontEnd_pstar c x, fun p => by rw [phaseEnergy, phaseSamples, List.map_map]; rfl⟩
  r := frontEnd_r c x
  bits := frontEnd_bits c x

/-- The back end works on what the front end has computed. -/
theorem pipeline_work (c : CfgRegs) (x : List Cx) :
    ∃ pos w, (pipeline c x).1 = { frontEnd c x with pos := pos, w := w } := by
  cases hhit : findSync (frontEnd c x).bits (syncPattern c.accessAddr c.phycfg) with
  | none =>
    rw [pipeline_of_none hhit]
    exact ⟨_, _, rfl⟩
  | some pos =>
    rw [pipeline_of_some hhit]
    rcases backEnd_cases c { frontEnd c x with pos := pos } with
      ⟨-, hend⟩ | ⟨-, -, hend⟩ | ⟨-, -, hend⟩ <;> rw [hend] <;> exact ⟨_, _, rfl⟩

theorem pipeline_frontEndOf {c : CfgRegs} (hsps : 0 < c.sps) (x : List Cx) :
    FrontEndOf c x (pipeline c x).1 := by
  obtain ⟨pos, w, hk⟩ := pipeline_work c x
  have h := frontEnd_frontEndOf hsps x
  rw [hk]
  exact ⟨h.rssi, h.fhat, h.yLength, h.y, h.dLength, h.d, h.z, h.pstar, h.r, h.bits⟩

theorem pipeline_bits (c : CfgRegs) (x : List Cx) :
    (pipeline c x).1.bits = (frontEnd c x).bits := by
  obtain ⟨pos, w, hk⟩ := pipeline_work c x
  rw [hk]

theorem pipeline_legal (c : CfgRegs) (x : List Cx) : (pipeline c x).2.Legal := by
  cases hhit : findSync (frontEnd c x).bits (syncPattern c.accessAddr c.phycfg) with
  | none =>
    rw [pipeline_of_none hhit]
    exact exitNoSync_legal
  | some pos =>
    rw [pipeline_of_some hhit]
    rcases backEnd_cases c { frontEnd c x with pos := pos } with
      ⟨-, hend⟩ | ⟨-, -, hend⟩ | ⟨-, -, hend⟩ <;> rw [hend]
    · exact exitShort_legal ..
    · exact exitTruncated_legal ..
    · exact exitFull_legal ..

/-! ### The samples (20_memory.md R103) -/

theorem samplesOf_getD {l : List Byte} {n : Nat} (hn : n < l.length / 16) :
    (samplesOf l).getD n cx0
      = { re := dwordOfBytes ((l.drop (16 * n)).take 8)
          im := dwordOfBytes ((l.drop (16 * n + 8)).take 8) } := by
  induction n generalizing l with
  | zero =>
    rw [samplesOf_of_le_length (by omega)]
    rfl
  | succ n ih =>
    rw [samplesOf_of_le_length (by omega), List.getD_cons_succ,
      ih (by rw [List.length_drop]; omega), List.drop_drop, List.drop_drop]
    congr 4 <;> omega

theorem take_drop_range_map {α : Type} (f : Nat → α) {i k n : Nat} (h : i + k ≤ n) :
    (((List.range n).map f).drop i).take k = (List.range k).map fun j => f (i + j) := by
  refine List.ext_getElem (by simp; omega) fun j hj _ => ?_
  simp

/-- Sample `n` read from memory is the pair of binary64 values at its place. -/
theorem samplesOf_range_map_getD (m : Memory) (a : Nat) {n count : Nat} (hn : n < count) :
    (samplesOf ((List.range (16 * count)).map fun j => m.byte (a + j))).getD n cx0
      = { re := m.dword (a + 16 * n), im := m.dword (a + 16 * n + 8) } := by
  rw [samplesOf_getD (by rw [List.length_map, List.length_range]; omega),
    take_drop_range_map _ (by omega), take_drop_range_map _ (by omega), Memory.dword, Memory.dword]
  simp only [Nat.add_assoc]

end Sys2Proof.Machine
end

section
/-! SUPPORT. DEMODULATE run to completion from any of its stages (43_demodulator.md R310, R340): the
results are those of the whole pipeline. -/

namespace Sys2Proof.Machine

/-- The buffers when DEMODULATE comes to its exit: from S_BIT_DECISION on the decided bits are
written. -/
def State.decidedMem (s : State) (c : CfgRegs) (x : List Cx) : Memory :=
  if 5 ≤ s.status.stage.stagesLeft then
    s.mem.writeBits Config.rxbitBase 0 (paddedBits (frontEnd c x).bits)
  else s.mem

/-- The state in which a DEMODULATE of the samples `x` with the snapshot `c` completes. -/
def State.pipelined (s : State) (c : CfgRegs) (x : List Cx) : State :=
  State.complete
    { s with
      mem := (s.decidedMem c x).writeBytes Config.pduOutBase (pipeline c x).2.pdu
      res := exitResults c (pipeline c x).1 (pipeline c x).2 s.draws s.res
      draws := s.draws + 2 } .ok

/-- `u` is the next stage of the DEMODULATE of `s`, on the way to the same completion. -/
structure PipelineStep (c : CfgRegs) (x : List Cx) (s u : State) : Prop where
  running : ∃ q, u.running = some q ∧ q.cfg = c ∧ workAt c x u.status.stage = some q.work
  stage : u.status.stage.stagesLeft + 1 = s.status.stage.stagesLeft
  completion : u.pipelined c x = s.pipelined c x

section

variable {s : State} {c : CfgRegs} {x : List Cx}

/-- A stage that only computes. -/
theorem pipelineStep_advance {k : Work} {g : Stage} (hcfg : s.cfg = c)
    (hk : workAt c x g = some k) (hleft : g.stagesLeft + 1 = s.status.stage.stagesLeft)
    (hnot : g.stagesLeft ≠ 4) : PipelineStep c x s (s.advance k g) where
  running := ⟨_, rfl, hcfg, hk⟩
  stage := hleft
  completion := by
    have hmem : (s.advance k g).decidedMem c x = s.decidedMem c x := by
      have hiff : 5 ≤ g.stagesLeft ↔ 5 ≤ s.status.stage.stagesLeft := by omega
      simp only [State.decidedMem, State.advance_status, State.advance_mem, hiff]
    rw [State.pipelined, State.pipelined, hmem]
    rfl

/-- An exit with the pipeline's work and results, after the decided bits have been written. -/
theorem demodExit_eq_pipelined {k : Work} {e : DemodExit} (hcfg : s.cfg = c)
    (hleft : s.status.stage.stagesLeft < 5) (hp : pipeline c x = (k, e)) :
    demodExit s k e = s.pipelined c x := by
  have hmem : s.decidedMem c x = s.mem := if_neg (by omega)
  rw [State.pipelined, hmem, hp, ← hcfg]
  rfl

/-- DEMODULATE comes to S_CRC_CHECK after a hit with all the announced bytes. -/
theorem workAt_crcCheck {k : Work} (h : workAt c x .crcCheck = some k) :
    ∃ pos, findSync (frontEnd c x).bits (syncPattern c.accessAddr c.phycfg) = some pos
      ∧ dewhitenWork c { frontEnd c x with pos := pos } = k
      ∧ k.isShort = false ∧ k.isTruncated = false := by
  unfold workAt at h
  cases hhit : findSync (frontEnd c x).bits (syncPattern c.accessAddr c.phycfg) with
  | none => simp [hhit] at h
  | some pos =>
    simp only [hhit, Option.map_some] at h
    split at h
    case isTrue => cases h
    case isFalse hlong =>
      cases h
      rw [Bool.or_eq_true, not_or, Bool.not_eq_true, Bool.not_eq_true] at hlong
      exact ⟨pos, rfl, rfl, hlong.1, hlong.2⟩

/-- What a stage of the DEMODULATE of `s` comes to: its completion, or a step on the way there. -/
def ComesTo (c : CfgRegs) (x : List Cx) (s u : State) : Prop :=
  u = s.pipelined c x ∨ PipelineStep c x s u

/-- S_PACKET_SYNC (43_demodulator.md R330, R331). -/
theorem demodPacketSync_comesTo {r : Running} (hr : s.running = some r)
    (hg : s.status.stage = .packetSync) (hk : frontEnd r.cfg x = r.work) :
    ComesTo r.cfg x s (demodPacketSync s) := by
  have hcfg := State.cfg_of_running s r hr
  unfold demodPacketSync
  rw [hcfg, State.work_of_running s r hr, ← hk]
  cases hhit : findSync (frontEnd r.cfg x).bits
      (syncPattern r.cfg.accessAddr r.cfg.phycfg) with
  | none => exact .inl (demodExit_eq_pipelined hcfg (by rw [hg]; decide) (pipeline_of_none hhit))
  | some pos =>
    refine .inr (pipelineStep_advance hcfg ?_ (by rw [hg]; rfl) (by decide))
    simp only [workAt, hhit, Option.map_some]

/-- S_PARSE (43_demodulator.md R333). -/
theorem demodParse_comesTo {r : Running} {pos : Nat} (hr : s.running = some r)
    (hg : s.status.stage = .parse)
    (hhit : findSync (frontEnd r.cfg x).bits
      (syncPattern r.cfg.accessAddr r.cfg.phycfg) = some pos)
    (hk : dewhitenWork r.cfg { frontEnd r.cfg x with pos := pos } = r.work) :
    ComesTo r.cfg x s (demodParse s) := by
  have hcfg := State.cfg_of_running s r hr
  have hexit {e : DemodExit}
      (he : backEnd r.cfg { frontEnd r.cfg x with pos := pos } = (r.work, e)) :
      demodExit s r.work e = s.pipelined r.cfg x :=
    demodExit_eq_pipelined hcfg (by rw [hg]; decide) ((pipeline_of_some hhit).trans he)
  unfold demodParse
  rw [hcfg, State.work_of_running s r hr]
  have hcases := backEnd_cases r.cfg { frontEnd r.cfg x with pos := pos }
  rw [hk] at hcases
  rcases hcases with ⟨hshort, hend⟩ | ⟨hlong, htrunc, hend⟩ | ⟨hlong, hfull, hend⟩
  · rw [if_pos hshort]
    exact .inl (hexit hend)
  · rw [if_neg (by rw [hlong]; exact Bool.false_ne_true), if_pos htrunc]
    exact .inl (hexit hend)
  · rw [if_neg (by rw [hlong]; exact Bool.false_ne_true),
      if_neg (by rw [hfull]; exact Bool.false_ne_true)]
    refine .inr (pipelineStep_advance hcfg ?_ (by rw [hg]; rfl) (by decide))
    simp only [workAt, hhit, Option.map_some, hk]
    simp [hlong, hfull]

/-- S_CRC_CHECK (43_demodulator.md R337). -/
theorem demodCrcCheck_comesTo {r : Running} (hr : s.running = some r)
    (hg : s.status.stage = .crcCheck) (hwork : workAt r.cfg x .crcCheck = some r.work) :
    ComesTo r.cfg x s (demodExit s r.work (exitFull r.cfg r.work)) := by
  obtain ⟨pos, hhit, hk, hlong, hfull⟩ := workAt_crcCheck hwork
  have hcases := backEnd_cases r.cfg { frontEnd r.cfg x with pos := pos }
  rw [hk, hlong, hfull] at hcases
  have hend : backEnd r.cfg { frontEnd r.cfg x with pos := pos }
      = (r.work, exitFull r.cfg r.work) := by simpa using hcases
  exact .inl (demodExit_eq_pipelined (State.cfg_of_running s r hr) (by rw [hg]; decide)
    ((pipeline_of_some hhit).trans hend))

/-- One stage of a DEMODULATE: to the next one, or to completion with the pipeline's results. -/
theorem demodStage_comesTo {r : Running} (hr : s.running = some r)
    (hwork : workAt r.cfg x s.status.stage = some r.work) :
    ∃ u, demodStage s = .next u ∧ ComesTo r.cfg x s u := by
  have hcfg := State.cfg_of_running s r hr
  have hkw := State.work_of_running s r hr
  cases hg : s.status.stage with
  | freqSync =>
    rw [hg] at hwork; rw [demodStage, hg, hcfg, hkw]
    exact ⟨_, rfl, .inr <| pipelineStep_advance hcfg
      (congrArg (some <| freqSyncWork r.cfg ·) (Option.some.inj hwork)) (by rw [hg]; rfl) (by decide)⟩
  | demod =>
    rw [hg] at hwork; rw [demodStage, hg, hkw]
    exact ⟨_, rfl, .inr <| pipelineStep_advance hcfg
      (congrArg (some <| demodWork ·) (Option.some.inj hwork)) (by rw [hg]; rfl) (by decide)⟩
  | filter =>
    rw [hg] at hwork; rw [demodStage, hg, hcfg, hkw]
    exact ⟨_, rfl, .inr <| pipelineStep_advance hcfg
      (congrArg (some <| filterWork r.cfg ·) (Option.some.inj hwork)) (by rw [hg]; rfl) (by decide)⟩
  | timingSync =>
    rw [hg] at hwork; rw [demodStage, hg, hcfg, hkw]
    exact ⟨_, rfl, .inr <| pipelineStep_advance hcfg
      (congrArg (some <| timingWork r.cfg ·) (Option.some.inj hwork)) (by rw [hg]; rfl) (by decide)⟩
  | bitDecision =>
    rw [hg] at hwork; rw [demodStage, hg, hkw]
    have hkend : frontEnd r.cfg x = decisionWork r.work :=
      congrArg decisionWork (Option.some.inj hwork)
    have hmem : s.decidedMem r.cfg x
        = s.mem.writeBits Config.rxbitBase 0 (paddedBits (decisionWork r.work).bits) := by
      rw [State.decidedMem, hg, hkend]
      rfl
    refine ⟨_, rfl, .inr ⟨⟨_, rfl, hcfg, congrArg some hkend⟩, by rw [hg]; rfl, ?_⟩⟩
    rw [State.pipelined, State.pipelined, hmem]
    rfl
  | packetSync =>
    rw [hg] at hwork; rw [demodStage, hg]
    exact ⟨_, rfl, demodPacketSync_comesTo hr hg (Option.some.inj hwork)⟩
  | dewhiten =>
    rw [hg] at hwork; rw [demodStage, hg, hcfg, hkw]
    obtain ⟨pos, hhit, hk⟩ := Option.map_eq_some_iff.1 hwork
    refine ⟨_, rfl, .inr <| pipelineStep_advance hcfg ?_ (by rw [hg]; rfl) (by decide)⟩
    simp only [workAt, hhit, Option.map_some, hk]
  | parse =>
    rw [hg] at hwork; rw [demodStage, hg]
    obtain ⟨pos, hhit, hk⟩ := Option.map_eq_some_iff.1 hwork
    exact ⟨_, rfl, demodParse_comesTo hr hg hhit hk⟩
  | crcCheck =>
    rw [hg] at hwork; rw [demodStage, hg, hcfg, hkw]
    exact ⟨_, rfl, demodCrcCheck_comesTo hr hg hwork⟩
  | start | idle | done | exec => rw [hg] at hwork; cases hwork

/-- A DEMODULATE in one of its stages, run to completion. -/
theorem demodRun_pipelined {n : Nat} {r : Running} (hr : s.running = some r)
    (hwork : workAt r.cfg x s.status.stage = some r.work) (hn : s.status.stage.stagesLeft ≤ n) :
    demodRun n s = .next (s.pipelined r.cfg x) := by
  induction n generalizing s r with
  | zero =>
    have := s.status.stage.stagesLeft_pos
    omega
  | succ n ih =>
    obtain ⟨u, hu, rfl | hstep⟩ := demodStage_comesTo hr hwork
    · exact demodRun_done hu rfl
    · obtain ⟨q, hq, hcfg, hk⟩ := hstep.running
      have hleft := hstep.stage
      rw [demodRun_step hu (by rw [hq]; rfl), ← hstep.completion, ← hcfg]
      rw [← hcfg] at hk
      exact ih hq hk (by omega)

end

end Sys2Proof.Machine
end

section
/-! SUPPORT. What stands in the registers and in the buffers when DEMODULATE has completed
(43_demodulator.md R340). -/

namespace Sys2Proof.Machine

section

variable (s : State) (c : CfgRegs) (x : List Cx)

@[simp] theorem State.pipelined_regs : (s.pipelined c x).regs = s.regs := by
  unfold State.pipelined; rfl

@[simp] theorem State.pipelined_res :
    (s.pipelined c x).res
      = exitResults c (pipeline c x).1 (pipeline c x).2 s.draws s.res := by
  unfold State.pipelined; rfl

@[simp] theorem State.pipelined_mem :
    (s.pipelined c x).mem
      = (s.decidedMem c x).writeBytes Config.pduOutBase (pipeline c x).2.pdu := by
  unfold State.pipelined; rfl

theorem State.pipelined_completed : Completed s (s.pipelined c x) .ok :=
  completed_complete s _ .ok rfl rfl

/-- The result registers of an exit, RSSI and frequency aside. -/
theorem exitResults_eq (k : Work) (e : DemodExit) (n : Nat) (old : Results) :
    exitResults c k e n old
      = { flags := e.flags
          timing := BitVec.ofNat 32 k.pstar
          syncPos := BitVec.ofNat 32 e.syncPos
          aa := e.aa
          hdr0 := e.hdr0
          hdr1 := e.hdr1
          pduLen := BitVec.ofNat 32 e.pdu.length
          nbits := BitVec.ofNat 32 k.bits.length
          crc := e.crc
          crcRx := e.crcRx
          sps := BitVec.ofNat 32 c.sps
          coefLen := old.coefLen
          rssi := (exitResults c k e n old).rssi
          freq := (exitResults c k e n old).freq } := rfl

end

section

variable {s : State} {c : CfgRegs} {x : List Cx}

theorem State.decidedMem_wf (h : s.mem.wf = true) : (s.decidedMem c x).wf = true := by
  unfold State.decidedMem
  split
  · exact Memory.wf_writeBits h ..
  · exact h

/-- `PDU_OUT` holds the output PDU, written last. -/
theorem State.pipelined_pdu (h : s.mem.wf = true) {j : Nat} (hj : j < (pipeline c x).2.pdu.length) :
    (s.pipelined c x).mem.byte (Config.pduOutBase + j) = (pipeline c x).2.pdu.getD j 0
      ∧ (s.pipelined c x).mem.mask (Config.pduOutBase + j) = 0xFF := by
  rw [State.pipelined_mem, Memory.byte_writeBytes (State.decidedMem_wf h),
    Memory.mask_writeBytes (State.decidedMem_wf h), if_pos (by omega), if_pos (by omega),
    Nat.add_sub_cancel_left]
  exact ⟨rfl, rfl⟩

theorem Memory.bit_writeBytes_of_outside {m : Memory} (h : m.wf = true) {a base j : Nat}
    {l : List Byte} (hout : a + l.length ≤ base + j / 8) :
    (m.writeBytes a l).bit base j = m.bit base j
      ∧ (m.writeBytes a l).bitWritten base j = m.bitWritten base j := by
  rw [Memory.bit, Memory.bit, Memory.bitWritten, Memory.bitWritten, Memory.byte_writeBytes h,
    Memory.mask_writeBytes h, if_neg (by omega), if_neg (by omega)]
  exact ⟨rfl, rfl⟩

theorem paddedBits_getD (l : List Bool) (j : Nat) : (paddedBits l).getD j false = l.getD j false := by
  unfold paddedBits
  by_cases hj : j < l.length
  · exact List.getD_append _ _ _ _ hj
  · rw [List.getD_append_right _ _ _ _ (by omega), getD_default l j false (by omega)]
    simp only [List.getD_eq_getElem?_getD, List.getElem?_replicate]
    split <;> rfl

/-- `RXBIT` holds the decided bits, the last byte filled up with zeros. -/
theorem State.pipelined_rxbit (h : s.mem.wf = true) (hleft : 5 ≤ s.status.stage.stagesLeft) {j : Nat}
    (hj : j < 8 * (((pipeline c x).1.bits.length + 7) / 8)) :
    (s.pipelined c x).mem.bit Config.rxbitBase j = (pipeline c x).1.bits.getD j false
      ∧ (s.pipelined c x).mem.bitWritten Config.rxbitBase j = true := by
  have hdecided : s.decidedMem c x
      = s.mem.writeBits Config.rxbitBase 0 (paddedBits (pipeline c x).1.bits) := by
    rw [State.decidedMem, if_pos hleft, pipeline_bits]
  have hpdu := (pipeline_legal c x).pduLen
  have hbase : Config.pduOutBase + 255 ≤ Config.rxbitBase := by decide
  obtain ⟨hbit, hmark⟩ := Memory.bit_writeBytes_of_outside (State.decidedMem_wf (c := c) (x := x) h)
    (a := Config.pduOutBase) (base := Config.rxbitBase) (j := j) (l := (pipeline c x).2.pdu) (by omega)
  obtain ⟨hvalue, hwritten⟩ := Memory.bit_writeBits_at h Config.rxbitBase 0
    (l := paddedBits (pipeline c x).1.bits) (j := j) (by rwa [paddedBits_length])
  rw [Nat.zero_add, ← hdecided] at hvalue hwritten
  rw [State.pipelined_mem, hbit, hmark, hvalue, hwritten, paddedBits_getD]
  exact ⟨rfl, rfl⟩

/-- DEMODULATE writes nothing but its bits and its PDU. -/
theorem State.pipelined_outside (h : s.mem.wf = true) (hleft : 5 ≤ s.status.stage.stagesLeft) :
    Memory.SameOutside
      [ ⟨Config.rxbitBase, 0, 8 * (((pipeline c x).1.bits.length + 7) / 8)⟩
      , ⟨Config.pduOutBase, 0, 8 * (pipeline c x).2.pdu.length⟩ ] s.mem (s.pipelined c x).mem := by
  have hdecided : s.decidedMem c x
      = s.mem.writeBits Config.rxbitBase 0 (paddedBits (pipeline c x).1.bits) := by
    rw [State.decidedMem, if_pos hleft, pipeline_bits]
  have hbits := Memory.writeBits_outside h Config.rxbitBase 0 (paddedBits (pipeline c x).1.bits)
  rw [paddedBits_length, ← hdecided] at hbits
  rw [State.pipelined_mem]
  exact Memory.sameOutside_trans hbits (Memory.writeBytes_outside (State.decidedMem_wf h) _ _)

/-- DEMODULATE from its beginning gives what the pipeline gives for the samples it reads. -/
theorem exec_demodulate_pipelined {bytes : List Byte} (hstage : s.status.stage = .start)
    (hcheck : demodulateCheck s.cfg = .ok) (hread : s.iqBytes = .ok bytes) :
    exec .demodulate s = .next (s.pipelined s.cfg (samplesOf bytes)) := by
  have hstep : PipelineStep s.cfg (samplesOf bytes) s
      (s.advance (startWork (samplesOf bytes)) .freqSync) :=
    pipelineStep_advance rfl rfl (by rw [hstage]; rfl) (by decide)
  rw [exec_demodulate_of_start hstage hcheck, hread, withRead_ok, ← hstep.completion]
  exact demodRun_pipelined (r := ⟨s.commandWord, s.cfg, startWork (samplesOf bytes)⟩) rfl rfl
    (show Stage.stagesLeft .freqSync ≤ 9 by decide)

/-- Under the invariant a running DEMODULATE gives that from whatever stage it is in. -/
theorem State.Inv.exec_demodulate {r : Running} {bytes : List Byte} (h : s.Inv)
    (hr : s.running = some r) (hd : decode r.word = .instr .demodulate)
    (hcheck : demodulateCheck r.cfg = .ok) (hread : s.iqBytes = .ok bytes) :
    Machine.exec .demodulate s = .next (s.pipelined r.cfg (samplesOf bytes)) := by
  have hcfg := State.cfg_of_running s r hr
  rcases (State.runsWell_demodulate hd).1 (h.runs r hr) with
    ⟨hstart, -⟩ | ⟨-, bytes', hread', hwork⟩
  · rw [← hcfg] at hcheck ⊢
    exact exec_demodulate_pipelined hstart hcheck hread
  · cases hread.symm.trans hread'
    exact demodRun_pipelined hr hwork s.status.stage.stagesLeft_le

end

end Sys2Proof.Machine
end

section
/-! The statements of DEMODULATE (43_demodulator.md sections 1 to 3 and 5; 10_state.md sections 6 and
7). -/

namespace Sys2Proof.Proofs

open Sys2Proof.Machine

/-- Settles O22: the ten stages from the start are the pipeline (`exec_demodulate_pipelined`), whose
front end is `frontEnd_frontEndOf`. -/
theorem demodulateIsThePipeline : Obligations.DemodulateIsThePipeline := by
  unfold Obligations.DemodulateIsThePipeline
  intro s bytes k e hwf hstage hcheck hwritten hbytes hp
  obtain ⟨-, hsps, -⟩ := demodulateCheck_eq_ok_iff.1 hcheck
  have hread : s.iqBytes = .ok bytes := Memory.readBytes_ok_iff.2 ⟨hwritten, hbytes⟩
  obtain ⟨rfl, rfl⟩ : (pipeline s.cfg (samplesOf bytes)).1 = k
      ∧ (pipeline s.cfg (samplesOf bytes)).2 = e := by rw [hp]; exact ⟨rfl, rfl⟩
  have hleft : 5 ≤ s.status.stage.stagesLeft := by rw [hstage]; decide
  refine ⟨samplesOf_length_of_readBytes hread, fun n hn => ?_, pipeline_frontEndOf hsps _,
    s.pipelined s.cfg (samplesOf bytes), exec_demodulate_pipelined hstage hcheck hread,
    State.pipelined_completed .., State.pipelined_regs .., ?_, ?_, ?_,
    fun j hj => State.pipelined_rxbit hwf hleft hj, fun j hj => State.pipelined_pdu hwf hj,
    State.pipelined_outside hwf hleft⟩
  · rw [hbytes, samplesOf_range_map_getD _ _ hn]
    congr 2 <;> omega
  · rw [State.pipelined_res]
    exact exitResults_eq ..
  · rw [State.pipelined_res]
    exact storedAs_stored ..
  · rw [State.pipelined_res]
    exact storedAs_stored ..

/-- Settles O23: the invariant says what a running DEMODULATE has computed so far, and the stages left
complete it (`State.Inv.exec_demodulate`). -/
theorem interruptedDemodulateStillGivesThePipeline :
    Obligations.InterruptedDemodulateStillGivesThePipeline := by
  unfold Obligations.InterruptedDemodulateStillGivesThePipeline
  intro s r bytes k e hinv hr hword hcheck hread hp
  obtain ⟨rfl, rfl⟩ : (pipeline r.cfg (samplesOf bytes)).1 = k
      ∧ (pipeline r.cfg (samplesOf bytes)).2 = e := by rw [hp]; exact ⟨rfl, rfl⟩
  have hd : decode r.word = .instr .demodulate := by rw [hword, decode_encode]
  refine ⟨s.pipelined r.cfg (samplesOf bytes), hinv.exec_demodulate hr hd hcheck hread,
    State.pipelined_completed .., State.pipelined_regs .., ?_, ?_, ?_,
    fun j hj => State.pipelined_pdu hinv.memWf hj⟩
  · rw [State.pipelined_res]
    exact exitResults_eq ..
  · rw [State.pipelined_res]
    exact storedAs_stored ..
  · rw [State.pipelined_res]
    exact storedAs_stored ..

end Sys2Proof.Proofs
end

section
/-! SUPPORT. What a command leaves unchanged outside its output footprint (70_reset_and_hazards.md
R461). -/

namespace Sys2Proof.Machine

/-- `t` reads as `s` in every register but `STATUS` and those listed. -/
def SameRegsBut (l : List Reg) (s t : State) : Prop :=
  ∀ r : Reg, r ≠ .status → r ∉ l → t.reg r = s.reg r

section

variable {s t : State}

theorem sameRegsBut_modulate {n v : Word} (hirq : t.irqEn = s.irqEn)
    (hregs : t.regs = { s.regs with iqNsamp := n }) (hres : t.res = { s.res with sps := v }) :
    SameRegsBut (outputRegs .modulate) s t := by
  intro r hr hout
  cases r with
  | status => exact absurd rfl hr
  | iqNsamp | resSps => exact absurd (by decide) hout
  | _ => simp only [State.reg, hirq, hregs, hres]

theorem sameRegsBut_demodulate (hirq : t.irqEn = s.irqEn) (hregs : t.regs = s.regs)
    (hcoef : t.res.coefLen = s.res.coefLen) : SameRegsBut (outputRegs .demodulate) s t := by
  intro r hr hout
  cases r with
  | status => exact absurd rfl hr
  | resFlags | resTiming | resSyncPos | resAa | resHdr | resPduLen | resNbits | resCrc | resCrcRx
  | resSps | resRssiLo | resRssiHi | resFreqLo | resFreqHi => exact absurd (by decide) hout
  | _ => simp only [State.reg, hirq, hregs, hcoef]

theorem sameRegsBut_nil (hirq : t.irqEn = s.irqEn) (hregs : t.regs = s.regs) (hres : t.res = s.res) :
    SameRegsBut [] s t := by
  intro r hr _
  cases r with
  | status => exact absurd rfl hr
  | _ => simp only [State.reg, hirq, hregs, hres]

theorem sameRegsBut_crc24 {v : BitVec 24} (hirq : t.irqEn = s.irqEn) (hregs : t.regs = s.regs)
    (hres : t.res = { s.res with crc := v }) : SameRegsBut (outputRegs .crc24) s t := by
  intro r hr hout
  cases r with
  | status => exact absurd rfl hr
  | resCrc => exact absurd (by decide) hout
  | _ => simp only [State.reg, hirq, hregs, hres]

theorem sameRegsBut_assemble {n : Word} {v : BitVec 24} (hirq : t.irqEn = s.irqEn)
    (hregs : t.regs = { s.regs with txNbits := n }) (hres : t.res = { s.res with crc := v }) :
    SameRegsBut (outputRegs .assemble) s t := by
  intro r hr hout
  cases r with
  | status => exact absurd rfl hr
  | txNbits | resCrc => exact absurd (by decide) hout
  | _ => simp only [State.reg, hirq, hregs, hres]

theorem sameRegsBut_aaDetect {f : ResFlags} {p a : Word} (hirq : t.irqEn = s.irqEn)
    (hregs : t.regs = s.regs) (hres : t.res = { s.res with flags := f, syncPos := p, aa := a }) :
    SameRegsBut (outputRegs .aaDetect) s t := by
  intro r hr hout
  cases r with
  | status => exact absurd rfl hr
  | resFlags | resSyncPos | resAa => exact absurd (by decide) hout
  | _ => simp only [State.reg, hirq, hregs, hres]

theorem sameRegsBut_genPulse {n v : Word} (hirq : t.irqEn = s.irqEn) (hregs : t.regs = s.regs)
    (hres : t.res = { s.res with coefLen := n, sps := v }) :
    SameRegsBut (outputRegs .genPulse) s t := by
  intro r hr hout
  cases r with
  | status => exact absurd rfl hr
  | resCoefLen | resSps => exact absurd (by decide) hout
  | _ => simp only [State.reg, hirq, hregs, hres]

end

theorem Memory.sameOutside_refl (l : List BitSpan) (m : Memory) : Memory.SameOutside l m m :=
  fun _ _ _ _ => ⟨rfl, rfl⟩

/-- The output footprint of DEMODULATE, in terms of what it computes from its samples. -/
theorem outputSpans_demodulate {s : State} {bytes : List Byte} (hcheck : demodulateCheck s.cfg = .ok)
    (hread : s.iqBytes = .ok bytes) :
    outputSpans .demodulate s.cfg s.mem
      = [ ⟨Config.rxbitBase, 0,
            8 * (((pipeline s.cfg (samplesOf bytes)).1.bits.length + 7) / 8)⟩
        , ⟨Config.pduOutBase, 0, 8 * (pipeline s.cfg (samplesOf bytes)).2.pdu.length⟩ ] := by
  obtain ⟨-, hsps, -⟩ := demodulateCheck_eq_ok_iff.1 hcheck
  have hbits : (pipeline s.cfg (samplesOf bytes)).1.bits.length = s.cfg.symbolCount := by
    rw [pipeline_bits]
    exact frontEnd_bits_length_eq_symbolCount hsps (samplesOf_length_of_readBytes hread)
  have hpdu : demodPduLen s.cfg s.mem = (pipeline s.cfg (samplesOf bytes)).2.pdu.length := by
    have hread' : s.mem.readBytes (Config.iqBase + 16 * s.cfg.iqOff.toNat)
        (16 * s.cfg.iqNsamp.toNat) = .ok bytes := hread
    rw [demodPduLen, hread']
  rw [outputSpans, hbits, hpdu]

/-- A command whose checks pass writes only its output footprint. -/
theorem exec_frame {i : Instr} {s t : State} (hwf : s.mem.wf = true)
    (hstage : i = .demodulate → s.status.stage = .start) (hcheck : checkOf i s.cfg s.mem = .ok)
    (h : exec i s = .next t) :
    SameRegsBut (outputRegs i) s t
      ∧ Memory.SameOutside (outputSpans i s.cfg s.mem) s.mem t.mem := by
  cases i with
  | modulate =>
    rw [exec_modulate_of_check hcheck] at h
    obtain ⟨bits, hread, h⟩ := withRead_next h
    cases h
    have hout := modulated_outside (bits := bits) hwf
    rw [modulated_length_of_check hcheck (Memory.readBits_length hread)] at hout
    exact ⟨sameRegsBut_modulate (modulated_irqEn s bits) (modulated_regs s bits) (modulated_res s bits),
      hout⟩
  | demodulate =>
    have hstart := hstage rfl
    cases hread : s.iqBytes with
    | error a =>
      rw [exec_demodulate_of_start hstart hcheck, hread] at h
      cases h
    | ok bytes =>
      rw [exec_demodulate_pipelined hstart hcheck hread] at h
      cases h
      exact ⟨sameRegsBut_demodulate (State.pipelined_completed ..).2.2 (State.pipelined_regs ..)
          (by rw [State.pipelined_res, exitResults]),
        by
          rw [outputSpans_demodulate hcheck hread]
          exact State.pipelined_outside hwf (by rw [hstart]; decide)⟩
  | whiten =>
    rw [exec_whiten_of_check hcheck] at h
    obtain ⟨l, hread, h⟩ := withRead_next h
    cases h
    have hout := Memory.writeBits_outside hwf Config.txbitBase s.cfg.opOff.toNat
      (applyWhitening l s.cfg.phycfg.channel)
    rw [applyWhitening_length, Memory.readBits_length hread] at hout
    exact ⟨sameRegsBut_nil rfl rfl rfl, hout⟩
  | crc24 =>
    rw [exec_crc24_of_check hcheck] at h
    obtain ⟨bytes, -, h⟩ := withRead_next h
    cases h
    exact ⟨sameRegsBut_crc24 rfl rfl rfl, Memory.sameOutside_refl _ _⟩
  | assemble =>
    rw [checkOf_assemble_eq] at hcheck
    obtain rfl := eq_of_exec_assemble hcheck h
    have hout := Memory.writeBits_outside hwf Config.txbitBase 0 (packetStream s.cfg s.mem.pduIn)
    rw [packetStream_pduIn_length] at hout
    exact ⟨sameRegsBut_assemble (assembled_irqEn s s.mem.pduIn)
        (assembled_regs s s.mem.pduIn) (assembled_res s s.mem.pduIn),
      by rw [State.complete_mem, assembled_mem]; exact hout⟩
  | aaDetect =>
    rw [exec_aaDetect_of_check hcheck] at h
    obtain ⟨bits, -, h⟩ := withRead_next h
    cases h
    exact ⟨sameRegsBut_aaDetect rfl rfl rfl, Memory.sameOutside_refl _ _⟩
  | genPulse =>
    rw [exec_genPulse_of_check hcheck] at h
    cases h
    have hout := Memory.storedBytes_outside hwf Config.coefBase s.draws s.cfg.pulse
    rw [CfgRegs.pulse_length] at hout
    exact ⟨sameRegsBut_genPulse (pulseGenerated_irqEn s) (pulseGenerated_regs s)
      (pulseGenerated_res s), by rw [State.complete_mem, pulseGenerated_mem]; exact hout⟩

end Sys2Proof.Machine
end

section
/-! The statement of what a command writes (70_reset_and_hazards.md section 3). -/

namespace Sys2Proof.Proofs

open Sys2Proof.Machine

/-- Settles O53: a refused command changes only `STATUS` (`exec_refuses`), another one writes its
footprint (`exec_frame`). -/
theorem commandWritesOnlyItsOutputFootprint :
    Obligations.CommandWritesOnlyItsOutputFootprint := by
  unfold Obligations.CommandWritesOnlyItsOutputFootprint
  intro i s t hwf hstage h
  by_cases hcheck : checkOf i s.cfg s.mem = .ok
  · obtain ⟨hregs, hmem⟩ := exec_frame hwf hstage hcheck h
    rw [if_pos hcheck]
    refine ⟨fun r hr hout => hregs r hr ?_, hmem⟩
    rcases hout with hout | hne
    · exact hout
    · exact absurd hcheck hne
  · rw [exec_refuses hstage hcheck] at h
    cases h
    rw [if_neg hcheck]
    exact ⟨fun r hr _ => sameRegsBut_nil (s := s) (t := s.refuse _) rfl rfl rfl r hr List.not_mem_nil,
      Memory.sameOutside_refl _ _⟩

end Sys2Proof.Proofs
end

section
/-! SUPPORT. Commands from two memories that agree on the input footprint (70_reset_and_hazards.md
R461). -/

namespace Sys2Proof.Machine

/-- Two memories have the same bits, and the same marks, in the spans. -/
def Memory.AgreeOn (l : List BitSpan) (m m' : Memory) : Prop :=
  ∀ a k, k < 8 → ∀ sp ∈ l, sp.covers a k = true →
    (m'.byte a).getLsbD k = (m.byte a).getLsbD k ∧ (m'.mask a).getLsbD k = (m.mask a).getLsbD k

section

variable {m m' : Memory}

theorem Memory.AgreeOn.bit {base first count : Nat}
    (h : Memory.AgreeOn [⟨base, first, count⟩] m m') {j : Nat} (hj : j < count) :
    m'.bit base (first + j) = m.bit base (first + j)
      ∧ m'.bitWritten base (first + j) = m.bitWritten base (first + j) :=
  h _ _ (by omega) _ (List.mem_singleton.2 rfl)
    ((BitSpan.covers_iff (by omega)).2 ⟨j, hj, rfl, rfl⟩)

theorem Memory.AgreeOn.byte {base first count : Nat}
    (h : Memory.AgreeOn [⟨base, 8 * first, 8 * count⟩] m m') {j : Nat} (hj : j < count) :
    m'.byte (base + first + j) = m.byte (base + first + j)
      ∧ m'.mask (base + first + j) = m.mask (base + first + j) := by
  have hbit (k : Nat) (hk : k < 8) := h (base + first + j) k hk _ (List.mem_singleton.2 rfl)
    ((BitSpan.covers_iff hk).2 ⟨8 * j + k, by omega, by omega, by omega⟩)
  exact ⟨byte_ext fun k hk => (hbit k hk).1, byte_ext fun k hk => (hbit k hk).2⟩

theorem Memory.AgreeOn.readBits {base first count : Nat}
    (h : Memory.AgreeOn [⟨base, first, count⟩] m m') {l : List Bool}
    (hl : m.readBits base first count = .ok l) : m'.readBits base first count = .ok l := by
  obtain ⟨hw, rfl⟩ := Memory.readBits_ok_iff.1 hl
  refine Memory.readBits_ok_iff.2 ⟨fun j hj => by rw [(h.bit hj).2, hw j hj], ?_⟩
  exact List.map_congr_left fun j hj => (h.bit (List.mem_range.1 hj)).1.symm

theorem Memory.AgreeOn.readBytes {base first count : Nat}
    (h : Memory.AgreeOn [⟨base, 8 * first, 8 * count⟩] m m') :
    m'.readBytes (base + first) count = m.readBytes (base + first) count :=
  Memory.readBytes_congr (fun _ hj => (h.byte hj).1) fun _ hj => (h.byte hj).2

theorem Memory.agreeOn_of_bit {base first count : Nat}
    (h : ∀ j, j < count → m'.bit base (first + j) = m.bit base (first + j)
      ∧ m'.bitWritten base (first + j) = m.bitWritten base (first + j)) :
    Memory.AgreeOn [⟨base, first, count⟩] m m' := by
  intro a k hk sp hsp hcov
  rw [List.mem_singleton.1 hsp] at hcov
  obtain ⟨j, hj, rfl, rfl⟩ := (BitSpan.covers_iff hk).1 hcov
  exact h j hj

theorem Memory.agreeOn_of_byte {base first count : Nat}
    (h : ∀ j, j < count → m'.byte (base + first + j) = m.byte (base + first + j)
      ∧ m'.mask (base + first + j) = m.mask (base + first + j)) :
    Memory.AgreeOn [⟨base, 8 * first, 8 * count⟩] m m' := by
  intro a k hk sp hsp hcov
  rw [List.mem_singleton.1 hsp] at hcov
  obtain ⟨j, hj, rfl, rfl⟩ := (BitSpan.covers_iff hk).1 hcov
  have hplace : base + (8 * first + j) / 8 = base + first + j / 8 := by omega
  obtain ⟨hbyte, hmask⟩ := h (j / 8) (by omega)
  rw [hplace, hbyte, hmask]
  exact ⟨rfl, rfl⟩

theorem Memory.AgreeOn.cons {sp : BitSpan} {l : List BitSpan} (hsp : Memory.AgreeOn [sp] m m')
    (hl : Memory.AgreeOn l m m') : Memory.AgreeOn (sp :: l) m m' := by
  intro a k hk q hq hcov
  rcases List.mem_cons.1 hq with rfl | hq
  · exact hsp a k hk q (List.mem_singleton.2 rfl) hcov
  · exact hl a k hk q hq hcov

/-- The same bits written to both memories. -/
theorem Memory.agreeOn_writeBits (h : m.wf = true) (h' : m'.wf = true) (base i : Nat)
    (l : List Bool) :
    Memory.AgreeOn [⟨base, i, l.length⟩] (m.writeBits base i l) (m'.writeBits base i l) := by
  refine Memory.agreeOn_of_bit fun j hj => ?_
  obtain ⟨hb, hw⟩ := Memory.bit_writeBits_at h base i hj
  obtain ⟨hb', hw'⟩ := Memory.bit_writeBits_at h' base i hj
  exact ⟨hb'.trans hb.symm, hw'.trans hw.symm⟩

/-- The same bytes written to both memories. -/
theorem Memory.agreeOn_writeBytes (h : m.wf = true) (h' : m'.wf = true) (base off : Nat)
    (l : List Byte) :
    Memory.AgreeOn [⟨base, 8 * off, 8 * l.length⟩] (m.writeBytes (base + off) l)
      (m'.writeBytes (base + off) l) := by
  refine Memory.agreeOn_of_byte fun j hj => ?_
  rw [Memory.byte_writeBytes h, Memory.byte_writeBytes h', Memory.mask_writeBytes h,
    Memory.mask_writeBytes h', if_pos (by omega), if_pos (by omega), if_pos (by omega),
    if_pos (by omega)]
  exact ⟨rfl, rfl⟩

end

/-- From the memory `m` command `i` does as from that of `s`, where it ends in `t`. -/
def SameFrom (i : Instr) (s t : State) (m : Memory) : Prop :=
  ∃ m', exec i { s with mem := m } = .next { t with mem := m' }
    ∧ Memory.AgreeOn (outputSpans i s.cfg s.mem) t.mem m'

section

variable {s t : State} {m : Memory}

theorem State.cfg_withMem (s : State) (m : Memory) : State.cfg { s with mem := m } = s.cfg := rfl

theorem modulated_withMem (s : State) (m : Memory) (bits : List Bool) :
    modulated { s with mem := m } bits
      = { modulated s bits with
          mem := m.writeBytes (Config.iqBase + 16 * s.cfg.iqOff.toNat)
            (storedBytes s.draws (partsOf (s.cfg.modulated bits))) } := by
  unfold modulated; rfl

theorem pulseGenerated_withMem (s : State) (m : Memory) :
    pulseGenerated { s with mem := m }
      = { pulseGenerated s with
          mem := m.writeBytes Config.coefBase (storedBytes s.draws s.cfg.pulse) } := by
  unfold pulseGenerated; rfl

theorem assembled_withMem (s : State) (m : Memory) (pdu : List Byte) :
    assembled { s with mem := m } pdu
      = { assembled s pdu with
          mem := m.writeBits Config.txbitBase 0 (packetStream s.cfg pdu) } := by
  unfold assembled; rfl

theorem State.pipelined_withMem (s : State) (m : Memory) (c : CfgRegs) (x : List Cx) :
    State.pipelined { s with mem := m } c x
      = { s.pipelined c x with mem := (State.pipelined { s with mem := m } c x).mem } := by
  unfold State.pipelined; rfl

theorem sameFrom_modulate (hwf : s.mem.wf = true) (hm : m.wf = true)
    (hcheck : modulateCheck s.cfg = .ok)
    (hagree : Memory.AgreeOn (inputSpans .modulate s.cfg s.mem) s.mem m)
    (h : exec .modulate s = .next t) : SameFrom .modulate s t m := by
  rw [exec_modulate_of_check hcheck] at h
  obtain ⟨bits, hread, h⟩ := withRead_next h
  cases h
  have hlen := modulated_length_of_check hcheck (Memory.readBits_length hread)
  have hsame := Memory.agreeOn_writeBytes hwf hm Config.iqBase (16 * s.cfg.iqOff.toNat)
    (storedBytes s.draws (partsOf (s.cfg.modulated bits)))
  rw [storedBytes_length, partsOf_length, hlen, ← Nat.mul_assoc, ← Nat.mul_assoc,
    ← Nat.mul_assoc] at hsame
  refine ⟨m.writeBytes (Config.iqBase + 16 * s.cfg.iqOff.toNat)
    (storedBytes s.draws (partsOf (s.cfg.modulated bits))), ?_, ?_⟩
  · rw [exec_modulate_of_check (s := { s with mem := m }) hcheck, State.cfg_withMem,
      hagree.readBits hread, withRead_ok, modulated_withMem]
    rfl
  · rw [State.complete_mem, modulated_mem]
    exact hsame

theorem sameFrom_demodulate (hwf : s.mem.wf = true) (hm : m.wf = true)
    (hstage : s.status.stage = .start) (hcheck : demodulateCheck s.cfg = .ok)
    (hagree : Memory.AgreeOn (inputSpans .demodulate s.cfg s.mem) s.mem m)
    (h : exec .demodulate s = .next t) : SameFrom .demodulate s t m := by
  cases hread : s.iqBytes with
  | error a =>
    rw [exec_demodulate_of_start hstage hcheck, hread] at h
    cases h
  | ok bytes =>
    rw [exec_demodulate_pipelined hstage hcheck hread] at h
    cases h
    have hread' : State.iqBytes { s with mem := m } = .ok bytes := by
      have hspan : inputSpans .demodulate s.cfg s.mem
          = [⟨Config.iqBase, 8 * (16 * s.cfg.iqOff.toNat), 8 * (16 * s.cfg.iqNsamp.toNat)⟩] := by
        rw [inputSpans, ← Nat.mul_assoc, ← Nat.mul_assoc]
      rw [hspan] at hagree
      exact hagree.readBytes.trans hread
    have hexec := exec_demodulate_pipelined (s := { s with mem := m }) hstage hcheck hread'
    have hleft : 5 ≤ s.status.stage.stagesLeft := by rw [hstage]; decide
    rw [State.cfg_withMem, State.pipelined_withMem] at hexec
    refine ⟨_, hexec, ?_⟩
    rw [outputSpans_demodulate hcheck hread]
    refine .cons (Memory.agreeOn_of_bit fun j hj => ?_)
      (Memory.agreeOn_of_byte (first := 0) fun j hj => ?_)
    · obtain ⟨hb, hw⟩ := State.pipelined_rxbit (c := s.cfg) (x := samplesOf bytes) hwf hleft hj
      obtain ⟨hb', hw'⟩ := State.pipelined_rxbit (s := { s with mem := m }) (c := s.cfg)
        (x := samplesOf bytes) hm hleft hj
      rw [Nat.zero_add]
      exact ⟨hb'.trans hb.symm, hw'.trans hw.symm⟩
    · obtain ⟨hb, hw⟩ := State.pipelined_pdu (c := s.cfg) (x := samplesOf bytes) hwf hj
      obtain ⟨hb', hw'⟩ := State.pipelined_pdu (s := { s with mem := m }) (c := s.cfg)
        (x := samplesOf bytes) hm hj
      exact ⟨hb'.trans hb.symm, hw'.trans hw.symm⟩

theorem sameFrom_whiten (hwf : s.mem.wf = true) (hm : m.wf = true)
    (hcheck : whitenCheck s.cfg = .ok)
    (hagree : Memory.AgreeOn (inputSpans .whiten s.cfg s.mem) s.mem m)
    (h : exec .whiten s = .next t) : SameFrom .whiten s t m := by
  rw [exec_whiten_of_check hcheck] at h
  obtain ⟨l, hread, h⟩ := withRead_next h
  cases h
  have hsame := Memory.agreeOn_writeBits hwf hm Config.txbitBase s.cfg.opOff.toNat
    (applyWhitening l s.cfg.phycfg.channel)
  rw [applyWhitening_length, Memory.readBits_length hread] at hsame
  refine ⟨_, ?_, hsame⟩
  rw [exec_whiten_of_check (s := { s with mem := m }) hcheck, State.cfg_withMem,
    hagree.readBits hread, withRead_ok]
  rfl

theorem sameFrom_crc24 (hcheck : crc24Check s.cfg = .ok)
    (hagree : Memory.AgreeOn (inputSpans .crc24 s.cfg s.mem) s.mem m)
    (h : exec .crc24 s = .next t) : SameFrom .crc24 s t m := by
  rw [exec_crc24_of_check hcheck] at h
  obtain ⟨bytes, hread, h⟩ := withRead_next h
  cases h
  have hread' : m.readBytes Config.pduInBase s.cfg.crcNbytes.toNat = .ok bytes :=
    (Memory.AgreeOn.readBytes (first := 0) hagree).trans hread
  refine ⟨m, ?_, fun _ _ _ _ hsp => absurd hsp List.not_mem_nil⟩
  rw [exec_crc24_of_check (s := { s with mem := m }) hcheck, State.cfg_withMem, hread', withRead_ok]
  rfl

theorem sameFrom_assemble (hwf : s.mem.wf = true) (hm : m.wf = true)
    (hcheck : assembleCheck s.cfg = .ok)
    (hagree : Memory.AgreeOn (inputSpans .assemble s.cfg s.mem) s.mem m)
    (h : exec .assemble s = .next t) : SameFrom .assemble s t m := by
  have hbyte (j : Nat) (hj : j < 2 + (s.mem.byte (Config.pduInBase + 1)).toNat) :=
    Memory.AgreeOn.byte (first := 0) hagree hj
  have hlen : m.byte (Config.pduInBase + 1) = s.mem.byte (Config.pduInBase + 1) :=
    (hbyte 1 (by omega)).1
  have hpdu : m.pduIn = s.mem.pduIn := by
    rw [Memory.pduIn, Memory.pduIn, hlen]
    exact List.map_congr_left fun j hj => (hbyte j (List.mem_range.1 hj)).1
  have hwritten : Memory.Written (inputSpans .assemble s.cfg s.mem) s.mem := by
    by_contra hnot
    obtain ⟨a, ha, -⟩ := (execAssemble_completesIffWritten hcheck).2 hnot
    rw [h] at ha
    cases ha
  obtain rfl := eq_of_exec_assemble hcheck h
  have hsame := Memory.agreeOn_writeBits hwf hm Config.txbitBase 0 (packetStream s.cfg s.mem.pduIn)
  rw [packetStream_pduIn_length] at hsame
  refine ⟨m.writeBits Config.txbitBase 0 (packetStream s.cfg s.mem.pduIn), ?_, ?_⟩
  · rw [exec_assemble_of_written (s := { s with mem := m }) hcheck fun j hj => ?_]
    · rw [hpdu, assembled_withMem]
      rfl
    · rw [hlen] at hj
      have hmark := (Memory.written_bytes (first := 0)).1 hwritten j hj
      exact (hbyte j hj).2.trans hmark
  · rw [State.complete_mem, assembled_mem]
    exact hsame

theorem sameFrom_aaDetect (hcheck : aaDetectCheck s.cfg = .ok)
    (hagree : Memory.AgreeOn (inputSpans .aaDetect s.cfg s.mem) s.mem m)
    (h : exec .aaDetect s = .next t) : SameFrom .aaDetect s t m := by
  rw [exec_aaDetect_of_check hcheck] at h
  obtain ⟨bits, hread, h⟩ := withRead_next h
  cases h
  refine ⟨m, ?_, fun _ _ _ _ hsp => absurd hsp List.not_mem_nil⟩
  rw [exec_aaDetect_of_check (s := { s with mem := m }) hcheck, State.cfg_withMem,
    hagree.readBits hread, withRead_ok]
  rfl

theorem sameFrom_genPulse (hwf : s.mem.wf = true) (hm : m.wf = true)
    (hcheck : genPulseCheck s.cfg = .ok) (h : exec .genPulse s = .next t) :
    SameFrom .genPulse s t m := by
  rw [exec_genPulse_of_check hcheck] at h
  cases h
  have hsame := Memory.agreeOn_writeBytes hwf hm Config.coefBase 0
    (storedBytes s.draws s.cfg.pulse)
  rw [storedBytes_length, CfgRegs.pulse_length, ← Nat.mul_assoc] at hsame
  refine ⟨m.writeBytes Config.coefBase (storedBytes s.draws s.cfg.pulse), ?_, ?_⟩
  · rw [exec_genPulse_of_check (s := { s with mem := m }) hcheck, pulseGenerated_withMem]
    rfl
  · rw [State.complete_mem, pulseGenerated_mem]
    exact hsame

end

end Sys2Proof.Machine
end

section
/-! The statement of what a command depends on (70_reset_and_hazards.md section 3). -/

namespace Sys2Proof.Proofs

open Sys2Proof.Machine

/-- Settles O54: each command reads the same operands from both memories and writes the same bits to
them, one `sameFrom_` lemma each. -/
theorem commandDependsOnlyOnItsInputFootprint :
    Obligations.CommandDependsOnlyOnItsInputFootprint := by
  unfold Obligations.CommandDependsOnlyOnItsInputFootprint
  intro i s t m hwf hm hstage hcheck hagree h
  have hsame : SameFrom i s t m := by
    cases i with
    | modulate => exact sameFrom_modulate hwf hm hcheck hagree h
    | demodulate => exact sameFrom_demodulate hwf hm (hstage rfl) hcheck hagree h
    | whiten => exact sameFrom_whiten hwf hm hcheck hagree h
    | crc24 => exact sameFrom_crc24 hcheck hagree h
    | assemble =>
      rw [checkOf_assemble_eq] at hcheck
      exact sameFrom_assemble hwf hm hcheck hagree h
    | aaDetect => exact sameFrom_aaDetect hcheck hagree h
    | genPulse => exact sameFrom_genPulse hwf hm hcheck h
  obtain ⟨m', hexec, hout⟩ := hsame
  exact ⟨_, hexec, rfl, hout⟩

end Sys2Proof.Proofs
end

section
/-! SUPPORT. A host write to a register that the running command does not write, before the command
runs, is that write after it (10_state.md R52): the command reads its snapshot. -/

namespace Sys2Proof.Machine

/-- The state with its configuration registers and `CTRL` changed. -/
def State.mapRegs (g : CfgRegs → CfgRegs) (h : Bool → Bool) (s : State) : State :=
  { s with regs := g s.regs, irqEn := h s.irqEn }

/-- What a write to a register does to the configuration registers. -/
def Reg.setIn (r : Reg) (w : Word) (c : CfgRegs) : CfgRegs :=
  (State.setReg { State.reset with regs := c } r w).regs

/-- What a write to a register does to `CTRL`. -/
def Reg.setIrqEn (r : Reg) (w : Word) (b : Bool) : Bool :=
  (State.setReg { State.reset with irqEn := b } r w).irqEn

theorem State.setReg_eq_mapRegs {r : Reg} (h : Reg.stores r = true) (w : Word) (s : State) :
    s.setReg r w = s.mapRegs (Reg.setIn r w) (Reg.setIrqEn r w) := by
  cases r <;> cases h <;> rfl

theorem Reg.setIn_iqNsamp {r : Reg} (hstores : Reg.stores r = true) (hr : r ≠ .iqNsamp) (w : Word)
    (c : CfgRegs) (n : Word) :
    Reg.setIn r w { c with iqNsamp := n } = { Reg.setIn r w c with iqNsamp := n } := by
  cases r with
  | iqNsamp => exact absurd rfl hr
  | cmd => cases hstores
  | _ => rfl

theorem Reg.setIn_txNbits {r : Reg} (hstores : Reg.stores r = true) (hr : r ≠ .txNbits) (w : Word)
    (c : CfgRegs) (n : Word) :
    Reg.setIn r w { c with txNbits := n } = { Reg.setIn r w c with txNbits := n } := by
  cases r with
  | txNbits => exact absurd rfl hr
  | cmd => cases hstores
  | _ => rfl

section

variable {g : CfgRegs → CfgRegs} {h : Bool → Bool} {s : State} {run : Running}

theorem State.mapRegs_cfg (hr : s.running = some run) : (s.mapRegs g h).cfg = s.cfg := by
  rw [State.cfg_of_running s run hr, State.cfg_of_running (s.mapRegs g h) run hr]

theorem guarded_mapRegs {code : ErrCode} {b b' : Host.Outcome State Fault Refusal}
    (hb : b' = mapNext (State.mapRegs g h) b) :
    (s.mapRegs g h).guarded code b' = mapNext (State.mapRegs g h) (s.guarded code b) := by
  rw [hb, guarded_mapNext (State.mapRegs g h) s code b rfl]

theorem withRead_mapRegs {α : Type} {i : Instr} {r : Except Nat α}
    {b b' : α → Host.Outcome State Fault Refusal}
    (hb : ∀ v, b' v = mapNext (State.mapRegs g h) (b v)) :
    withRead i r b' = mapNext (State.mapRegs g h) (withRead i r b) := by
  rw [← withRead_mapNext, funext hb]

/-! ### The stages of DEMODULATE -/

theorem advance_mapRegs (hr : s.running = some run) (k : Work) (st : Stage) :
    (s.mapRegs g h).advance k st = (s.advance k st).mapRegs g h := by
  rw [State.advance, State.mapRegs_cfg hr]
  rfl

theorem demodExit_mapRegs (hr : s.running = some run) (k : Work) (e : DemodExit) :
    demodExit (s.mapRegs g h) k e = (demodExit s k e).mapRegs g h := by
  rw [demodExit, State.mapRegs_cfg hr]
  rfl

theorem demodStart_mapRegs (hr : s.running = some run) :
    demodStart (s.mapRegs g h) = mapNext (State.mapRegs g h) (demodStart s) := by
  rw [demodStart, State.mapRegs_cfg hr]
  exact guarded_mapRegs <| withRead_mapRegs fun _ => congrArg _ (advance_mapRegs hr ..)

theorem demodPacketSync_mapRegs (hr : s.running = some run) :
    demodPacketSync (s.mapRegs g h) = (demodPacketSync s).mapRegs g h := by
  have hwork : (s.mapRegs g h).work = s.work := rfl
  unfold demodPacketSync
  rw [State.mapRegs_cfg hr, hwork]
  cases findSync s.work.bits (syncPattern s.cfg.accessAddr s.cfg.phycfg) with
  | none => exact demodExit_mapRegs hr ..
  | some pos => exact advance_mapRegs hr ..

theorem demodParse_mapRegs (hr : s.running = some run) :
    demodParse (s.mapRegs g h) = (demodParse s).mapRegs g h := by
  have hwork : (s.mapRegs g h).work = s.work := rfl
  unfold demodParse
  rw [State.mapRegs_cfg hr, hwork]
  split_ifs
  · exact demodExit_mapRegs hr ..
  · exact demodExit_mapRegs hr ..
  · exact advance_mapRegs hr ..

theorem demodStage_mapRegs (hr : s.running = some run) :
    demodStage (s.mapRegs g h) = mapNext (State.mapRegs g h) (demodStage s) := by
  have hwork : (s.mapRegs g h).work = s.work := rfl
  have hstage : (s.mapRegs g h).status.stage = s.status.stage := rfl
  unfold demodStage
  rw [hstage, State.mapRegs_cfg hr, hwork]
  cases s.status.stage with
  | packetSync => exact congrArg _ (demodPacketSync_mapRegs hr)
  | parse => exact congrArg _ (demodParse_mapRegs hr)
  | start | idle | done | exec => exact demodStart_mapRegs hr
  | crcCheck => exact congrArg _ (demodExit_mapRegs hr ..)
  | freqSync | demod | filter | timingSync | dewhiten => exact congrArg _ (advance_mapRegs hr ..)
  | bitDecision =>
    exact congrArg _ (advance_mapRegs (s := { s with
      mem := s.mem.writeBits Config.rxbitBase 0 (paddedBits (decisionWork s.work).bits) }) hr ..)

theorem demodRun_mapRegs (n : Nat) (hr : s.running = some run) :
    demodRun n (s.mapRegs g h) = mapNext (State.mapRegs g h) (demodRun n s) := by
  induction n generalizing s run with
  | zero => rfl
  | succ n ih =>
    rw [demodRun, demodRun, demodStage_mapRegs hr]
    cases demodStage s with
    | fault f => rfl
    | refused r => rfl
    | next t =>
      cases ht : t.running with
      | none => simp [mapNext, State.mapRegs, ht]
      | some q => simpa [mapNext, State.mapRegs, ht] using ih ht

/-! ### The other commands -/

theorem modulated_mapRegs (hr : s.running = some run) (bits : List Bool)
    (hg : ∀ c n, g { c with iqNsamp := n } = { g c with iqNsamp := n }) :
    modulated (s.mapRegs g h) bits = (modulated s bits).mapRegs g h := by
  have hregs := hg s.regs (BitVec.ofNat 32 s.cfg.modulatedLen)
  unfold modulated
  rw [State.mapRegs_cfg hr]
  simp only [State.mapRegs, State.writeF64s]
  rw [hregs]

theorem assembled_mapRegs (hr : s.running = some run) (pdu : List Byte)
    (hg : ∀ c n, g { c with txNbits := n } = { g c with txNbits := n }) :
    assembled (s.mapRegs g h) pdu = (assembled s pdu).mapRegs g h := by
  have hregs := hg s.regs (BitVec.ofNat 32 (packetStream s.cfg pdu).length)
  unfold assembled
  rw [State.mapRegs_cfg hr]
  simp only [State.mapRegs]
  rw [hregs]

theorem pulseGenerated_mapRegs (hr : s.running = some run) :
    pulseGenerated (s.mapRegs g h) = (pulseGenerated s).mapRegs g h := by
  unfold pulseGenerated
  rw [State.mapRegs_cfg hr]
  rfl

theorem execModulate_mapRegs (hr : s.running = some run)
    (hg : ∀ c n, g { c with iqNsamp := n } = { g c with iqNsamp := n }) :
    execModulate (s.mapRegs g h) = mapNext (State.mapRegs g h) (execModulate s) := by
  rw [execModulate, State.mapRegs_cfg hr]
  refine guarded_mapRegs <| withRead_mapRegs fun bits => ?_
  rw [modulated_mapRegs hr bits hg]
  rfl

theorem execAssemble_mapRegs (hr : s.running = some run)
    (hg : ∀ c n, g { c with txNbits := n } = { g c with txNbits := n }) :
    execAssemble (s.mapRegs g h) = mapNext (State.mapRegs g h) (execAssemble s) := by
  rw [execAssemble, State.mapRegs_cfg hr]
  refine guarded_mapRegs <| withRead_mapRegs fun _ => guarded_mapRegs <|
    withRead_mapRegs fun pdu => ?_
  rw [assembled_mapRegs hr pdu hg]
  rfl

theorem execGenPulse_mapRegs (hr : s.running = some run) :
    execGenPulse (s.mapRegs g h) = mapNext (State.mapRegs g h) (execGenPulse s) := by
  rw [execGenPulse, State.mapRegs_cfg hr]
  refine guarded_mapRegs ?_
  rw [pulseGenerated_mapRegs hr]
  rfl

theorem execWhiten_mapRegs (hr : s.running = some run) :
    execWhiten (s.mapRegs g h) = mapNext (State.mapRegs g h) (execWhiten s) := by
  rw [execWhiten, State.mapRegs_cfg hr]
  exact guarded_mapRegs <| withRead_mapRegs fun _ => rfl

theorem execCrc24_mapRegs (hr : s.running = some run) :
    execCrc24 (s.mapRegs g h) = mapNext (State.mapRegs g h) (execCrc24 s) := by
  rw [execCrc24, State.mapRegs_cfg hr]
  exact guarded_mapRegs <| withRead_mapRegs fun _ => rfl

theorem execAaDetect_mapRegs (hr : s.running = some run) :
    execAaDetect (s.mapRegs g h) = mapNext (State.mapRegs g h) (execAaDetect s) := by
  rw [execAaDetect, State.mapRegs_cfg hr]
  exact guarded_mapRegs <| withRead_mapRegs fun _ => rfl

end

/-- A write to a register that the running command does not write passes through it. -/
theorem exec_setReg {i : Instr} {r : Reg} {s : State} {run : Running} (hr : s.running = some run)
    (hstores : Reg.stores r = true) (hout : r ∉ outputRegs i) (w : Word) :
    exec i (s.setReg r w) = mapNext (fun t => t.setReg r w) (exec i s) := by
  rw [show (fun t : State => t.setReg r w) = State.mapRegs (Reg.setIn r w) (Reg.setIrqEn r w) from
    funext fun t => State.setReg_eq_mapRegs hstores w t, State.setReg_eq_mapRegs hstores]
  cases i with
  | modulate =>
    refine execModulate_mapRegs hr (Reg.setIn_iqNsamp hstores (fun h => hout ?_) w)
    rw [h]
    decide
  | demodulate => exact demodRun_mapRegs 10 hr
  | whiten => exact execWhiten_mapRegs hr
  | crc24 => exact execCrc24_mapRegs hr
  | assemble =>
    refine execAssemble_mapRegs hr (Reg.setIn_txNbits hstores (fun h => hout ?_) w)
    rw [h]
    decide
  | aaDetect => exact execAaDetect_mapRegs hr
  | genPulse => exact execGenPulse_mapRegs hr

end Sys2Proof.Machine
end

section
/-! The statement of the snapshot (10_state.md section 6). -/

namespace Sys2Proof.Proofs

open Sys2Proof.Machine

/-- Settles O6: acceptance copies the registers, and no command reads them afterwards
(`exec_setReg`). -/
theorem runningCommandReadsItsSnapshot : Obligations.RunningCommandReadsItsSnapshot := by
  unfold Obligations.RunningCommandReadsItsSnapshot
  exact ⟨fun s w => State.accept_cfg s w, fun s run i r w hr hstores hout =>
    exec_setReg hr hstores hout w⟩

end Sys2Proof.Proofs
end
